-- ==== Sys2Proof/Word.lean ====
section
/-! DEFINITION. The word types of nlutilities CORE and the three names of the streaming encoder's state
(00_scope.md R5, R7; 10_state.md R14). -/

namespace Sys2Proof

/-- A raw byte, or a character of a text (00_scope.md R5: both are 8 bits wide). -/
abbrev Byte := BitVec 8

/-- A six-bit group, one Base64 digit before the look-up (40_base64_alphabet.md R65). -/
abbrev Group := BitVec 6

/-- RET, FXOUT, addresses, lengths, SINK and CTX (00_scope.md R5, `XLEN` = 32). -/
abbrev Word := BitVec 32

/-- The 64-bit precision of the converter's product (43_fixed_point.md R116). -/
abbrev Wide := BitVec 64

/-- The 128-bit command descriptor `D[127:0]` (30_encoding.md R45). -/
abbrev Descriptor := BitVec 128

/-- The state of the streaming encoder's state machine, the values of CNT (10_state.md R14).
The pattern 3 of the two bits "never occurs" there, so it has no name here. -/
inductive EncState where
  | empty  -- CNT = 0, no raw byte pending
  | one    -- CNT = 1, one raw byte pending
  | two    -- CNT = 2, two raw bytes pending
deriving DecidableEq, Repr, Inhabited

end Sys2Proof
end

