-- ==== Sys2Proof/Machine/Alphabet.lean ====
section
/-! DEFINITION. The Base64 alphabet in both directions, the pad character, and the layout of three bytes in
four groups (40_base64_alphabet.md R65 to R74). Constant functions, no state. -/

namespace Sys2Proof.Machine

/-- The pad character `=` (R70). -/
def PAD : Byte := 0x3D

/-- `ENC6`: the character of a group, the closed form of R67 (RFC 4648 Table 1). -/
def enc6 (v : Group) : Byte :=
  if v.toNat ≤ 25 then BitVec.ofNat 8 (0x41 + v.toNat)
  else if v.toNat ≤ 51 then BitVec.ofNat 8 (0x61 + (v.toNat - 26))
  else if v.toNat ≤ 61 then BitVec.ofNat 8 (0x30 + (v.toNat - 52))
  else if v.toNat = 62 then 0x2B
  else 0x2F

/-- `DEC8`: the group of a character, `none` for the 192 characters outside the alphabet, the closed form of R68. -/
def dec8 (ch : Byte) : Option Group :=
  if 0x41 ≤ ch.toNat ∧ ch.toNat ≤ 0x5A then some (BitVec.ofNat 6 (ch.toNat - 0x41))
  else if 0x61 ≤ ch.toNat ∧ ch.toNat ≤ 0x7A then some (BitVec.ofNat 6 (ch.toNat - 0x61 + 26))
  else if 0x30 ≤ ch.toNat ∧ ch.toNat ≤ 0x39 then some (BitVec.ofNat 6 (ch.toNat - 0x30 + 52))
  else if ch.toNat = 0x2B then some 62
  else if ch.toNat = 0x2F then some 63
  else none

/-- The three classes of a character read by the decoder (41_base64_block.md R85). -/
inductive CharClass where
  | pad
  | symbol (v : Group)
  | foreign
deriving DecidableEq, Repr

/-- R85, in its order: equal to `PAD`; else in the alphabet; else foreign. -/
def classify (ch : Byte) : CharClass :=
  if ch = PAD then .pad
  else match dec8 ch with
    | some v => .symbol v
    | none => .foreign

/-! Encode layout (R71) and partial groups (R72). -/

/-- `c0 = b0[7:2]`. -/
def group0 (b0 : Byte) : Group := b0.extractLsb' 2 6

/-- `c1 = b0[1:0] · b1[7:4]`. -/
def group1 (b0 b1 : Byte) : Group := b0.extractLsb' 0 2 ++ b1.extractLsb' 4 4

/-- `c2 = b1[3:0] · b2[7:6]`. -/
def group2 (b1 b2 : Byte) : Group := b1.extractLsb' 0 4 ++ b2.extractLsb' 6 2

/-- `c3 = b2[5:0]`. -/
def group3 (b2 : Byte) : Group := b2.extractLsb' 0 6

/-- The encode layout as a whole, three bytes to four groups (R71). Inverse to `decodeLayout` (R74). -/
def encodeLayout : Byte × Byte × Byte → Group × Group × Group × Group
  | (b0, b1, b2) => (group0 b0, group1 b0 b1, group2 b1 b2, group3 b2)

/-- The four characters of three bytes (R71): alphabet characters only, so no `PAD` and no filler (R74). -/
def quantum (b0 b1 b2 : Byte) : List Byte :=
  match encodeLayout (b0, b1, b2) with
  | (c0, c1, c2, c3) => [enc6 c0, enc6 c1, enc6 c2, enc6 c3]

/-- The partial `c1`, `b0[1:0] · 0000` (R72). -/
def partial1 (b0 : Byte) : Group := b0.extractLsb' 0 2 ++ 0#4

/-- The partial `c2`, `b1[3:0] · 00` (R72). -/
def partial2 (b1 : Byte) : Group := b1.extractLsb' 0 4 ++ 0#2

/-- `c1` completed from the stored partial group and the next byte, `G1[5:4] · b[7:4]` (42_base64_stream.md R101). -/
def complete1 (g1 : Group) (b : Byte) : Group := g1.extractLsb' 4 2 ++ b.extractLsb' 4 4

/-- `c2` completed from the stored partial group and the next byte, `G2[5:2] · b[7:6]` (42_base64_stream.md R101). -/
def complete2 (g2 : Group) (b : Byte) : Group := g2.extractLsb' 2 4 ++ b.extractLsb' 6 2

/-! Decode layout (R73). -/

/-- `b0 = c0[5:0] · c1[5:4]`. -/
def byte0 (c0 c1 : Group) : Byte := c0 ++ c1.extractLsb' 4 2

/-- `b1 = c1[3:0] · c2[5:2]`. -/
def byte1 (c1 c2 : Group) : Byte := c1.extractLsb' 0 4 ++ c2.extractLsb' 2 4

/-- `b2 = c2[1:0] · c3[5:0]`. -/
def byte2 (c2 c3 : Group) : Byte := c2.extractLsb' 0 2 ++ c3

/-- The decode layout as a whole, four groups to three bytes (R73). Inverse to `encodeLayout` (R74). -/
def decodeLayout : Group × Group × Group × Group → Byte × Byte × Byte
  | (c0, c1, c2, c3) => (byte0 c0 c1, byte1 c1 c2, byte2 c2 c3)

/-- What R78 asks of the block encoder's filler: not an alphabet character and not `=`, so never the image of a group (R74). -/
def fillLegal (b : Byte) : Bool := (dec8 b).isNone && b != PAD

end Sys2Proof.Machine
end

