-- ==== Sys2Proof/Config.lean ====
section
/-! DEFINITION. The parameters the spec leaves to the platform (00_scope.md R5) and the free values, constants
with no body: nothing can be proved about what they are. -/

namespace Sys2Proof

/-- The open parameters of R5 but for `N_ENC`, which is the length of the state's list of sessions. They are
carried in the state, so that a statement over all states is one over all their values; nothing writes them
(10_state.md R24). -/
structure Params where
  /-- `MEM_SIZE`, bytes of buffer memory, 0 to 2^32. -/
  memSize : Nat
  /-- `HAS_ENCB`, whether the block encoder command exists. -/
  hasEncb : Bool
  /-- `BLK_FILL`, the filler of the block encoder (41_base64_block.md R78). -/
  blkFill : Byte
deriving DecidableEq, Repr

/-- The values R5 and R78 allow the parameters to have. -/
def Params.legal (p : Params) : Bool := p.memSize ≤ 2 ^ 32 && Machine.fillLegal p.blkFill

namespace Config

/-- Every value `BLK_FILL` may have (R78): 191 of them. -/
def legalFills : List Byte := ((List.range 256).map (BitVec.ofNat 8)).filter Machine.fillLegal

/-- Which legal filler this block has is not known (93_implementation_defined.md U7). -/
opaque blkFillIndex : Fin 191

/-- The filler of the reset state: some legal value, not said which. DESIGN CHOICE (notes/assumptions/3.md). -/
def blkFill : Byte := legalFills.getD blkFillIndex.val 0

/-- `N_ENC`, the default of R5. -/
def nEnc : Nat := 1

/-- The parameters of the reset state: `HAS_ENCB` by the default of R5, `MEM_SIZE` the whole 32-bit address space,
DESIGN CHOICE (notes/assumptions/2.md). -/
def params : Params := { memSize := 2 ^ 32, hasEncb := true, blkFill := blkFill }

/-! The free values. Each is applied to the counter `State.free`, so two draws are unrelated. -/

/-- A byte of the output range after a failed B64.DEC (R88, U3; notes/assumptions/8.md). -/
opaque freeByte : Nat → Byte

/-- CNT after B64S.FINISH (10_state.md R19, U14; notes/assumptions/10.md). -/
opaque freeCnt : Nat → EncState

/-- G0, G1 or G2 after B64S.FINISH (10_state.md R19, U14; notes/assumptions/10.md). -/
opaque freeGroup : Nat → Group

end Config
end Sys2Proof
end

