-- ==== Sys2Proof/Syntax.lean ====
section
/-! DEFINITION. The nine commands as syntax, one constructor per row of spec/opcode_table.json, and the reasons a
descriptor can be reserved (30_encoding.md R47, R48 to R54, R55, R56). -/

namespace Sys2Proof

/-- A command with its operands, each of the width its format gives it (R47). -/
inductive Instr where
  /-- B64S.START, format S (R48). -/
  | b64sStart (sid : BitVec 8) (sink ctx : Word)
  /-- B64S.MORE, format M (R49). -/
  | b64sMore (sid : BitVec 8) (addr len : Word)
  /-- B64S.FINISH, format F (R50). -/
  | b64sFinish (sid : BitVec 8) (pad : Bool)
  /-- B64.DEC, format B (R51): `inp` is the spec's `in`. -/
  | b64Dec (inp len out : Word)
  /-- B64.ENCB, format B (R51): `inp` is the spec's `in`. -/
  | b64Encb (inp len out : Word)
  /-- FXP.CVT.U16, format X16 (R52). -/
  | fxpCvtU16 (raw : BitVec 16) (scale frac : Word)
  /-- FXP.CVT.S16, format X16 (R52): the 16 bits as they are. -/
  | fxpCvtS16 (raw : BitVec 16) (scale frac : Word)
  /-- FXP.CVT.U32, format X32 (R53). -/
  | fxpCvtU32 (raw scale frac : Word)
  /-- FXP.CVT.S32, format X32 (R53): the 32 bits as they are. -/
  | fxpCvtS32 (raw scale frac : Word)
deriving DecidableEq, Repr

/-- The mnemonic of the row of spec/opcode_table.json (R55). -/
def Instr.mnemonic : Instr → String
  | .b64sStart _ _ _ => "B64S.START"
  | .b64sMore _ _ _ => "B64S.MORE"
  | .b64sFinish _ _ => "B64S.FINISH"
  | .b64Dec _ _ _ => "B64.DEC"
  | .b64Encb _ _ _ => "B64.ENCB"
  | .fxpCvtU16 _ _ _ => "FXP.CVT.U16"
  | .fxpCvtS16 _ _ _ => "FXP.CVT.S16"
  | .fxpCvtU32 _ _ _ => "FXP.CVT.U32"
  | .fxpCvtS32 _ _ _ => "FXP.CVT.S32"

/-- The session a streaming command names (42_base64_stream.md R96); the other commands name none. -/
def Instr.sid? : Instr → Option (BitVec 8)
  | .b64sStart sid _ _ => some sid
  | .b64sMore sid _ _ => some sid
  | .b64sFinish sid _ => some sid
  | .b64Dec _ _ _ => none
  | .b64Encb _ _ _ => none
  | .fxpCvtU16 _ _ _ => none
  | .fxpCvtS16 _ _ _ => none
  | .fxpCvtU32 _ _ _ => none
  | .fxpCvtS32 _ _ _ => none

/-- Why a descriptor is reserved, the four grounds of R56. -/
inductive Reserved where
  /-- `OPC` is not in the table of R55. -/
  | opcode
  /-- A bit or word that R46 and R47 require to be zero is not zero. -/
  | mustBeZero
  /-- A B64S.* command with `SID >= N_ENC`. -/
  | session
  /-- `OPC` is 0x21 and `HAS_ENCB` is false. -/
  | noEncb
deriving DecidableEq, Repr

/-- The macros B64S.ENCODE.PAD (`pad` true) and B64S.ENCODE.NOPAD (`pad` false) and their expansion (R61). -/
def Instr.encodeStreaming (pad : Bool) (sid : BitVec 8) (sink ctx addr len : Word) : List Instr :=
  [.b64sStart sid sink ctx, .b64sMore sid addr len, .b64sFinish sid pad]

end Sys2Proof
end

