-- ==== Sys2Proof/WellFormed.lean ====
section
/-! DEFINITION. The conditions of spec/opcode_table.json on a decoded command: `SID < N_ENC` and `HAS_ENCB`
(30_encoding.md R55, R56). The widths of the fields are in their types. -/

namespace Sys2Proof

/-- The command is not reserved on a block with `nEnc` sessions, with or without the block encoder (R56). -/
def Instr.wellFormed (nEnc : Nat) (hasEncb : Bool) : Instr → Bool
  | .b64sStart sid _ _ => sid.toNat < nEnc
  | .b64sMore sid _ _ => sid.toNat < nEnc
  | .b64sFinish sid _ => sid.toNat < nEnc
  | .b64Dec _ _ _ => true
  | .b64Encb _ _ _ => hasEncb
  | .fxpCvtU16 _ _ _ => true
  | .fxpCvtS16 _ _ _ => true
  | .fxpCvtU32 _ _ _ => true
  | .fxpCvtS32 _ _ _ => true

end Sys2Proof
end

