-- ==== Sys2Proof/Decode.lean ====
section
/-! DEFINITION. Descriptors to commands, total and rejecting by name, and commands to descriptors
(30_encoding.md R45 to R58), with the operand-level assembler of R60. -/

namespace Sys2Proof

namespace Descriptor

/-! The words and fields of a descriptor (R45, R46). -/

def w0 (d : Descriptor) : Word := d.extractLsb' 0 32
def w1 (d : Descriptor) : Word := d.extractLsb' 32 32
def w2 (d : Descriptor) : Word := d.extractLsb' 64 32
def w3 (d : Descriptor) : Word := d.extractLsb' 96 32

/-- `OPC = W0[7:0]`. -/
def opc (d : Descriptor) : BitVec 8 := d.w0.extractLsb' 0 8
/-- `PAD = W0[8]`. -/
def padBit (d : Descriptor) : BitVec 1 := d.w0.extractLsb' 8 1
/-- `W0[15:9]`, zero in every command. -/
def zeroLow (d : Descriptor) : BitVec 7 := d.w0.extractLsb' 9 7
/-- `SID = W0[23:16]`. -/
def sid (d : Descriptor) : BitVec 8 := d.w0.extractLsb' 16 8
/-- `W0[31:24]`, zero in every command. -/
def zeroHigh (d : Descriptor) : BitVec 8 := d.w0.extractLsb' 24 8
/-- `RAW16 = W1[15:0]` (R52). -/
def raw16 (d : Descriptor) : BitVec 16 := d.w1.extractLsb' 0 16
/-- `W1[31:16]`, zero in format X16 (R47). -/
def w1High (d : Descriptor) : BitVec 16 := d.w1.extractLsb' 16 16

/-- `W0[15:9]` and `W0[31:24]` are zero (R46). -/
def commonZero (d : Descriptor) : Bool := d.zeroLow == 0 && d.zeroHigh == 0

/-! The bits each format requires to be zero (R46, R47). -/

def okS (d : Descriptor) : Bool := d.commonZero && d.padBit == 0 && d.w3 == 0
def okM (d : Descriptor) : Bool := d.commonZero && d.padBit == 0 && d.w3 == 0
def okF (d : Descriptor) : Bool := d.commonZero && d.w1 == 0 && d.w2 == 0 && d.w3 == 0
def okB (d : Descriptor) : Bool := d.commonZero && d.padBit == 0 && d.sid == 0
def okX16 (d : Descriptor) : Bool := d.commonZero && d.padBit == 0 && d.sid == 0 && d.w1High == 0
def okX32 (d : Descriptor) : Bool := d.commonZero && d.padBit == 0 && d.sid == 0

/-- A descriptor from its words, written most significant first as in R45. -/
def ofWords (w3 w2 w1 w0 : Word) : Descriptor := w3 ++ w2 ++ w1 ++ w0

/-- `W0` from its fields (R46). -/
def word0 (sid : BitVec 8) (pad : BitVec 1) (opc : BitVec 8) : Word := 0#8 ++ sid ++ 0#7 ++ pad ++ opc

end Descriptor

/-- `i` when the bits that must be zero are zero, else the reason of R56. -/
def whenZero (ok : Bool) (i : Instr) : Except Reserved Instr := if ok then .ok i else .error .mustBeZero

/-- The command of a descriptor, or the name of what makes it reserved (R55, R56). The two grounds that depend on the
block's parameters (`SID >= N_ENC`, no `HAS_ENCB`) are `Instr.wellFormed`, tested by the command's meaning. -/
def decodeNamed (d : Descriptor) : Except Reserved Instr :=
  if d.opc = 0x10 then whenZero d.okS (.b64sStart d.sid d.w1 d.w2)
  else if d.opc = 0x11 then whenZero d.okM (.b64sMore d.sid d.w1 d.w2)
  else if d.opc = 0x12 then whenZero d.okF (.b64sFinish d.sid (d.padBit == 1))
  else if d.opc = 0x20 then whenZero d.okB (.b64Dec d.w1 d.w2 d.w3)
  else if d.opc = 0x21 then whenZero d.okB (.b64Encb d.w1 d.w2 d.w3)
  else if d.opc = 0x30 then whenZero d.okX16 (.fxpCvtU16 d.raw16 d.w2 d.w3)
  else if d.opc = 0x31 then whenZero d.okX16 (.fxpCvtS16 d.raw16 d.w2 d.w3)
  else if d.opc = 0x32 then whenZero d.okX32 (.fxpCvtU32 d.w1 d.w2 d.w3)
  else if d.opc = 0x33 then whenZero d.okX32 (.fxpCvtS32 d.w1 d.w2 d.w3)
  else .error .opcode

/-- The decoder without the reason. -/
def decode (d : Descriptor) : Option Instr := (decodeNamed d).toOption

/-- The descriptor of a command (R47, R60). -/
def encode : Instr → Descriptor
  | .b64sStart sid sink ctx => Descriptor.ofWords 0 ctx sink (Descriptor.word0 sid 0 0x10)
  | .b64sMore sid addr len => Descriptor.ofWords 0 len addr (Descriptor.word0 sid 0 0x11)
  | .b64sFinish sid pad => Descriptor.ofWords 0 0 0 (Descriptor.word0 sid (BitVec.ofBool pad) 0x12)
  | .b64Dec inp len out => Descriptor.ofWords out len inp (Descriptor.word0 0 0 0x20)
  | .b64Encb inp len out => Descriptor.ofWords out len inp (Descriptor.word0 0 0 0x21)
  | .fxpCvtU16 raw scale frac => Descriptor.ofWords frac scale (0#16 ++ raw) (Descriptor.word0 0 0 0x30)
  | .fxpCvtS16 raw scale frac => Descriptor.ofWords frac scale (0#16 ++ raw) (Descriptor.word0 0 0 0x31)
  | .fxpCvtU32 raw scale frac => Descriptor.ofWords frac scale raw (Descriptor.word0 0 0 0x32)
  | .fxpCvtS32 raw scale frac => Descriptor.ofWords frac scale raw (Descriptor.word0 0 0 0x33)

/-- A row of the opcode map: `d AND mask = value` selects the command (R55, spec/opcode_table.json). -/
structure OpcodeRow where
  mnemonic : String
  mask : Descriptor
  value : Descriptor
deriving DecidableEq, Repr

/-- The nine rows of spec/opcode_table.json, numbers as the table has them. The decoder does not use them: they are what
it is held against. -/
def opcodeRows : List OpcodeRow :=
  [ ⟨"B64S.START",  0xFFFFFFFF0000000000000000FF00FFFF, 0x10⟩,
    ⟨"B64S.MORE",   0xFFFFFFFF0000000000000000FF00FFFF, 0x11⟩,
    ⟨"B64S.FINISH", 0xFFFFFFFFFFFFFFFFFFFFFFFFFF00FEFF, 0x12⟩,
    ⟨"B64.DEC",     0x000000000000000000000000FFFFFFFF, 0x20⟩,
    ⟨"B64.ENCB",    0x000000000000000000000000FFFFFFFF, 0x21⟩,
    ⟨"FXP.CVT.U16", 0x0000000000000000FFFF0000FFFFFFFF, 0x30⟩,
    ⟨"FXP.CVT.S16", 0x0000000000000000FFFF0000FFFFFFFF, 0x31⟩,
    ⟨"FXP.CVT.U32", 0x000000000000000000000000FFFFFFFF, 0x32⟩,
    ⟨"FXP.CVT.S32", 0x000000000000000000000000FFFFFFFF, 0x33⟩ ]

/-- The row a descriptor matches. -/
def OpcodeRow.selects (r : OpcodeRow) (d : Descriptor) : Bool := d &&& r.mask == r.value

/-- What the host asks of the decoder: the command of the first `nbits` bits, the bits above them zero. A descriptor's
bit 0 is the least significant bit of `W0` (R45), which is the numbering of spec/opcode_table.json. -/
def decodeTableWord (nbits w : Nat) : Option Instr := decode (BitVec.ofNat 128 (w % 2 ^ nbits))

/-! The assembler of R60, at the level of a mnemonic and its operand numbers (notes/assumptions/18.md). -/

/-- An unsigned operand of `n` bits. -/
def asmUnsigned (n : Nat) (x : Int) : Option (BitVec n) :=
  if 0 ≤ x ∧ x < 2 ^ n then some (BitVec.ofInt n x) else none

/-- A signed operand of `n` bits, truncated to its two's-complement form. -/
def asmSigned (n : Nat) (x : Int) : Option (BitVec n) :=
  if -(2 ^ (n - 1)) ≤ x ∧ x < 2 ^ (n - 1) then some (BitVec.ofInt n x) else none

/-- `pad` is 0 or 1. -/
def asmPad (x : Int) : Option Bool := if x = 0 then some false else if x = 1 then some true else none

/-- The command that a mnemonic with three operands stands for, in the operand order of R60. -/
def assemble3 (mn : String) (x y z : Int) : Option Instr :=
  if mn = "B64S.START" then
    return .b64sStart (← asmUnsigned 8 x) (← asmUnsigned 32 y) (← asmUnsigned 32 z)
  else if mn = "B64S.MORE" then
    return .b64sMore (← asmUnsigned 8 x) (← asmUnsigned 32 y) (← asmUnsigned 32 z)
  else if mn = "B64.DEC" then
    return .b64Dec (← asmUnsigned 32 x) (← asmUnsigned 32 y) (← asmUnsigned 32 z)
  else if mn = "B64.ENCB" then
    return .b64Encb (← asmUnsigned 32 x) (← asmUnsigned 32 y) (← asmUnsigned 32 z)
  else if mn = "FXP.CVT.U16" then
    return .fxpCvtU16 (← asmUnsigned 16 x) (← asmUnsigned 32 y) (← asmUnsigned 32 z)
  else if mn = "FXP.CVT.S16" then
    return .fxpCvtS16 (← asmSigned 16 x) (← asmUnsigned 32 y) (← asmUnsigned 32 z)
  else if mn = "FXP.CVT.U32" then
    return .fxpCvtU32 (← asmUnsigned 32 x) (← asmUnsigned 32 y) (← asmUnsigned 32 z)
  else if mn = "FXP.CVT.S32" then
    return .fxpCvtS32 (← asmSigned 32 x) (← asmUnsigned 32 y) (← asmUnsigned 32 z)
  else none

/-- The commands of one assembler line: one for a mnemonic of R60, three for a macro of R61, none for anything else. -/
def assemble (mn : String) (operands : List Int) : Option (List Instr) :=
  match operands with
  | [x, y] =>
    if mn = "B64S.FINISH" then return [.b64sFinish (← asmUnsigned 8 x) (← asmPad y)] else none
  | [x, y, z] => return [← assemble3 mn x y z]
  | [x, y, z, u, v] =>
    if mn = "B64S.ENCODE.PAD" then
      return Instr.encodeStreaming true (← asmUnsigned 8 x) (← asmUnsigned 32 y) (← asmUnsigned 32 z)
        (← asmUnsigned 32 u) (← asmUnsigned 32 v)
    else if mn = "B64S.ENCODE.NOPAD" then
      return Instr.encodeStreaming false (← asmUnsigned 8 x) (← asmUnsigned 32 y) (← asmUnsigned 32 z)
        (← asmUnsigned 32 u) (← asmUnsigned 32 v)
    else none
  | _ => none

end Sys2Proof
end

