-- ==== Sys2Proof/Machine/State.lean ====
section
/-! DEFINITION. The state of the block as plain data, the reasons a step can stop, and the state after reset
(10_state.md R12 to R25; 70_reset_and_hazards.md R150, R166, R167). -/

namespace Sys2Proof.Machine

/-- Buffer memory (R22): the bytes something has written, addresses strictly rising. A byte not listed has no value. -/
abbrev Memory := List Host.Cell

/-- One streaming-encoder session, `S[sid]` (R12 to R17). -/
structure Session where
  /-- `ACTIVE`, 1 bit (R13). -/
  active : Bool
  /-- `CNT`, 2 bits (R14). -/
  cnt : EncState
  /-- `G0` (R15). -/
  g0 : Group
  /-- `G1` (R15). -/
  g1 : Group
  /-- `G2` (R15). -/
  g2 : Group
  /-- `TOTAL`, characters emitted since B64S.START (R16). -/
  total : Word
  /-- `SINK`, the receiver of this session's characters (R17). -/
  sink : Word
  /-- `CTX`, handed to the sink with every character (R17). -/
  ctx : Word
deriving DecidableEq, Repr

/-- One emission, the triple `(sink, ctx, ch)` (R23). -/
structure Emission where
  sink : Word
  ctx : Word
  ch : Byte
deriving DecidableEq, Repr

/-- What the host can do between commands, one constructor per row of the table of R167 (the sink's row is the emission
history). -/
inductive HostEvent where
  /-- Present a descriptor. -/
  | present (d : Descriptor)
  /-- Read RET. -/
  | readRet
  /-- Read FXOUT. -/
  | readFxout
  /-- Write one byte of buffer memory. -/
  | writeByte (addr : Word) (v : Byte)
  /-- Read one byte of buffer memory. -/
  | readByte (addr : Word)
  /-- Reset the block. -/
  | reset
deriving DecidableEq, Repr

/-- What a read gave the host (R167, column "what it gets back"). -/
inductive HostView where
  | ret (v : Word)
  | fxout (v : Word)
  | byte (addr : Word) (v : Byte)
deriving DecidableEq, Repr

/-- The whole machine. -/
structure State where
  /-- `MEM_SIZE`, `HAS_ENCB`, `BLK_FILL` (00_scope.md R5); nothing writes them (R24). -/
  params : Params
  /-- The `N_ENC` sessions, session 0 first (R12); `N_ENC` is the length. -/
  sessions : List Session
  /-- `RET` (R20). -/
  ret : Word
  /-- The model's own: a command has completed since reset, so the host may read RET (R25; notes/assumptions/5.md). -/
  retWritten : Bool
  /-- `FXOUT` (R21). -/
  fxout : Word
  /-- The model's own: a conversion has succeeded since reset, so the host may read FXOUT (R25; notes/assumptions/5.md). -/
  fxoutWritten : Bool
  /-- Buffer memory (R22). -/
  mem : Memory
  /-- The emission history, in order (R23). -/
  emissions : List Emission
  /-- The model's own: the host's interactions still to come (R166, R167; notes/assumptions/7.md). -/
  inputs : List HostEvent
  /-- The model's own: what the host's reads gave it, in order (R167; notes/assumptions/7.md). -/
  views : List HostView
  /-- The model's own: how many free values have been drawn (notes/assumptions/9.md). -/
  free : Nat
deriving DecidableEq, Repr

/-- The machine stops: a read or write that the host interface forbids. All are safe: the model stops where the spec
gives no value or no location. -/
inductive Fault where
  /-- A byte that nothing has written is read, by a command or by the host (70_reset_and_hazards.md R153). Raised by
  B64S.MORE, B64.DEC, B64.ENCB and the host's read. Safe. -/
  | unwrittenByte (addr : Nat)
  /-- The host reads RET before the first completed command (R25, U15). Safe. -/
  | retUnwritten
  /-- The host reads FXOUT before the first successful conversion (R25, U15). Safe. -/
  | fxoutUnwritten
  /-- The host reads or writes at or beyond `MEM_SIZE`, where no location is (R22, R167). Safe. -/
  | noSuchAddress (addr : Nat)
deriving DecidableEq, Repr

/-- The command is given no meaning: the complete list of 60_exceptions.md R138. All are safe: nothing can be proved of a
run that holds a refused command. -/
inductive Refusal where
  /-- An instruction with no meaning in this model. Raised by no arm of `exec`. Safe. -/
  | notModelled (mnemonic : String)
  /-- A reserved descriptor (30_encoding.md R56). Raised by `step`, the B64S.* commands and B64.ENCB. Safe. -/
  | reserved (why : Reserved)
  /-- A buffer range not wholly inside memory (20_memory.md R33). Raised by B64S.MORE, B64.DEC, B64.ENCB. Safe. -/
  | rangeNotAdmitted
  /-- A forbidden overlap (20_memory.md R44). Raised by B64.DEC, B64.ENCB. Safe. -/
  | overlap
  /-- `ACTIVE` is 0 (42_base64_stream.md R100, R104). Raised by B64S.MORE, B64S.FINISH. Safe. -/
  | sessionNotActive
  /-- TOTAL would exceed 2^32 - 1 (42_base64_stream.md R106). Raised by B64S.MORE, B64S.FINISH. Safe. -/
  | totalBound
  /-- `=` at position 1 or 2 of a quartet (41_base64_block.md R91). Raised by B64.DEC. Safe. -/
  | padMisplaced
  /-- The byte count would reach 65535 (41_base64_block.md R92). Raised by B64.DEC. Safe. -/
  | decodeCount
  /-- The character count would exceed 2^32 - 1 (41_base64_block.md R76). Raised by B64.ENCB. Safe. -/
  | encodeCount
deriving DecidableEq, Repr

/-- How a command, or a host interaction, ends. -/
abbrev Result := Host.Outcome State Fault Refusal

/-- A session after reset: ACTIVE is 0 (R25); the other fields are unspecified there and zero here, DESIGN CHOICE
(notes/assumptions/4.md). -/
def Session.reset : Session :=
  { active := false, cnt := .empty, g0 := 0, g1 := 0, g2 := 0, total := 0, sink := 0, ctx := 0 }

/-- The state after reset of a block with `nEnc` sessions and the parameters `p` (R25, R150): no session active, empty
history, memory with nothing listed; RET and FXOUT are unspecified there and zero here, DESIGN CHOICE
(notes/assumptions/4.md). -/
def State.resetOf (nEnc : Nat) (p : Params) : State :=
  { params := p, sessions := List.replicate nEnc Session.reset, ret := 0, retWritten := false, fxout := 0,
    fxoutWritten := false, mem := [], emissions := [], inputs := [], views := [], free := 0 }

/-- The machine right after reset, with the parameters of Config. -/
def State.reset : State := State.resetOf Config.nEnc Config.params

end Sys2Proof.Machine
end

