-- ==== Sys2Proof/Machine/Ops.lean ====
section
/-! DEFINITION. The operations on memory, sessions, result registers and the emission history that every command is
made of, and completing with an error code, the block's counterpart of taking an exception (60_exceptions.md R135, R141). -/

namespace Sys2Proof.Machine

/-! Buffer memory (20_memory.md R31, R32, R34). -/

/-- What a byte that nothing has written reads as: no value (10_state.md R25; notes/assumptions/6.md). -/
def Memory.unlisted : Option Byte := none

/-- `MemRead(addr, 1)`; no value for a byte nothing has written. -/
def Memory.read : Memory → Nat → Option Byte
  | [], _ => Memory.unlisted
  | (k, v) :: rest, a => if a = k then some v else Memory.read rest a

/-- `MemWrite(addr, 1, v)`, keeping the addresses strictly rising. -/
def Memory.write : Memory → Nat → Byte → Memory
  | [], a, b => [(a, b)]
  | (k, v) :: rest, a, b =>
    if a < k then (a, b) :: (k, v) :: rest
    else if a = k then (k, b) :: rest
    else (k, v) :: Memory.write rest a b

/-- The canonical form: addresses strictly rising. (No entry can equal what an unlisted address reads as, which is no
value.) -/
def Memory.wf : Memory → Bool
  | [] => true
  | [_] => true
  | (k, _) :: (k', v') :: rest => k < k' && Memory.wf ((k', v') :: rest)

/-- Read one byte, or fault where nothing has been written (70_reset_and_hazards.md R153). -/
def Memory.readByte (m : Memory) (a : Nat) : Except Fault Byte :=
  match m.read a with
  | some v => .ok v
  | none => .error (.unwrittenByte a)

/-- The bytes at `a, a+1, …, a+n-1`, read in increasing address order. -/
def Memory.readBytes (m : Memory) (a : Nat) : Nat → Except Fault (List Byte)
  | 0 => .ok []
  | n + 1 =>
    match m.readByte a with
    | .error f => .error f
    | .ok v =>
      match Memory.readBytes m (a + 1) n with
      | .error f => .error f
      | .ok vs => .ok (v :: vs)

/-- Write a sequence of bytes at `a, a+1, …`, in increasing address order. -/
def Memory.writeBytes (m : Memory) (a : Nat) : List Byte → Memory
  | [] => m
  | v :: vs => Memory.writeBytes (m.write a v) (a + 1) vs

/-- Give the `n` bytes at `a, a+1, …` free values, drawn from number `c` on (41_base64_block.md R88). -/
def Memory.writeFree (m : Memory) (a c : Nat) : Nat → Memory
  | 0 => m
  | n + 1 => Memory.writeFree (m.write a (Config.freeByte c)) (a + 1) (c + 1) n

/-! Sessions (10_state.md R12). -/

/-- `N_ENC`. -/
def State.nEnc (s : State) : Nat := s.sessions.length

/-- `S[sid]`, if there is such a session. -/
def State.session? (s : State) (sid : BitVec 8) : Option Session := s.sessions[sid.toNat]?

/-- Replace `S[sid]`. -/
def State.setSession (s : State) (sid : BitVec 8) (x : Session) : State :=
  { s with sessions := s.sessions.set sid.toNat x }

/-! Result registers (10_state.md R20, R21). -/

/-- `RET <- v`, which every completed command does once, as its last effect. -/
def State.complete (s : State) (v : Word) : State := { s with ret := v, retWritten := true }

/-- `FXOUT <- v`. -/
def State.setFxout (s : State) (v : Word) : State := { s with fxout := v, fxoutWritten := true }

/-- Complete with an error code: RET holds it, nothing else is saved, and control goes nowhere (60_exceptions.md R135,
R141). There is no return from it (R142). -/
def State.failWith (s : State) (code : Word) : State := s.complete code

/-! Memory and history in the state. -/

/-- Replace buffer memory. -/
def State.setMem (s : State) (m : Memory) : State := { s with mem := m }

/-- `Emit` of each character of `cs` in order, to the sink of the session `x` (42_base64_stream.md R97, R98). -/
def State.emit (s : State) (x : Session) (cs : List Byte) : State :=
  { s with emissions := s.emissions ++ cs.map (fun c => { sink := x.sink, ctx := x.ctx, ch := c }) }

/-- Draw `n` free values. -/
def State.draw (s : State) (n : Nat) : State := { s with free := s.free + n }

/-- Record what a host's read gave it (70_reset_and_hazards.md R167). -/
def State.observe (s : State) (v : HostView) : State := { s with views := s.views ++ [v] }

end Sys2Proof.Machine
end

