-- ==== Sys2Proof/Machine/Operands.lean ====
section
/-! DEFINITION. Operand forms: buffer ranges with their admission and overlap, the lengths the codecs need, and the
widening of raw samples (20_memory.md R33, R44; 30_encoding.md R48 to R54; 41_base64_block.md R79, R84). -/

namespace Sys2Proof.Machine

/-- Range admission (R33), over integers: `N = 0`, or `A + N <= MEM_SIZE`. -/
def admitted (memSize a n : Nat) : Bool := n == 0 || decide (a + n ≤ memSize)

/-- Two ranges overlap when both are non-empty and share at least one address (R44). -/
def overlaps (a n b m : Nat) : Bool := n != 0 && m != 0 && decide (a < b + m) && decide (b < a + n)

/-- `4 * ceil(len / 3)`, the length of the block encoder's output (41_base64_block.md R79). -/
def encLen (n : Nat) : Nat := 4 * ((n + 2) / 3)

/-- `DECMAX(len)`, the most bytes a text of `len` characters can yield (41_base64_block.md R84). -/
def decMax (n : Nat) : Nat :=
  3 * (n / 4) + (if n % 4 = 2 then 1 else if n % 4 = 3 then 2 else 0)

/-- The only overlaps B64.DEC admits are none and `OUT = IN` (R44). -/
def decOverlapForbidden (inp len out : Nat) : Bool := out != inp && overlaps inp len out (decMax len)

/-- B64.ENCB admits no overlap (R44). -/
def encOverlapForbidden (inp len out : Nat) : Bool := overlaps inp len out (encLen len)

/-- The unsigned 16-bit sample, zero-extended (43_fixed_point.md R121). -/
def rawU16 (raw : BitVec 16) : Word := raw.zeroExtend 32

/-- The signed 16-bit sample, sign-extended (43_fixed_point.md R122). -/
def rawS16 (raw : BitVec 16) : Word := raw.signExtend 32

end Sys2Proof.Machine
end

