-- ==== Sys2Proof/Machine/Flags.lean ====
section
/-! DEFINITION. The status the commands compute: the ACTIVE flag, the count of buffered groups, the TOTAL bound, and the
codes a command reports in RET. The block has no flags, condition codes or sticky bits beside ACTIVE (10_state.md R24). -/

namespace Sys2Proof

/-- CNT as a number (10_state.md R14). -/
def EncState.count : EncState → Nat
  | .empty => 0
  | .one => 1
  | .two => 2

/-- CNT as its two bits (10_state.md R14). -/
def EncState.bits (c : EncState) : BitVec 2 := BitVec.ofNat 2 c.count

namespace Machine

/-- The largest value TOTAL and RET can hold. -/
def maxWord : Nat := 2 ^ 32 - 1

/-- The characters a B64S.MORE of `len` bytes will emit, `4 * floor((CNT + len) / 3)` (42_base64_stream.md R102). -/
def Session.moreCount (x : Session) (len : Nat) : Nat := 4 * ((x.cnt.count + len) / 3)

/-- The characters a B64S.FINISH will emit, `f` of 42_base64_stream.md R105. -/
def Session.flushCount (x : Session) (pad : Bool) : Nat :=
  match x.cnt with
  | .empty => 0
  | .one => if pad then 4 else 2
  | .two => if pad then 4 else 3

/-- The TOTAL bound of 42_base64_stream.md R106: `n` more characters keep TOTAL at most 2^32 - 1. -/
def Session.totalFits (x : Session) (n : Nat) : Bool := x.total.toNat + n ≤ maxWord

/-- The decoder's 16-bit error sentinel (41_base64_block.md R83). -/
def DEC_ERR : BitVec 16 := 0xFFFF

/-- The sentinel in RET, zero-extended (41_base64_block.md R83). -/
def decErr : Word := DEC_ERR.zeroExtend 32

/-- The count the decoder may not reach (41_base64_block.md R92). -/
def decCountLimit : Nat := 65535

/-! The converter's status codes (43_fixed_point.md R125). -/

def FX_OK : Word := 0
def FX_ERR_FRAC : Word := 1
def FX_ERR_OVF : Word := 2

/-- The converter's two failures (43_fixed_point.md R118). -/
inductive FxFailure where
  | fracBitsOutOfRange
  | magnitudeOverflow
deriving DecidableEq, Repr

/-- The code of a failure (R125, R136). -/
def FxFailure.code : FxFailure → Word
  | .fracBitsOutOfRange => FX_ERR_FRAC
  | .magnitudeOverflow => FX_ERR_OVF

end Machine
end Sys2Proof
end

