-- ==== Sys2Proof/Machine/Block.lean ====
section
/-! DEFINITION. Base64 block mode: B64.DEC and B64.ENCB (41_base64_block.md R75 to R94). -/

namespace Sys2Proof.Machine

/-! B64.ENCB. -/

/-- The text the block encoder writes for a byte sequence: full groups by R77, the tail by R78. -/
def encodeBlock (fill : Byte) : List Byte → List Byte
  | b0 :: b1 :: b2 :: rest => quantum b0 b1 b2 ++ encodeBlock fill rest
  | [b0, b1] => [enc6 (group0 b0), enc6 (group1 b0 b1), enc6 (partial2 b1), fill]
  | [b0] => [enc6 (group0 b0), enc6 (partial1 b0), fill, fill]
  | [] => []

/-- B64.ENCB (R76), its refusals in the order of 30_encoding.md R59, the bound on RET last (notes/assumptions/16.md); the input
is read before the output is written (notes/assumptions/15.md). -/
def execB64Encb (inp len out : Word) (s : State) : Result :=
  if !s.params.hasEncb then .refused (.reserved .noEncb)
  else if !admitted s.params.memSize inp.toNat len.toNat then .refused .rangeNotAdmitted
  else if !admitted s.params.memSize out.toNat (encLen len.toNat) then .refused .rangeNotAdmitted
  else if encOverlapForbidden inp.toNat len.toNat out.toNat then .refused .overlap
  else if maxWord < encLen len.toNat then .refused .encodeCount
  else
    match s.mem.readBytes inp.toNat len.toNat with
    | .error f => .fault f
    | .ok bs =>
      let text := encodeBlock s.params.blkFill bs
      .next ((s.setMem (s.mem.writeBytes out.toNat text)).complete (BitVec.ofNat 32 text.length))

/-! B64.DEC. The scan of R82 reads a pair, judges it, and writes before it reads on, so that it decodes in place. -/

/-- How a quartet, or the whole scan, ends. -/
inductive DecEnd where
  /-- The quartet was full: `o` bytes so far, memory `m`, go on. -/
  | more (o : Nat) (m : Memory)
  /-- The scan succeeds with `o` bytes. -/
  | done (o : Nat) (m : Memory)
  /-- `fail` (R88). -/
  | fail
  /-- `refuse`. -/
  | refuse (r : Refusal)
  /-- A character that nothing has written (70_reset_and_hazards.md R153). -/
  | fault (f : Fault)
deriving DecidableEq, Repr

/-- Read both characters of a pair, before either is judged (R82, R86; notes/assumptions/19.md). -/
def readPair (m : Memory) (a : Nat) : Except Fault (Byte × Byte) :=
  match m.readByte a with
  | .error f => .error f
  | .ok x =>
    match m.readByte (a + 1) with
    | .error f => .error f
    | .ok y => .ok (x, y)

/-- Write output byte number `o`, unless the count would reach 65535 (R92), and go on. -/
def decPut (out o : Nat) (v : Byte) (m : Memory) (k : Nat → Memory → DecEnd) : DecEnd :=
  if o + 1 < decCountLimit then k (o + 1) (m.write (out + o) v) else .refuse .decodeCount

/-- The second pair of a quartet, at `p` (R82): positions 3 and 4, `c1` the group of position 2. -/
def decSecondPair (p out o : Nat) (c1 : Group) (m : Memory) : DecEnd :=
  match readPair m p with
  | .error f => .fault f
  | .ok (c, d) =>
    match classify c with
    | .pad => .done o m
    | .foreign => .fail
    | .symbol c2 =>
      decPut out o (byte1 c1 c2) m fun o m =>
        match classify d with
        | .pad => .done o m
        | .foreign => .fail
        | .symbol c3 => decPut out o (byte2 c2 c3) m fun o m => .more o m

/-- One turn of the scan of R82, `rem` characters left at `p`. -/
def decQuartet (p rem out o : Nat) (m : Memory) : DecEnd :=
  if rem = 0 then .done o m
  else
    match readPair m p with
    | .error f => .fault f
    | .ok (a, b) =>
      match classify a with
      | .pad => .refuse .padMisplaced
      | .foreign => .fail
      | .symbol c0 =>
        match classify b with
        | .pad => .refuse .padMisplaced
        | .foreign => .fail
        | .symbol c1 =>
          decPut out o (byte0 c0 c1) m fun o m =>
            if rem = 2 then .done o m else decSecondPair (p + 2) out o c1 m

/-- The scan of R82; `fuel` bounds the quartets, and `rem` turns are more than enough. -/
def decScan : Nat → Nat → Nat → Nat → Nat → Memory → DecEnd
  | 0, _, _, _, o, m => .done o m
  | fuel + 1, p, rem, out, o, m =>
    match decQuartet p rem out o m with
    | .more o' m' => decScan fuel (p + 4) (rem - 4) out o' m'
    | e => e

/-- The effect of `fail` (R88): RET is the sentinel, every byte of the output range is a free value. -/
def State.decodeFailed (s : State) (out n : Nat) : State :=
  ((s.setMem (s.mem.writeFree out s.free n)).draw n).failWith decErr

/-- B64.DEC (R82), its refusals in the order of 30_encoding.md R59, odd length before the scan (R87). -/
def execB64Dec (inp len out : Word) (s : State) : Result :=
  if !admitted s.params.memSize inp.toNat len.toNat then .refused .rangeNotAdmitted
  else if !admitted s.params.memSize out.toNat (decMax len.toNat) then .refused .rangeNotAdmitted
  else if decOverlapForbidden inp.toNat len.toNat out.toNat then .refused .overlap
  else if len.toNat % 2 = 1 then .next (s.decodeFailed out.toNat (decMax len.toNat))
  else
    match decScan (len.toNat / 4 + 1) inp.toNat len.toNat out.toNat 0 s.mem with
    | .more o m => .next ((s.setMem m).complete (BitVec.ofNat 32 o))
    | .done o m => .next ((s.setMem m).complete (BitVec.ofNat 32 o))
    | .fail => .next (s.decodeFailed out.toNat (decMax len.toNat))
    | .refuse r => .refused r
    | .fault f => .fault f

end Sys2Proof.Machine
end

