-- ==== Sys2Proof/Machine/FixedPoint.lean ====
section
/-! DEFINITION. The fixed-point converter: FXP.CVT.U16, FXP.CVT.S16, FXP.CVT.U32, FXP.CVT.S32 (43_fixed_point.md R115
to R128). -/

namespace Sys2Proof.Machine

/-- The value of FXCORE and FXSIGNED: a 32-bit result or a failure (R116). -/
inductive FxValue where
  | ok (r : Word)
  | failed (e : FxFailure)
deriving DecidableEq, Repr

/-- The shift amount `31 - frac` (R116). -/
def fxShift (frac : Word) : Nat := 31 - frac.toNat

/-- The product, at 64 bits (R116). -/
def fxWide (raw scale : Word) : Wide := raw.zeroExtend 64 * scale.zeroExtend 64

/-- The rounded and shifted product `q`, at 64 bits (R116, R117). -/
def fxQuotient (raw scale frac : Word) : Wide :=
  (fxWide raw scale + BitVec.ofNat 64 (2 ^ fxShift frac - 1)) >>> fxShift frac

/-- `FXCORE(raw, scale, frac)` (R116). -/
def fxCore (raw scale frac : Word) : FxValue :=
  if 31 < frac.toNat then .failed .fracBitsOutOfRange
  else if 0xFFFFFFFF < (fxQuotient raw scale frac).toNat then .failed .magnitudeOverflow
  else .ok ((fxQuotient raw scale frac).setWidth 32)

/-- Two's-complement negation, `trunc_32(~x + 1)` (R120). -/
def fxNegate (x : Word) : Word := ~~~x + 1

/-- The magnitude of a signed sample as an unsigned word (R120). -/
def fxMagnitude (u : Word) : Word := if u.getLsbD 31 then fxNegate u else u

/-- `FXSIGNED(x, scale, frac)`, `u` the two's-complement bits of `x` (R120). -/
def fxSigned (u scale frac : Word) : FxValue :=
  match fxCore (fxMagnitude u) scale frac with
  | .failed e => .failed e
  | .ok r => .ok (if u.getLsbD 31 then fxNegate r else r)

/-- The shared report of the four commands (R121, R125): FXOUT on success only, RET always. -/
def State.convert (s : State) : FxValue → State
  | .ok r => (s.setFxout r).complete FX_OK
  | .failed e => s.failWith e.code

/-- FXP.CVT.U16 (R121). -/
def execFxpCvtU16 (raw : BitVec 16) (scale frac : Word) (s : State) : Result :=
  .next (s.convert (fxCore (rawU16 raw) scale frac))

/-- FXP.CVT.S16 (R122). -/
def execFxpCvtS16 (raw : BitVec 16) (scale frac : Word) (s : State) : Result :=
  .next (s.convert (fxSigned (rawS16 raw) scale frac))

/-- FXP.CVT.U32 (R123). -/
def execFxpCvtU32 (raw scale frac : Word) (s : State) : Result :=
  .next (s.convert (fxCore raw scale frac))

/-- FXP.CVT.S32 (R124). -/
def execFxpCvtS32 (raw scale frac : Word) (s : State) : Result :=
  .next (s.convert (fxSigned raw scale frac))

end Sys2Proof.Machine
end

