-- ==== Sys2Proof/Machine/Stream.lean ====
section
/-! DEFINITION. The streaming Base64 encoder: B64S.START, B64S.MORE, B64S.FINISH (42_base64_stream.md R95 to R108). -/

namespace Sys2Proof.Machine

/-- `STEP(sid, b)`: one transition of the byte step, and the characters it emits (R101). -/
def Session.byteStep (x : Session) (b : Byte) : Session × List Byte :=
  match x.cnt with
  | .empty => ({ x with g0 := group0 b, g1 := partial1 b, cnt := .one }, [])
  | .one => ({ x with g1 := complete1 x.g1 b, g2 := partial2 b, cnt := .two }, [])
  | .two => ({ x with cnt := .empty, total := x.total + 4 },
      [enc6 x.g0, enc6 x.g1, enc6 (complete2 x.g2 b), enc6 (group3 b)])

/-- The byte steps of a sequence, in order, and all the characters they emit (R100). -/
def Session.feed (x : Session) : List Byte → Session × List Byte
  | [] => (x, [])
  | b :: bs =>
    let (x', cs) := x.byteStep b
    let (x'', cs') := Session.feed x' bs
    (x'', cs ++ cs')

/-- The characters of the flush (R105). -/
def Session.flush (x : Session) (pad : Bool) : List Byte :=
  match x.cnt with
  | .empty => []
  | .one => [enc6 x.g0, enc6 x.g1] ++ (if pad then [PAD, PAD] else [])
  | .two => [enc6 x.g0, enc6 x.g1, enc6 x.g2] ++ (if pad then [PAD] else [])

/-- The session after B64S.START (R99): G0 to G2 are not written. -/
def Session.started (x : Session) (sink ctx : Word) : Session :=
  { x with active := true, cnt := .empty, total := 0, sink := sink, ctx := ctx }

/-- The session after B64S.FINISH (R105; 10_state.md R19): CNT and G0 to G2 are free values from number `c` on. -/
def Session.finished (x : Session) (pad : Bool) (c : Nat) : Session :=
  { x with
    active := false
    total := x.total + BitVec.ofNat 32 (x.flushCount pad)
    cnt := Config.freeCnt c
    g0 := Config.freeGroup c
    g1 := Config.freeGroup (c + 1)
    g2 := Config.freeGroup (c + 2) }

/-- B64S.START (R99). -/
def execB64sStart (sid : BitVec 8) (sink ctx : Word) (s : State) : Result :=
  match s.session? sid with
  | none => .refused (.reserved .session)
  | some x => .next ((s.setSession sid (x.started sink ctx)).complete 0)

/-- B64S.MORE (R100), its refusals in the order of 30_encoding.md R59 (notes/assumptions/16.md); the input is read before
anything is emitted (R103; notes/assumptions/15.md). -/
def execB64sMore (sid : BitVec 8) (addr len : Word) (s : State) : Result :=
  match s.session? sid with
  | none => .refused (.reserved .session)
  | some x =>
    if !admitted s.params.memSize addr.toNat len.toNat then .refused .rangeNotAdmitted
    else if !x.active then .refused .sessionNotActive
    else if !x.totalFits (x.moreCount len.toNat) then .refused .totalBound
    else
      match s.mem.readBytes addr.toNat len.toNat with
      | .error f => .fault f
      | .ok bs =>
        let (x', cs) := x.feed bs
        .next (((s.setSession sid x').emit x cs).complete (BitVec.ofNat 32 cs.length))

/-- B64S.FINISH (R104, R105), its refusals in the order of 30_encoding.md R59. -/
def execB64sFinish (sid : BitVec 8) (pad : Bool) (s : State) : Result :=
  match s.session? sid with
  | none => .refused (.reserved .session)
  | some x =>
    if !x.active then .refused .sessionNotActive
    else if !x.totalFits (x.flushCount pad) then .refused .totalBound
    else
      let x' := x.finished pad s.free
      .next ((((s.setSession sid x').emit x (x.flush pad)).draw 3).complete x'.total)

end Sys2Proof.Machine
end

