-- ==== Sys2Proof/Machine/Dispatch.lean ====
section
/-! DEFINITION. One arm per command (30_encoding.md R55). -/

namespace Sys2Proof.Machine

def exec (i : Instr) (s : State) : Host.Outcome State Fault Refusal :=
  match i with
  | .b64sStart sid sink ctx => Sys2Proof.Machine.execB64sStart sid sink ctx s
  | .b64sMore sid addr len => Sys2Proof.Machine.execB64sMore sid addr len s
  | .b64sFinish sid pad => Sys2Proof.Machine.execB64sFinish sid pad s
  | .b64Dec inp len out => Sys2Proof.Machine.execB64Dec inp len out s
  | .b64Encb inp len out => Sys2Proof.Machine.execB64Encb inp len out s
  | .fxpCvtU16 raw scale frac => Sys2Proof.Machine.execFxpCvtU16 raw scale frac s
  | .fxpCvtS16 raw scale frac => Sys2Proof.Machine.execFxpCvtS16 raw scale frac s
  | .fxpCvtU32 raw scale frac => Sys2Proof.Machine.execFxpCvtU32 raw scale frac s
  | .fxpCvtS32 raw scale frac => Sys2Proof.Machine.execFxpCvtS32 raw scale frac s

end Sys2Proof.Machine
end

