-- ==== Sys2Proof/Machine/Port.lean ====
section
/-! DEFINITION. What the host does between commands other than presenting a descriptor (70_reset_and_hazards.md R167;
10_state.md R25). -/

namespace Sys2Proof.Machine

/-- The host reads RET (R167). Before the first completed command it is unspecified and the read "is a fault of the model's
host interface" (10_state.md R25; 93_implementation_defined.md U15; notes/assumptions/5.md). -/
def hostReadRet (s : State) : Result :=
  if s.retWritten then .next (s.observe (.ret s.ret)) else .fault .retUnwritten

/-- The host reads FXOUT (R167). Before the first successful conversion it is unspecified and the read "is a fault of the
model's host interface" (10_state.md R25; 93_implementation_defined.md U15; notes/assumptions/5.md). -/
def hostReadFxout (s : State) : Result :=
  if s.fxoutWritten then .next (s.observe (.fxout s.fxout)) else .fault .fxoutUnwritten

/-- The host writes one byte of buffer memory, at an address below `MEM_SIZE`. -/
def hostWriteByte (addr : Word) (v : Byte) (s : State) : Result :=
  if addr.toNat < s.params.memSize then .next (s.setMem (s.mem.write addr.toNat v))
  else .fault (.noSuchAddress addr.toNat)

/-- The host reads one byte of buffer memory, at an address below `MEM_SIZE` that something has written. -/
def hostReadByte (addr : Word) (s : State) : Result :=
  if addr.toNat < s.params.memSize then
    match s.mem.readByte addr.toNat with
    | .ok v => .next (s.observe (.byte addr v))
    | .error f => .fault f
  else .fault (.noSuchAddress addr.toNat)

/-- The host resets the block (R25, R150). The block's parameters, the host's list and its record of reads, and the
numbering of free values are not state of the block and stay (notes/assumptions/11.md). -/
def hostReset (s : State) : Result :=
  .next { State.resetOf s.nEnc s.params with inputs := s.inputs, views := s.views, free := s.free }

/-- The next descriptor the host presents, where the next step fetches its command. -/
def State.presentNext (s : State) (d : Descriptor) : State := { s with inputs := .present d :: s.inputs }

end Sys2Proof.Machine
end

