-- ==== Sys2Proof/Machine/Step.lean ====
section
/-! DEFINITION. One step: the block takes the host's next interaction (00_scope.md R6; 70_reset_and_hazards.md R166, R167).
There is no program counter and nothing is fetched from memory (10_state.md R11; 20_memory.md R42). -/

namespace Sys2Proof.Machine

/-- A presented descriptor: reserved, or executed (30_encoding.md R59). -/
def stepCommand (d : Descriptor) (s : State) : Host.Outcome State Fault Refusal :=
  match decodeNamed d with
  | .error why => .refused (.reserved why)
  | .ok i => exec i s

/-- One step. With nothing presented the block waits (70_reset_and_hazards.md R151). -/
def step (s : State) : Host.Outcome State Fault Refusal :=
  match s.inputs with
  | [] => .next s
  | .present d :: rest => stepCommand d { s with inputs := rest }
  | .readRet :: rest => hostReadRet { s with inputs := rest }
  | .readFxout :: rest => hostReadFxout { s with inputs := rest }
  | .writeByte addr v :: rest => hostWriteByte addr v { s with inputs := rest }
  | .readByte addr :: rest => hostReadByte addr { s with inputs := rest }
  | .reset :: rest => hostReset { s with inputs := rest }

/-- The descriptor of the first `nbits` bits of `w` presented as the host's next interaction, which is where `step` takes
its command from; nothing else changes. -/
def State.withFetchWord (s : State) (nbits w : Nat) : State := s.presentNext (BitVec.ofNat 128 (w % 2 ^ nbits))

end Sys2Proof.Machine
end

