-- ==== Sys2Proof/Safety.lean ====
section
/-! DEFINITION. What a sound state is, and the reference functions statements are made with: the standard padded Base64
text by its bit string (42_base64_stream.md R107), the decoder's four-state table (41_base64_block.md R93), the bytes a
session holds back, and lists of commands. The machine calls none of them. -/

namespace Sys2Proof.Machine

/-! The invariant. -/

/-- A session at a command boundary while ACTIVE = 1 (10_state.md R15, R18): TOTAL is a multiple of 4 and the missing low
bits of the partial group are zero. (CNT is 0, 1 or 2 by its type.) -/
structure Session.Inv (x : Session) : Prop where
  total_mult : x.active = true → x.total.toNat % 4 = 0
  partial_one : x.active = true → x.cnt = .one → x.g1.extractLsb' 0 4 = 0
  partial_two : x.active = true → x.cnt = .two → x.g2.extractLsb' 0 2 = 0

/-- A sound state. -/
structure State.Inv (s : State) : Prop where
  /-- `MEM_SIZE` at most 2^32 and a legal filler (00_scope.md R5, 41_base64_block.md R78). -/
  params_legal : s.params.legal = true
  /-- `N_ENC` is 1 to 256 (00_scope.md R5). -/
  sessions_some : 1 ≤ s.nEnc
  sessions_max : s.nEnc ≤ 256
  /-- Memory keeps its canonical form and lists only locations that exist (10_state.md R22). -/
  mem_wf : s.mem.wf = true
  mem_inside : ∀ c ∈ s.mem, c.1 < s.params.memSize
  /-- Every session is sound. -/
  sessions_inv : ∀ x ∈ s.sessions, x.Inv
  /-- Every emitted character is `=` or an alphabet character (42_base64_stream.md R97). -/
  emissions_text : ∀ e ∈ s.emissions, e.ch = PAD ∨ ∃ v, e.ch = enc6 v
  /-- A conversion that succeeded is a command that completed (10_state.md R25). -/
  written : s.fxoutWritten = true → s.retWritten = true

/-! Reading sequences. -/

/-- Memory holds the sequence `bs` at `a, a+1, …` (20_memory.md R34). -/
def Memory.holds (m : Memory) (a : Nat) (bs : List Byte) : Prop :=
  ∀ k, k < bs.length → m.read (a + k) = bs[k]?

/-- Every byte outside the `n` locations at `a` reads in `m'` as in `m`. -/
def Memory.sameOutside (m m' : Memory) (a n : Nat) : Prop :=
  ∀ b, b < a ∨ a + n ≤ b → m'.read b = m.read b

/-! Standard padded Base64 (R107, K4). -/

/-- A byte sequence as one bit string, each byte most significant bit first. -/
def bitString (bs : List Byte) : List Bool :=
  bs.flatMap fun b => (List.range 8).map fun i => b.getMsbD i

/-- The number of a list of bits, the first the most significant. -/
def bitsValue (l : List Bool) : Nat := l.foldl (fun acc b => 2 * acc + b.toNat) 0

/-- Character `j`: `ENC6` of the six bits at offsets `6j` to `6j + 5`, zero bits appended at the end. -/
def stdChar (bits : List Bool) (j : Nat) : Byte :=
  enc6 (BitVec.ofNat 6 (bitsValue ((List.range 6).map fun i => bits.getD (6 * j + i) false)))

/-- The text without `=`: `ceil(8n / 6)` characters. -/
def stdUnpadded (bs : List Byte) : List Byte :=
  (List.range ((8 * bs.length + 5) / 6)).map (stdChar (bitString bs))

/-- How many `=` bring the length to a multiple of 4. -/
def stdPadCount (n : Nat) : Nat := (4 - (8 * n + 5) / 6 % 4) % 4

/-- Standard padded Base64. -/
def stdBase64 (bs : List Byte) : List Byte := stdUnpadded bs ++ List.replicate (stdPadCount bs.length) PAD

/-- The text a session emits for `bs` (R107): padded, or with the trailing `=` stripped. -/
def streamText (pad : Bool) (bs : List Byte) : List Byte := if pad then stdBase64 bs else stdUnpadded bs

/-! The bytes a session has accepted and not yet emitted characters for (10_state.md R15, by 40_base64_alphabet.md R73). -/

/-- The pending raw bytes. -/
def Session.pending (x : Session) : List Byte :=
  match x.cnt with
  | .empty => []
  | .one => [byte0 x.g0 x.g1]
  | .two => [byte0 x.g0 x.g1, byte1 x.g1 x.g2]

/-! The decoder's four-state table (R93). -/

/-- The states of the table; the groups held are the pipeline registers. -/
inductive TableState where
  | needFirst
  | haveFirst (c0 : Group)
  | haveSecond (c1 : Group)
  | haveThird (c2 : Group)
deriving DecidableEq, Repr

/-- How the table ends: success with the bytes written, failure, or refusal. -/
inductive TableEnd where
  | succeed (bytes : List Byte)
  | fail
  | refuse
deriving DecidableEq, Repr

/-- A byte written before the rest of the scan. -/
def TableEnd.after (b : Byte) : TableEnd → TableEnd
  | .succeed bs => .succeed (b :: bs)
  | .fail => .fail
  | .refuse => .refuse

/-- The table of R93, one character a transition. -/
def tableScan : TableState → List Byte → TableEnd
  | .needFirst, [] => .succeed []
  | .needFirst, a :: t =>
    match classify a with
    | .pad => .refuse
    | .foreign => .fail
    | .symbol c0 => tableScan (.haveFirst c0) t
  | .haveFirst _, [] => .fail
  | .haveFirst c0, b :: t =>
    match classify b with
    | .pad => .refuse
    | .foreign => .fail
    | .symbol c1 => (tableScan (.haveSecond c1) t).after (byte0 c0 c1)
  | .haveSecond _, [] => .succeed []
  | .haveSecond c1, c :: t =>
    match classify c with
    | .pad => .succeed []
    | .foreign => .fail
    | .symbol c2 => (tableScan (.haveThird c2) t).after (byte1 c1 c2)
  | .haveThird _, [] => .fail
  | .haveThird c2, d :: t =>
    match classify d with
    | .pad => .succeed []
    | .foreign => .fail
    | .symbol c3 => (tableScan .needFirst t).after (byte2 c2 c3)

/-- Byte `j` of the bytes that the groups `g 0, g 1, …` encode (40_base64_alphabet.md R73). -/
def groupByte (g : Nat → Group) (j : Nat) : Byte :=
  if j % 3 = 0 then byte0 (g (4 * (j / 3))) (g (4 * (j / 3) + 1))
  else if j % 3 = 1 then byte1 (g (4 * (j / 3) + 1)) (g (4 * (j / 3) + 2))
  else byte2 (g (4 * (j / 3) + 2)) (g (4 * (j / 3) + 3))

/-- The `n` characters at `a` are the alphabet characters of the groups `g 0, g 1, …`. -/
def Memory.groupsAt (m : Memory) (a n : Nat) (g : Nat → Group) : Prop :=
  ∀ k, k < n → m.read (a + k) = some (enc6 (g k))

/-! Lists of commands (70_reset_and_hazards.md R166). -/

/-- Execute commands in order, stopping at the first fault or refusal. -/
def runCommands : List Instr → State → Result
  | [], s => .next s
  | i :: is, s =>
    match exec i s with
    | .next s' => runCommands is s'
    | .fault f => .fault f
    | .refused r => .refused r

/-- One B64S.MORE for each piece, a start address and the bytes there. -/
def morePieces (sid : BitVec 8) (pieces : List (Word × List Byte)) : List Instr :=
  pieces.map fun p => .b64sMore sid p.1 (BitVec.ofNat 32 p.2.length)

/-! The converter's result over rational numbers (43_fixed_point.md R115, R117). -/

/-- `ceil(raw * scale / 2^(31 - frac))`, the result before the overflow test; `raw` a magnitude. -/
def fxExact (raw scale frac : Nat) : Nat := ⌈(raw * scale : ℚ) / 2 ^ (31 - frac)⌉₊

end Sys2Proof.Machine
end

