-- ==== Sys2Proof/Certificates/Slice0/Obligations.lean ====
section
/-! DEFINITION. The statements for the provers, one `def Obligations.<Name> : Prop` each. A docstring names the rules of
spec/ it formalises and, where one of them is the spec's own decision (D<n> of 92_eei_decisions.md) or the model's own choice
(notes/assumptions/<n>.md), says so. -/

open Sys2Proof Sys2Proof.Machine

/-! ## Encoding and the step -/

/-- Sanity: descriptors written out from 30_encoding.md R46, R47 and R60 (95_test_vectors.md Q1 to Q16) decode to the
commands they stand for, the assembler gives those descriptors, and the reserved ones are rejected. The encoding is the
spec's decision D2. -/
def Obligations.WrittenOutWordsDecode : Prop :=
  decodeNamed 0x000000000000C0DE0000000100000010 = .ok (.b64sStart 0 1 0xC0DE) ∧
  decodeNamed 0x00000000FFFFFFFFFFFFFFFF00FF0010 = .ok (.b64sStart 255 0xFFFFFFFF 0xFFFFFFFF) ∧
  decodeNamed 0x000000000000000B0000020500000011 = .ok (.b64sMore 0 0x205 11) ∧
  decodeNamed 0x00000000000000000000000000000112 = .ok (.b64sFinish 0 true) ∧
  decodeNamed 0x00000000000000000000000000030012 = .ok (.b64sFinish 3 false) ∧
  decodeNamed 0x00000300000000180000030000000020 = .ok (.b64Dec 0x300 24 0x300) ∧
  decodeNamed 0x00000600000000040000010000000021 = .ok (.b64Encb 0x100 4 0x600) ∧
  decodeNamed 0x0000001FFFFFFFFF0000FFFF00000030 = .ok (.fxpCvtU16 0xFFFF 0xFFFFFFFF 31) ∧
  decodeNamed 0x00000000400000000000FFFE00000031 = .ok (.fxpCvtS16 0xFFFE 0x40000000 0) ∧
  decodeNamed 0x00000020FFFFFFFFFFFFFFFF00000032 = .ok (.fxpCvtU32 0xFFFFFFFF 0xFFFFFFFF 32) ∧
  decodeNamed 0x00000000400000008000000000000033 = .ok (.fxpCvtS32 0x80000000 0x40000000 0) ∧
  assemble "FXP.CVT.S16" [-2, 0x40000000, 0] = some [.fxpCvtS16 0xFFFE 0x40000000 0] ∧
  (assemble "B64S.ENCODE.PAD" [0, 1, 2, 3, 4]).map (fun is => is.map encode) =
    some [0x00000000000000020000000100000010, 0x00000000000000040000000300000011, 0x00000000000000000000000000000112] ∧
  decodeNamed 0x00000000000000000000000000000000 = .error .opcode ∧
  decodeNamed 0x00000000000000000000000000000110 = .error .mustBeZero ∧
  decodeNamed 0x00000001000000000000000000000012 = .error .mustBeZero ∧
  decodeNamed 0x00000000400000000001FFFE00000031 = .error .mustBeZero ∧
  decodeNamed 0x00000000000000000000000000010020 = .error .mustBeZero ∧
  decodeNamed 0x00000000000000000000000000000013 = .error .opcode ∧
  decodeNamed 0x00000000000000000000000001000012 = .error .mustBeZero

/-- Decoding the descriptor of any command gives the command back, every operand at every value (30_encoding.md R46 to
R54; the encoding is the spec's decision D2). -/
def Obligations.DecodeOfEncodeIsTheCommand : Prop :=
  ∀ i : Instr, decodeNamed (encode i) = .ok i

/-- Every command has one descriptor only: what decodes to it is its encoding, so no bit of an accepted descriptor is
ignored (30_encoding.md R46, R47, R57, R58; decision D2). -/
def Obligations.EncodeOfDecodeIsTheDescriptor : Prop :=
  ∀ (d : Descriptor) (i : Instr), decodeNamed d = .ok i → encode i = d

/-- The decoder is the opcode map: a descriptor decodes to the command of the one row with `d AND mask = match`, and to
none where no row matches (30_encoding.md R55; decision D2). -/
def Obligations.DecoderMatchesOpcodeMap : Prop :=
  ∀ d : Descriptor,
    (decode d).map Instr.mnemonic = (opcodeRows.find? fun r => r.selects d).map OpcodeRow.mnemonic ∧
    (opcodeRows.filter fun r => r.selects d).length ≤ 1

/-- A step runs the decoded command: a presented descriptor that decodes to `i` makes the step `exec i`, on the state with
that presentation taken from the host's list and nothing else changed (30_encoding.md R45, R59). The host's list is the
model's own (notes/assumptions/7.md); `withFetchWord` is one such presentation. -/
def Obligations.StepRunsTheDecodedCommand : Prop :=
  (∀ (s : State) (d : Descriptor) (rest : List HostEvent) (i : Instr), s.inputs = .present d :: rest → decode d = some i →
    step s = exec i { s with inputs := rest }) ∧
  (∀ (s : State) (nbits w : Nat) (i : Instr), decodeTableWord nbits w = some i → step (s.withFetchWord nbits w) = exec i s)

/-- The step refuses a presented descriptor as reserved exactly when it decodes to nothing, names a session that does not
exist, or is B64.ENCB on a block without it (30_encoding.md R56; decisions D5, D20, D23). -/
def Obligations.ReservedDescriptorsAreRefused : Prop :=
  ∀ (s : State) (d : Descriptor) (rest : List HostEvent), s.inputs = .present d :: rest →
    ((∃ why, step s = .refused (.reserved why)) ↔
      (decode d = none ∨ ∃ i, decode d = some i ∧
        ((∃ sid, i.sid? = some sid ∧ s.nEnc ≤ sid.toNat) ∨
         (i.mnemonic = "B64.ENCB" ∧ s.params.hasEncb = false))))

/-- What each of the host's other interactions does: RET and FXOUT are read back once they hold a command's result and
fault before, memory is read back where it was written, accesses at or beyond `MEM_SIZE` fault, and with nothing to do the
block waits (10_state.md R25, 70_reset_and_hazards.md R151, R167). That an interaction is a step, and that the block waits by
doing nothing, is the model's own (notes/assumptions/5.md, 6.md, 7.md). -/
def Obligations.HostInteractions : Prop :=
  ∀ (s : State) (rest : List HostEvent) (addr : Word) (v : Byte),
    (s.inputs = [] → step s = .next s) ∧
    (s.inputs = .readRet :: rest → s.retWritten = true →
      step s = .next { s with inputs := rest, views := s.views ++ [.ret s.ret] }) ∧
    (s.inputs = .readRet :: rest → s.retWritten = false → step s = .fault .retUnwritten) ∧
    (s.inputs = .readFxout :: rest → s.fxoutWritten = true →
      step s = .next { s with inputs := rest, views := s.views ++ [.fxout s.fxout] }) ∧
    (s.inputs = .readFxout :: rest → s.fxoutWritten = false → step s = .fault .fxoutUnwritten) ∧
    (s.inputs = .readByte addr :: rest → addr.toNat < s.params.memSize → s.mem.read addr.toNat = some v →
      step s = .next { s with inputs := rest, views := s.views ++ [.byte addr v] }) ∧
    (s.inputs = .readByte addr :: rest → addr.toNat < s.params.memSize → s.mem.read addr.toNat = none →
      step s = .fault (.unwrittenByte addr.toNat)) ∧
    (s.inputs = .readByte addr :: rest → s.params.memSize ≤ addr.toNat → step s = .fault (.noSuchAddress addr.toNat)) ∧
    (s.inputs = .writeByte addr v :: rest → s.params.memSize ≤ addr.toNat → step s = .fault (.noSuchAddress addr.toNat))

/-- The host's write of a byte: that byte reads as written afterwards, every other byte as before, and nothing else of the
state changes but the host's list (20_memory.md R32, R39, 70_reset_and_hazards.md R167; decision D10). -/
def Obligations.HostWriteIsReadBack : Prop :=
  ∀ (s : State) (rest : List HostEvent) (addr : Word) (v : Byte),
    s.inputs = .writeByte addr v :: rest → addr.toNat < s.params.memSize →
      ∃ m, step s = .next { s with inputs := rest, mem := m } ∧ m.read addr.toNat = some v ∧
        ∀ a, a ≠ addr.toNat → m.read a = s.mem.read a

/-! ## Reset and invariants -/

/-- After reset no session is active, the history is empty and no byte of memory has a value; the parameters of the reset
state are the spec's defaults for `N_ENC` and `HAS_ENCB` (10_state.md R25, 00_scope.md R5, decision D24); and the host's reset
gives that state with the block's own parameters. `MEM_SIZE` of the reset state (notes/assumptions/2.md), and what the host's
reset leaves (notes/assumptions/11.md), are the model's choice. -/
def Obligations.ResetLeavesTheBlockQuiet : Prop :=
  (∀ (n : Nat) (p : Params),
    (State.resetOf n p).nEnc = n ∧ (State.resetOf n p).params = p ∧ (State.resetOf n p).emissions = [] ∧
    (∀ x ∈ (State.resetOf n p).sessions, x.active = false) ∧ (∀ a, (State.resetOf n p).mem.read a = none)) ∧
  (State.reset.nEnc = 1 ∧ State.reset.params.hasEncb = true ∧ State.reset.params.memSize = 2 ^ 32) ∧
  (∀ (s : State) (rest : List HostEvent), s.inputs = .reset :: rest →
    step s = .next { State.resetOf s.nEnc s.params with inputs := rest, views := s.views, free := s.free })

/-- The state after reset is sound, for every legal choice of the parameters (10_state.md R18, R25). -/
def Obligations.ResetIsSound : Prop :=
  (∀ (n : Nat) (p : Params), 1 ≤ n → n ≤ 256 → p.legal = true → (State.resetOf n p).Inv) ∧ State.reset.Inv

/-- From every sound state, reached or not, a step gives a sound state: memory keeps its canonical form and lists only
locations that exist, an active session's TOTAL is a multiple of 4 and its partial group has zero low bits, only `=` and
alphabet characters are emitted, the parameters stay legal (10_state.md R15, R18, R22, R24, 42_base64_stream.md R97). -/
def Obligations.StepKeepsTheStateSound : Prop :=
  ∀ s t : State, s.Inv → step s = .next t → t.Inv

/-- Nothing writes the parameters: every step leaves `N_ENC`, `MEM_SIZE`, `HAS_ENCB` and `BLK_FILL` as they were
(10_state.md R24). -/
def Obligations.ParametersAreNeverWritten : Prop :=
  ∀ s t : State, step s = .next t → t.params = s.params ∧ t.nEnc = s.nEnc

/-! ## The streaming encoder -/

/-- B64S.START completes in every state that has the session, active or not, with exactly the effect of
42_base64_stream.md R99; a second B64S.START replaces the first (R99; decision D6 for a START on an active session). -/
def Obligations.StartOpensASession : Prop :=
  ∀ (s : State) (sid : BitVec 8) (sink ctx : Word) (x : Session), s.session? sid = some x →
    exec (.b64sStart sid sink ctx) s = .next { s with
      sessions := s.sessions.set sid.toNat { x with active := true, cnt := .empty, total := 0, sink := sink, ctx := ctx }
      ret := 0
      retWritten := true } ∧
    ∀ (sink' ctx' : Word) (t : State), exec (.b64sStart sid sink' ctx') s = .next t →
      exec (.b64sStart sid sink ctx) t = exec (.b64sStart sid sink ctx) s

/-- One byte fed to an active session, by the state it is in: the three transitions of 42_base64_stream.md R95 and R101, the
groups by the layout of 40_base64_alphabet.md R71 and R72 (the storage of partial groups is the spec's decision D7). -/
def Obligations.OneByteTakesOneTransition : Prop :=
  ∀ (s : State) (sid : BitVec 8) (addr : Word) (x : Session) (b : Byte),
    s.session? sid = some x → x.active = true → addr.toNat < s.params.memSize → s.mem.read addr.toNat = some b →
    (x.cnt = .empty → exec (.b64sMore sid addr 1) s = .next { s with
      sessions := s.sessions.set sid.toNat
        { x with cnt := .one, g0 := b.extractLsb' 2 6, g1 := b.extractLsb' 0 2 ++ 0#4 }
      ret := 0
      retWritten := true }) ∧
    (x.cnt = .one → exec (.b64sMore sid addr 1) s = .next { s with
      sessions := s.sessions.set sid.toNat
        { x with cnt := .two, g1 := x.g1.extractLsb' 4 2 ++ b.extractLsb' 4 4, g2 := b.extractLsb' 0 4 ++ 0#2 }
      ret := 0
      retWritten := true }) ∧
    (x.cnt = .two → x.total.toNat + 4 ≤ 2 ^ 32 - 1 → exec (.b64sMore sid addr 1) s = .next { s with
      sessions := s.sessions.set sid.toNat { x with cnt := .empty, total := x.total + 4 }
      emissions := s.emissions ++
        [⟨x.sink, x.ctx, enc6 x.g0⟩, ⟨x.sink, x.ctx, enc6 x.g1⟩,
         ⟨x.sink, x.ctx, enc6 (x.g2.extractLsb' 2 4 ++ b.extractLsb' 6 2)⟩, ⟨x.sink, x.ctx, enc6 (b.extractLsb' 0 6)⟩]
      ret := 4
      retWritten := true })

/-- B64S.MORE completes in every state where the session is active, the range is admitted and written, and the TOTAL bound
holds; with `c` = CNT and `q = floor((c + len) / 3)` it emits the standard Base64 characters of the first `3q` of the pending
and the new bytes, keeps the rest pending, returns `4q`, leaves CNT = `(c + len) mod 3` and adds `4q` to TOTAL, and changes
nothing else (42_base64_stream.md R100, R102, 10_state.md R18). -/
def Obligations.MoreEmitsTheCompleteQuanta : Prop :=
  ∀ (s : State) (sid : BitVec 8) (addr len : Word) (x : Session) (bs : List Byte),
    s.session? sid = some x → x.active = true → admitted s.params.memSize addr.toNat len.toNat = true →
    bs.length = len.toNat → s.mem.holds addr.toNat bs →
    x.total.toNat + 4 * ((x.cnt.count + len.toNat) / 3) ≤ 2 ^ 32 - 1 →
    ∃ (x' : Session) (cs : List Byte),
      exec (.b64sMore sid addr len) s = .next { s with
        sessions := s.sessions.set sid.toNat x'
        emissions := s.emissions ++ cs.map (fun c => ⟨x.sink, x.ctx, c⟩)
        ret := BitVec.ofNat 32 (4 * ((x.cnt.count + len.toNat) / 3))
        retWritten := true } ∧
      cs = stdUnpadded ((x.pending ++ bs).take (3 * ((x.cnt.count + len.toNat) / 3))) ∧
      x'.pending = (x.pending ++ bs).drop (3 * ((x.cnt.count + len.toNat) / 3)) ∧
      x'.cnt.count = (x.cnt.count + len.toNat) % 3 ∧
      x'.total.toNat = x.total.toNat + 4 * ((x.cnt.count + len.toNat) / 3) ∧
      x'.active = true ∧ x'.sink = x.sink ∧ x'.ctx = x.ctx

/-- Splitting a B64S.MORE in two changes nothing but how the return value is split: where the whole is accepted, both parts
are, they end in the same state but for RET, and the two returns sum to the one (42_base64_stream.md R102). -/
def Obligations.SplittingAMoreChangesNothing : Prop :=
  ∀ (s t : State) (sid : BitVec 8) (addr n₁ n₂ : Word),
    s.params.memSize ≤ 2 ^ 32 → n₁.toNat + n₂.toNat < 2 ^ 32 →
    exec (.b64sMore sid addr (n₁ + n₂)) s = .next t →
    ∃ t₁ t₂ : State, exec (.b64sMore sid addr n₁) s = .next t₁ ∧ exec (.b64sMore sid (addr + n₁) n₂) t₁ = .next t₂ ∧
      { t₂ with ret := t.ret } = t ∧ t₁.ret.toNat + t₂.ret.toNat = t.ret.toNat

/-- B64S.FINISH completes in every state where the session is active and the TOTAL bound holds: it emits the pending groups
with or without `=` by the state and `pad`, adds their number to TOTAL, clears ACTIVE and returns TOTAL; SINK and CTX stay, CNT
and the groups are left unspecified; and the session must be started again before it is used (42_base64_stream.md R105). -/
def Obligations.FinishFlushesTheSession : Prop :=
  ∀ (s : State) (sid : BitVec 8) (pad : Bool) (x : Session) (cs : List Byte),
    s.session? sid = some x → x.active = true →
    cs = (match x.cnt, pad with
      | .empty, _ => []
      | .one, false => [enc6 x.g0, enc6 x.g1]
      | .one, true => [enc6 x.g0, enc6 x.g1, 0x3D, 0x3D]
      | .two, false => [enc6 x.g0, enc6 x.g1, enc6 x.g2]
      | .two, true => [enc6 x.g0, enc6 x.g1, enc6 x.g2, 0x3D]) →
    x.total.toNat + cs.length ≤ 2 ^ 32 - 1 →
    ∃ (c : EncState) (h₀ h₁ h₂ : Group) (n : Nat) (t : State),
      exec (.b64sFinish sid pad) s = .next t ∧
      t = { s with
        sessions := s.sessions.set sid.toNat
          { x with active := false, total := x.total + BitVec.ofNat 32 cs.length, cnt := c, g0 := h₀, g1 := h₁, g2 := h₂ }
        emissions := s.emissions ++ cs.map (fun c => ⟨x.sink, x.ctx, c⟩)
        ret := x.total + BitVec.ofNat 32 cs.length
        retWritten := true
        free := n } ∧
      (∀ pad', exec (.b64sFinish sid pad') t = .refused .sessionNotActive) ∧
      (∀ addr len, admitted t.params.memSize addr.toNat len.toNat = true →
        exec (.b64sMore sid addr len) t = .refused .sessionNotActive)

/-- B64S.MORE on an admitted range and B64S.FINISH are refused on a session whose ACTIVE is 0, as after reset or after a
B64S.FINISH (10_state.md R13, 42_base64_stream.md R100, R104; decision D6). -/
def Obligations.InactiveSessionIsRefused : Prop :=
  ∀ (s : State) (sid : BitVec 8) (x : Session), s.session? sid = some x → x.active = false →
    (∀ addr len, admitted s.params.memSize addr.toNat len.toNat = true →
      exec (.b64sMore sid addr len) s = .refused .sessionNotActive) ∧
    (∀ pad, exec (.b64sFinish sid pad) s = .refused .sessionNotActive)

/-- The life cycle START (MORE)* FINISH: while a session is not active, no list of commands without a B64S.START on it can be
accepted and touch it; it stays as it was (70_reset_and_hazards.md R155, 42_base64_stream.md R100, R104; decision D6). -/
def Obligations.OnlyStartReopensASession : Prop :=
  ∀ (is : List Instr) (s t : State) (sid : BitVec 8) (x : Session),
    s.session? sid = some x → x.active = false → (∀ i ∈ is, ∀ sink ctx, i ≠ .b64sStart sid sink ctx) →
    runCommands is s = .next t → t.session? sid = some x ∧ ∀ i ∈ is, i.sid? ≠ some sid

/-- The TOTAL bound refuses exactly when TOTAL would exceed 2^32 - 1 (42_base64_stream.md R106; decision D8). -/
def Obligations.TotalBoundRefusesExactly : Prop :=
  ∀ (s : State) (sid : BitVec 8) (x : Session), s.session? sid = some x → x.active = true →
    (∀ addr len, admitted s.params.memSize addr.toNat len.toNat = true →
      (exec (.b64sMore sid addr len) s = .refused .totalBound ↔
        2 ^ 32 - 1 < x.total.toNat + 4 * ((x.cnt.count + len.toNat) / 3))) ∧
    (∀ pad, (exec (.b64sFinish sid pad) s = .refused .totalBound ↔
      2 ^ 32 - 1 < x.total.toNat + (match x.cnt, pad with
        | .empty, _ => 0
        | .one, false => 2
        | .two, false => 3
        | _, true => 4)))

/-- Conformance: a session that is started, fed a byte sequence in any pieces and finished emits, after what was emitted
before, exactly the standard Base64 text of the sequence, padded or with the `=` stripped, to its sink with its context,
wherever that text is no longer than the bound on TOTAL of R106; RET is the text's length, `4 * ceil(n / 3)` or
`4 * floor(n / 3)` plus 0, 2 or 3; memory, FXOUT and the other sessions are unchanged (42_base64_stream.md R96, R98, R106,
R107, R108). -/
def Obligations.StreamIsStandardBase64 : Prop :=
  ∀ (s : State) (sid : BitVec 8) (sink ctx : Word) (pieces : List (Word × List Byte)) (pad : Bool) (bs : List Byte),
    sid.toNat < s.nEnc → bs = pieces.flatMap (fun p => p.2) → (streamText pad bs).length ≤ 2 ^ 32 - 1 →
    (∀ p ∈ pieces, p.2.length < 2 ^ 32 ∧ admitted s.params.memSize p.1.toNat p.2.length = true ∧
      s.mem.holds p.1.toNat p.2) →
    ∃ t : State,
      runCommands (.b64sStart sid sink ctx :: morePieces sid pieces ++ [.b64sFinish sid pad]) s = .next t ∧
      t.emissions = s.emissions ++ (streamText pad bs).map (fun c => ⟨sink, ctx, c⟩) ∧
      t.ret.toNat = (streamText pad bs).length ∧
      (streamText pad bs).length = (if pad then 4 * ((bs.length + 2) / 3)
        else 4 * (bs.length / 3) + (if bs.length % 3 = 0 then 0 else bs.length % 3 + 1)) ∧
      t.mem = s.mem ∧ t.fxout = s.fxout ∧ ∀ k : BitVec 8, k ≠ sid → t.session? k = s.session? k

/-- The bytes accepted since B64S.START number `3 * TOTAL / 4 + CNT`, TOTAL is a multiple of 4, and the bytes pending are the
last CNT of them (10_state.md R18). -/
def Obligations.AcceptedBytesAreCounted : Prop :=
  ∀ (s t : State) (sid : BitVec 8) (sink ctx : Word) (pieces : List (Word × List Byte)),
    (∀ p ∈ pieces, p.2.length < 2 ^ 32 ∧ s.mem.holds p.1.toNat p.2) →
    runCommands (.b64sStart sid sink ctx :: morePieces sid pieces) s = .next t →
    ∃ x : Session, t.session? sid = some x ∧ x.active = true ∧ x.total.toNat % 4 = 0 ∧
      (pieces.flatMap (fun p => p.2)).length = 3 * x.total.toNat / 4 + x.cnt.count ∧
      x.pending = (pieces.flatMap (fun p => p.2)).drop (3 * x.total.toNat / 4)

/-- Sessions share nothing: two states that agree on the session a command names, on memory, on the parameters and on the
number of free values drawn give it the same answer, the same return, the same new emissions and the same session after;
every other session is left alone (10_state.md R12, 42_base64_stream.md R96; decision D5). That the two states have drawn the
same number of free values is the model's own premise (notes/assumptions/9.md). -/
def Obligations.SessionsDoNotInterfere : Prop :=
  ∀ (s₁ s₂ t₁ : State) (i : Instr) (sid : BitVec 8), i.sid? = some sid →
    s₁.session? sid = s₂.session? sid → s₁.mem = s₂.mem → s₁.params = s₂.params → s₁.free = s₂.free →
    exec i s₁ = .next t₁ →
    ∃ (t₂ : State) (es : List Emission), exec i s₂ = .next t₂ ∧ t₁.ret = t₂.ret ∧
      t₁.emissions = s₁.emissions ++ es ∧ t₂.emissions = s₂.emissions ++ es ∧
      t₁.session? sid = t₂.session? sid ∧
      ∀ k : BitVec 8, k ≠ sid → t₁.session? k = s₁.session? k ∧ t₂.session? k = s₂.session? k

/-! ## Whole-machine rules -/

/-- Only B64S.START sets a session's ACTIVE and only B64S.FINISH clears it, each on the session it names; a command on another
session, or on none, leaves the session as it was (10_state.md R12, R13, R24, 00_scope.md R2). -/
def Obligations.OnlyStartAndFinishChangeActive : Prop :=
  ∀ (i : Instr) (s t : State) (sid : BitVec 8) (x : Session), exec i s = .next t → s.session? sid = some x →
    ∃ y : Session, t.session? sid = some y ∧
      (i.sid? ≠ some sid → y = x) ∧
      (x.active = false → y.active = true → ∃ sink ctx, i = .b64sStart sid sink ctx) ∧
      (x.active = true → y.active = false → ∃ pad, i = .b64sFinish sid pad)

/-- The history only grows, only B64S.MORE and B64S.FINISH add to it, and what they add are characters of the alphabet, then,
from B64S.FINISH with `pad` only, at most two trailing `=`, with the SINK and CTX of the session they name (10_state.md R23,
20_memory.md R30, 40_base64_alphabet.md R70, 42_base64_stream.md R97, R98, R105). -/
def Obligations.EmissionsAreOnlyAppended : Prop :=
  ∀ (i : Instr) (s t : State), exec i s = .next t →
    t.emissions = s.emissions ∨
    ∃ (sid : BitVec 8) (x : Session) (gs : List Group) (k : Nat), s.session? sid = some x ∧
      ((∃ addr len, i = .b64sMore sid addr len ∧ k = 0) ∨ (i = .b64sFinish sid false ∧ k = 0) ∨
        (i = .b64sFinish sid true ∧ k ≤ 2)) ∧
      t.emissions = s.emissions ++ (gs.map enc6 ++ List.replicate k 0x3D).map (fun c => ⟨x.sink, x.ctx, c⟩)

/-- Only B64.DEC and B64.ENCB write buffer memory, and only in their output ranges (10_state.md R22, 20_memory.md R32, R33,
42_base64_stream.md R103, R108). -/
def Obligations.OnlyTheBlockCodecWritesMemory : Prop :=
  ∀ (i : Instr) (s t : State), exec i s = .next t →
    t.mem = s.mem ∨
    (∃ inp len out, i = .b64Dec inp len out ∧ s.mem.sameOutside t.mem out.toNat (decMax len.toNat)) ∨
    (∃ inp len out, i = .b64Encb inp len out ∧ s.mem.sameOutside t.mem out.toNat (encLen len.toNat))

/-- FXOUT is written only by an FXP.CVT.* command that succeeds: an FXP.CVT.* that returns a nonzero code leaves it as it was,
and writes nothing but FXOUT and RET in any case; every other command leaves it as it was (70_reset_and_hazards.md R159,
10_state.md R21). -/
def Obligations.FailedConversionKeepsFxout : Prop :=
  ∀ (i : Instr) (s t : State), exec i s = .next t →
    (((∃ raw scale frac, i = .fxpCvtU16 raw scale frac ∨ i = .fxpCvtS16 raw scale frac) ∨
      (∃ raw scale frac, i = .fxpCvtU32 raw scale frac ∨ i = .fxpCvtS32 raw scale frac)) →
      t = { s with fxout := t.fxout, fxoutWritten := t.fxoutWritten, ret := t.ret, retWritten := true } ∧
      (t.ret ≠ 0 → t.fxout = s.fxout ∧ t.fxoutWritten = s.fxoutWritten)) ∧
    (¬ ((∃ raw scale frac, i = .fxpCvtU16 raw scale frac ∨ i = .fxpCvtS16 raw scale frac) ∨
      (∃ raw scale frac, i = .fxpCvtU32 raw scale frac ∨ i = .fxpCvtS32 raw scale frac)) →
      t.fxout = s.fxout ∧ t.fxoutWritten = s.fxoutWritten)

/-! ## The block encoder -/

/-- B64.ENCB completes wherever the block has it, its ranges are admitted and disjoint, its result fits RET and its input is
written: full groups by the layout of 40_base64_alphabet.md R71, a tail of one byte as two characters and two fillers, a tail
of two as three and one, RET the number of characters, every other byte of memory and everything else unchanged
(41_base64_block.md R76, R77, R78; the zero fill of the last group is the spec's decision D20). -/
def Obligations.EncbWritesGroupsAndFiller : Prop :=
  ∀ (s : State) (inp len out : Word) (bs : List Byte),
    s.params.hasEncb = true → admitted s.params.memSize inp.toNat len.toNat = true →
    admitted s.params.memSize out.toNat (encLen len.toNat) = true →
    encOverlapForbidden inp.toNat len.toNat out.toNat = false → encLen len.toNat ≤ 2 ^ 32 - 1 →
    bs.length = len.toNat → s.mem.holds inp.toNat bs →
    ∃ m : Memory,
      exec (.b64Encb inp len out) s = .next { s with
        mem := m, ret := BitVec.ofNat 32 (encLen len.toNat), retWritten := true } ∧
      s.mem.sameOutside m out.toNat (encLen len.toNat) ∧
      (∀ g, 3 * g + 3 ≤ len.toNat → m.holds (out.toNat + 4 * g)
        [enc6 (group0 (bs.getD (3 * g) 0)), enc6 (group1 (bs.getD (3 * g) 0) (bs.getD (3 * g + 1) 0)),
         enc6 (group2 (bs.getD (3 * g + 1) 0) (bs.getD (3 * g + 2) 0)), enc6 (group3 (bs.getD (3 * g + 2) 0))]) ∧
      (∀ g, 3 * g + 1 = len.toNat → m.holds (out.toNat + 4 * g)
        [enc6 (group0 (bs.getD (3 * g) 0)), enc6 ((bs.getD (3 * g) 0).extractLsb' 0 2 ++ 0#4),
         s.params.blkFill, s.params.blkFill]) ∧
      (∀ g, 3 * g + 2 = len.toNat → m.holds (out.toNat + 4 * g)
        [enc6 (group0 (bs.getD (3 * g) 0)), enc6 (group1 (bs.getD (3 * g) 0) (bs.getD (3 * g + 1) 0)),
         enc6 ((bs.getD (3 * g + 1) 0).extractLsb' 0 4 ++ 0#2), s.params.blkFill])

/-- What B64.ENCB writes is the standard Base64 text with the filler in place of `=`: standard when the length is a multiple of
3, and the same characters as the streaming encoder's wherever one is derivable (41_base64_block.md R78, R80; decision D20). -/
def Obligations.EncbTextIsStandardButForTheFiller : Prop :=
  ∀ (s t : State) (inp len out : Word) (bs : List Byte), bs.length = len.toNat → s.mem.holds inp.toNat bs →
    exec (.b64Encb inp len out) s = .next t →
    t.mem.holds out.toNat (stdUnpadded bs ++ List.replicate (stdPadCount bs.length) s.params.blkFill) ∧
    (len.toNat % 3 = 0 → t.mem.holds out.toNat (stdBase64 bs))

/-- The length law: RET is `4 * ceil(len / 3)`, a multiple of 4, and 0 for length 0 (41_base64_block.md R79). -/
def Obligations.EncbLengthLaw : Prop :=
  ∀ (s t : State) (inp len out : Word), exec (.b64Encb inp len out) s = .next t →
    t.ret.toNat = 4 * ⌈(len.toNat : ℚ) / 3⌉₊ ∧ t.ret.toNat % 4 = 0 ∧ (len.toNat = 0 → t.ret.toNat = 0)

/-- Text from B64.ENCB with a partial final group is not accepted by B64.DEC, for every legal filler: decoding it, anywhere the
ranges allow, fails (41_base64_block.md R80, 93_implementation_defined.md U17). The bound on the length keeps the byte count
below the limit of R92. -/
def Obligations.EncbTailIsRejectedByDec : Prop :=
  ∀ (s t : State) (inp len out dst : Word), fillLegal s.params.blkFill = true → len.toNat % 3 ≠ 0 →
    encLen len.toNat ≤ 87376 → exec (.b64Encb inp len out) s = .next t →
    admitted t.params.memSize dst.toNat (decMax (encLen len.toNat)) = true →
    decOverlapForbidden out.toNat (encLen len.toNat) dst.toNat = false →
    ∃ u : State, exec (.b64Dec out t.ret dst) t = .next u ∧ u.ret = 0x0000FFFF

/-! ## The block decoder -/

/-- B64.DEC, which reads pairs and writes as it goes, is the four-state table of 41_base64_block.md R93 run over the text, after
the parity test of R87: success writes the table's bytes at `out` and returns their number, failure returns 0xFFFF and disturbs
nothing outside the output range, `=` at position 1 or 2 is refused; nothing else changes. In place or disjoint alike (R82,
R86, R88, R91; decisions D14 to D18; the free values of a failure are the model's form of R88, notes/assumptions/8.md). -/
def Obligations.DecIsTheStateTable : Prop :=
  ∀ (s : State) (inp len out : Word) (text : List Byte),
    admitted s.params.memSize inp.toNat len.toNat = true → admitted s.params.memSize out.toNat (decMax len.toNat) = true →
    decOverlapForbidden inp.toNat len.toNat out.toNat = false → text.length = len.toNat → s.mem.holds inp.toNat text →
    decMax len.toNat ≤ 65534 →
    match (if len.toNat % 2 = 1 then TableEnd.fail else tableScan .needFirst text) with
    | .succeed bs => ∃ m : Memory, exec (.b64Dec inp len out) s = .next { s with
          mem := m, ret := BitVec.ofNat 32 bs.length, retWritten := true } ∧
        m.holds out.toNat bs ∧ s.mem.sameOutside m out.toNat bs.length
    | .fail => ∃ (m : Memory) (n : Nat), exec (.b64Dec inp len out) s = .next { s with
          mem := m, ret := 0x0000FFFF, retWritten := true, free := n } ∧
        s.mem.sameOutside m out.toNat (decMax len.toNat)
    | .refuse => exec (.b64Dec inp len out) s = .refused .padMisplaced

/-- B64.DEC completes on a text of even length whose first `n` characters are in the alphabet and that ends there, or has `=`
there at position 3 or 4 of a quartet, whatever follows: the bytes of the `n` groups are at `out`, RET is their number, and
nothing else changes; `len = 0` touches nothing (41_base64_block.md R82, R89, R90, 40_base64_alphabet.md R73; the spec's
decisions D14 and D15). -/
def Obligations.DecReadsUpToTheTerminator : Prop :=
  ∀ (s : State) (inp len out : Word) (n : Nat) (g : Nat → Group),
    admitted s.params.memSize inp.toNat len.toNat = true → admitted s.params.memSize out.toNat (decMax len.toNat) = true →
    decOverlapForbidden inp.toNat len.toNat out.toNat = false → len.toNat % 2 = 0 → n ≤ len.toNat → decMax n ≤ 65534 →
    s.mem.groupsAt inp.toNat n g →
    (n = len.toNat ∨
     (n < len.toNat ∧ n % 4 = 3 ∧ s.mem.read (inp.toNat + n) = some 0x3D) ∨
     (n < len.toNat ∧ n % 4 = 2 ∧ s.mem.read (inp.toNat + n) = some 0x3D ∧
       (s.mem.read (inp.toNat + n + 1)).isSome = true)) →
    ∃ m : Memory,
      exec (.b64Dec inp len out) s = .next { s with mem := m, ret := BitVec.ofNat 32 (decMax n), retWritten := true } ∧
      (∀ j, j < decMax n → m.read (out.toNat + j) = some (groupByte g j)) ∧
      s.mem.sameOutside m out.toNat (decMax n)

/-- `=` at position 1 or 2 of a quartet, met before any failure or terminator, is refused (41_base64_block.md R91; decision
D16). The character of the same pair must have been written, since the pair is read whole. -/
def Obligations.DecRefusesAMisplacedPad : Prop :=
  ∀ (s : State) (inp len out : Word) (n : Nat) (g : Nat → Group),
    admitted s.params.memSize inp.toNat len.toNat = true → admitted s.params.memSize out.toNat (decMax len.toNat) = true →
    decOverlapForbidden inp.toNat len.toNat out.toNat = false → len.toNat % 2 = 0 → n < len.toNat → decMax n ≤ 65534 →
    s.mem.groupsAt inp.toNat n g → s.mem.read (inp.toNat + n) = some 0x3D →
    (n % 4 = 1 ∨ n % 4 = 0 ∧ (s.mem.read (inp.toNat + n + 1)).isSome = true) →
    exec (.b64Dec inp len out) s = .refused .padMisplaced

/-- A foreign character, neither in the alphabet nor `=`, that the scan reaches makes B64.DEC fail: RET is 0xFFFF, nothing
outside the output range changes (41_base64_block.md R85, R87, R88). The character of the same pair must have been written. -/
def Obligations.DecFailsOnAForeignCharacter : Prop :=
  ∀ (s : State) (inp len out : Word) (n : Nat) (g : Nat → Group) (ch : Byte),
    admitted s.params.memSize inp.toNat len.toNat = true → admitted s.params.memSize out.toNat (decMax len.toNat) = true →
    decOverlapForbidden inp.toNat len.toNat out.toNat = false → len.toNat % 2 = 0 → n < len.toNat → decMax n ≤ 65534 →
    s.mem.groupsAt inp.toNat n g → s.mem.read (inp.toNat + n) = some ch → ch ≠ 0x3D → dec8 ch = none →
    (n % 2 = 0 → (s.mem.read (inp.toNat + n + 1)).isSome = true) →
    ∃ (m : Memory) (k : Nat), exec (.b64Dec inp len out) s = .next { s with
        mem := m, ret := 0x0000FFFF, retWritten := true, free := k } ∧
      s.mem.sameOutside m out.toNat (decMax len.toNat)

/-- A text that would yield 65535 bytes or more is refused before that write (41_base64_block.md R92; decision D19). -/
def Obligations.DecRefusesTheCountLimit : Prop :=
  ∀ (s : State) (inp len out : Word) (n : Nat) (g : Nat → Group),
    admitted s.params.memSize inp.toNat len.toNat = true → admitted s.params.memSize out.toNat (decMax len.toNat) = true →
    decOverlapForbidden inp.toNat len.toNat out.toNat = false → len.toNat % 2 = 0 → n ≤ len.toNat → 65535 ≤ decMax n →
    s.mem.groupsAt inp.toNat n g →
    exec (.b64Dec inp len out) s = .refused .decodeCount

/-- Every text of odd length fails, whatever its characters, written or not: RET is 0xFFFF and nothing outside the output range
changes (41_base64_block.md R87, R88; decision D16). -/
def Obligations.DecFailsOnOddLength : Prop :=
  ∀ (s : State) (inp len out : Word),
    admitted s.params.memSize inp.toNat len.toNat = true → admitted s.params.memSize out.toNat (decMax len.toNat) = true →
    decOverlapForbidden inp.toNat len.toNat out.toNat = false → len.toNat % 2 = 1 →
    ∃ (m : Memory) (k : Nat), exec (.b64Dec inp len out) s = .next { s with
        mem := m, ret := 0x0000FFFF, retWritten := true, free := k } ∧
      s.mem.sameOutside m out.toNat (decMax len.toNat)

/-- The sentinel and the bounded disturbance: a completed B64.DEC returns 0xFFFF or at most `DECMAX(len)` and at most 65534;
when it returns the sentinel only RET and its output range changed (and the model's own count of free values); when it does
not, only RET and the RET bytes at `out` (41_base64_block.md R83, R84, R88). -/
def Obligations.DecResultIsACountOrTheSentinel : Prop :=
  ∀ (s t : State) (inp len out : Word), exec (.b64Dec inp len out) s = .next t →
    decMax len.toNat ≤ len.toNat ∧
    ((t.ret = 0x0000FFFF ∧ s.mem.sameOutside t.mem out.toNat (decMax len.toNat) ∧
        t = { s with mem := t.mem, ret := 0x0000FFFF, retWritten := true, free := t.free }) ∨
     (t.ret.toNat ≤ decMax len.toNat ∧ t.ret.toNat ≤ 65534 ∧ s.mem.sameOutside t.mem out.toNat t.ret.toNat ∧
        t = { s with mem := t.mem, ret := t.ret, retWritten := true }))

/-- In place equals disjoint: decoding over the text gives the same return as decoding into a disjoint buffer and, on success,
the same bytes; the characters behind them are still there (41_base64_block.md R86). -/
def Obligations.DecInPlaceEqualsDisjoint : Prop :=
  ∀ (s t : State) (inp len out : Word) (text : List Byte), text.length = len.toNat → s.mem.holds inp.toNat text →
    decMax len.toNat ≤ 65534 → admitted s.params.memSize out.toNat (decMax len.toNat) = true →
    overlaps inp.toNat len.toNat out.toNat (decMax len.toNat) = false →
    exec (.b64Dec inp len inp) s = .next t →
    ∃ u : State, exec (.b64Dec inp len out) s = .next u ∧ u.ret = t.ret ∧
      (t.ret ≠ 0x0000FFFF →
        (∀ k, k < t.ret.toNat → t.mem.read (inp.toNat + k) = u.mem.read (out.toNat + k)) ∧
        (∀ k, t.ret.toNat ≤ k → k < len.toNat → t.mem.read (inp.toNat + k) = s.mem.read (inp.toNat + k)))

/-- Round trip: decoding the standard padded text of a byte sequence, of at most 87376 characters, completes, returns the
sequence's length and puts the sequence at `out`, in place or not (41_base64_block.md R94). -/
def Obligations.DecOfStandardTextIsTheBytes : Prop :=
  ∀ (s : State) (inp len out : Word) (bs : List Byte), (stdBase64 bs).length = len.toNat → len.toNat ≤ 87376 →
    s.mem.holds inp.toNat (stdBase64 bs) →
    admitted s.params.memSize inp.toNat len.toNat = true → admitted s.params.memSize out.toNat (decMax len.toNat) = true →
    decOverlapForbidden inp.toNat len.toNat out.toNat = false →
    ∃ m : Memory,
      exec (.b64Dec inp len out) s = .next { s with mem := m, ret := BitVec.ofNat 32 bs.length, retWritten := true } ∧
      m.holds out.toNat bs ∧ s.mem.sameOutside m out.toNat bs.length

/-- A buffer range that is not wholly inside memory makes the command that names it refused: B64S.MORE's range, B64.DEC's and
B64.ENCB's input and output (20_memory.md R33; decisions D10, D17). An empty range is never a ground. -/
def Obligations.RangesOutsideMemoryAreRefused : Prop :=
  ∀ (s : State) (sid : BitVec 8) (x : Session) (inp len out : Word),
    (s.session? sid = some x →
      (exec (.b64sMore sid inp len) s = .refused .rangeNotAdmitted ↔
        len.toNat ≠ 0 ∧ s.params.memSize < inp.toNat + len.toNat)) ∧
    (exec (.b64Dec inp len out) s = .refused .rangeNotAdmitted ↔
      (len.toNat ≠ 0 ∧ s.params.memSize < inp.toNat + len.toNat) ∨
      (decMax len.toNat ≠ 0 ∧ s.params.memSize < out.toNat + decMax len.toNat)) ∧
    (s.params.hasEncb = true →
      (exec (.b64Encb inp len out) s = .refused .rangeNotAdmitted ↔
        (len.toNat ≠ 0 ∧ s.params.memSize < inp.toNat + len.toNat) ∨
        (encLen len.toNat ≠ 0 ∧ s.params.memSize < out.toNat + encLen len.toNat)))

/-- Overlapping buffers: with the ranges admitted, B64.DEC is refused for overlap exactly when `out` is not `in` and some address
is in both ranges, B64.ENCB exactly when some address is in both (20_memory.md R44; decision D18). -/
def Obligations.OverlapsAreRefusedButInPlace : Prop :=
  ∀ (s : State) (inp len out : Word), admitted s.params.memSize inp.toNat len.toNat = true →
    (admitted s.params.memSize out.toNat (decMax len.toNat) = true →
      (exec (.b64Dec inp len out) s = .refused .overlap ↔
        out ≠ inp ∧ ∃ a, inp.toNat ≤ a ∧ a < inp.toNat + len.toNat ∧ out.toNat ≤ a ∧
          a < out.toNat + decMax len.toNat)) ∧
    (s.params.hasEncb = true → admitted s.params.memSize out.toNat (encLen len.toNat) = true →
      (exec (.b64Encb inp len out) s = .refused .overlap ↔
        ∃ a, inp.toNat ≤ a ∧ a < inp.toNat + len.toNat ∧ out.toNat ≤ a ∧ a < out.toNat + encLen len.toNat))

/-- Both block commands are functions of the descriptor and of the bytes in their input range: two states with the same
parameters whose memories agree there, whatever their sessions, registers and other memory, give the same return and, but for a
failed decode, the same bytes in the output (41_base64_block.md R75). -/
def Obligations.BlockCodecDependsOnItsInputOnly : Prop :=
  ∀ (s₁ s₂ t₁ : State) (inp len out : Word), s₁.params = s₂.params →
    (∀ k, k < len.toNat → s₁.mem.read (inp.toNat + k) = s₂.mem.read (inp.toNat + k)) →
    (exec (.b64Dec inp len out) s₁ = .next t₁ →
      ∃ t₂ : State, exec (.b64Dec inp len out) s₂ = .next t₂ ∧ t₂.ret = t₁.ret ∧
        (t₁.ret ≠ 0x0000FFFF → ∀ k, k < t₁.ret.toNat → t₂.mem.read (out.toNat + k) = t₁.mem.read (out.toNat + k))) ∧
    (exec (.b64Encb inp len out) s₁ = .next t₁ →
      ∃ t₂ : State, exec (.b64Encb inp len out) s₂ = .next t₂ ∧ t₂.ret = t₁.ret ∧
        ∀ k, k < encLen len.toNat → t₂.mem.read (out.toNat + k) = t₁.mem.read (out.toNat + k))

/-- Failures are not transient: a failed B64.DEC whose output range does not overlap its input fails again when it is issued
again, whatever values the failure left in the output range (60_exceptions.md R137). -/
def Obligations.FailedDecodeFailsAgain : Prop :=
  ∀ (s t : State) (inp len out : Word), exec (.b64Dec inp len out) s = .next t → t.ret = 0x0000FFFF →
    overlaps inp.toNat len.toNat out.toNat (decMax len.toNat) = false →
    ∃ u : State, exec (.b64Dec inp len out) t = .next u ∧ u.ret = 0x0000FFFF

/-! ## The fixed-point converter -/

/-- The core over integers: `frac > 31` fails first; else the product plus `2^(31 - frac) - 1`, shifted right by `31 - frac`,
fails above 0xFFFFFFFF and is the result otherwise; nothing wraps (43_fixed_point.md R116). -/
def Obligations.CoreComputesTheRoundedProduct : Prop :=
  ∀ raw scale frac : Word,
    (31 < frac.toNat → fxCore raw scale frac = .failed .fracBitsOutOfRange) ∧
    (frac.toNat ≤ 31 →
      (0xFFFFFFFF < (raw.toNat * scale.toNat + (2 ^ (31 - frac.toNat) - 1)) / 2 ^ (31 - frac.toNat) →
        fxCore raw scale frac = .failed .magnitudeOverflow) ∧
      ((raw.toNat * scale.toNat + (2 ^ (31 - frac.toNat) - 1)) / 2 ^ (31 - frac.toNat) ≤ 0xFFFFFFFF →
        ∃ r : Word, fxCore raw scale frac = .ok r ∧
          r.toNat = (raw.toNat * scale.toNat + (2 ^ (31 - frac.toNat) - 1)) / 2 ^ (31 - frac.toNat)))

/-- The signed wrapper: the core on the absolute value, its result negated at 32 bits when the sample is negative, its failure
passed on; no other overflow case, also for -2^31 (43_fixed_point.md R120). -/
def Obligations.SignedWrapperUsesTheMagnitude : Prop :=
  ∀ (x : Int) (scale frac : Word), -2 ^ 31 ≤ x → x ≤ 2 ^ 31 - 1 →
    (∀ e, fxCore (BitVec.ofNat 32 x.natAbs) scale frac = .failed e → fxSigned (BitVec.ofInt 32 x) scale frac = .failed e) ∧
    (∀ r, fxCore (BitVec.ofNat 32 x.natAbs) scale frac = .ok r →
      fxSigned (BitVec.ofInt 32 x) scale frac = .ok (if x < 0 then BitVec.ofInt 32 (-(r.toNat : Int)) else r))

/-- FXP.CVT.U16 and FXP.CVT.U32 complete with the product rounded up whenever `frac <= 31` and it fits 32 bits: FXOUT is
`ceil(raw * scale / 2^(31 - frac))`, RET is 0, nothing else changes (43_fixed_point.md R117, R121, R123). -/
def Obligations.UnsignedConversionResult : Prop :=
  ∀ (s : State) (raw16 : BitVec 16) (raw32 scale frac : Word), frac.toNat ≤ 31 →
    (fxExact raw16.toNat scale.toNat frac.toNat < 2 ^ 32 → exec (.fxpCvtU16 raw16 scale frac) s = .next { s with
      fxout := BitVec.ofNat 32 (fxExact raw16.toNat scale.toNat frac.toNat)
      fxoutWritten := true
      ret := 0
      retWritten := true }) ∧
    (fxExact raw32.toNat scale.toNat frac.toNat < 2 ^ 32 → exec (.fxpCvtU32 raw32 scale frac) s = .next { s with
      fxout := BitVec.ofNat 32 (fxExact raw32.toNat scale.toNat frac.toNat)
      fxoutWritten := true
      ret := 0
      retWritten := true })

/-- FXP.CVT.S16 and FXP.CVT.S32 complete with the magnitude rounded up and the sample's sign, at 32 bits, whenever
`frac <= 31` and the magnitude fits 32 bits: RET is 0, nothing else changes (43_fixed_point.md R117, R120, R122, R124, R126). -/
def Obligations.SignedConversionResult : Prop :=
  ∀ (s : State) (raw16 : BitVec 16) (raw32 scale frac : Word), frac.toNat ≤ 31 →
    (fxExact raw16.toInt.natAbs scale.toNat frac.toNat < 2 ^ 32 → exec (.fxpCvtS16 raw16 scale frac) s = .next { s with
      fxout := BitVec.ofInt 32 (raw16.toInt.sign * fxExact raw16.toInt.natAbs scale.toNat frac.toNat)
      fxoutWritten := true
      ret := 0
      retWritten := true }) ∧
    (fxExact raw32.toInt.natAbs scale.toNat frac.toNat < 2 ^ 32 → exec (.fxpCvtS32 raw32 scale frac) s = .next { s with
      fxout := BitVec.ofInt 32 (raw32.toInt.sign * fxExact raw32.toInt.natAbs scale.toNat frac.toNat)
      fxoutWritten := true
      ret := 0
      retWritten := true })

/-- `frac > 31` fails before anything is computed, for all four commands and every other operand: only RET changes, to
`FX_ERR_FRAC` (43_fixed_point.md R118; the code 1 is the spec's decision D21). -/
def Obligations.FracOutOfRangeComesFirst : Prop :=
  ∀ (s : State) (raw16 : BitVec 16) (raw32 scale frac : Word), 31 < frac.toNat →
    exec (.fxpCvtU16 raw16 scale frac) s = .next { s with ret := 1, retWritten := true } ∧
    exec (.fxpCvtS16 raw16 scale frac) s = .next { s with ret := 1, retWritten := true } ∧
    exec (.fxpCvtU32 raw32 scale frac) s = .next { s with ret := 1, retWritten := true } ∧
    exec (.fxpCvtS32 raw32 scale frac) s = .next { s with ret := 1, retWritten := true }

/-- A rounded magnitude of 2^32 or more overflows, for all four commands: only RET changes, to `FX_ERR_OVF`
(43_fixed_point.md R118; the code 2 is the spec's decision D21). -/
def Obligations.MagnitudeOverflowFails : Prop :=
  ∀ (s : State) (raw16 : BitVec 16) (raw32 scale frac : Word), frac.toNat ≤ 31 →
    (2 ^ 32 ≤ fxExact raw16.toNat scale.toNat frac.toNat →
      exec (.fxpCvtU16 raw16 scale frac) s = .next { s with ret := 2, retWritten := true }) ∧
    (2 ^ 32 ≤ fxExact raw16.toInt.natAbs scale.toNat frac.toNat →
      exec (.fxpCvtS16 raw16 scale frac) s = .next { s with ret := 2, retWritten := true }) ∧
    (2 ^ 32 ≤ fxExact raw32.toNat scale.toNat frac.toNat →
      exec (.fxpCvtU32 raw32 scale frac) s = .next { s with ret := 2, retWritten := true }) ∧
    (2 ^ 32 ≤ fxExact raw32.toInt.natAbs scale.toNat frac.toNat →
      exec (.fxpCvtS32 raw32 scale frac) s = .next { s with ret := 2, retWritten := true })

/-- Raw value 1 with scale factor 1 gives 1 at every number of fractional bits 0 to 31, for all four commands
(43_fixed_point.md R128 (a)). -/
def Obligations.OneTimesOneIsOne : Prop :=
  ∀ (s : State) (frac : Word) (i : Instr), frac.toNat ≤ 31 →
    i = .fxpCvtU16 1 1 frac ∨ i = .fxpCvtS16 1 1 frac ∨ i = .fxpCvtU32 1 1 frac ∨ i = .fxpCvtS32 1 1 frac →
    exec i s = .next { s with fxout := 1, fxoutWritten := true, ret := 0, retWritten := true }

/-- Symmetry: the signed commands give a sample and its negation the same return and, on success, results that are 32-bit
negations of each other (43_fixed_point.md R128 (b)). -/
def Obligations.NegatedSampleNegatesTheResult : Prop :=
  ∀ (s t u : State) (raw16 : BitVec 16) (raw32 scale frac : Word),
    (raw16 ≠ 0x8000 → exec (.fxpCvtS16 raw16 scale frac) s = .next t → exec (.fxpCvtS16 (-raw16) scale frac) s = .next u →
      u.ret = t.ret ∧ (t.ret = 0 → u.fxout = -t.fxout)) ∧
    (raw32 ≠ 0x80000000 → exec (.fxpCvtS32 raw32 scale frac) s = .next t →
      exec (.fxpCvtS32 (-raw32) scale frac) s = .next u → u.ret = t.ret ∧ (t.ret = 0 → u.fxout = -t.fxout))

/-- Monotonic failure: a conversion that overflows overflows at every larger legal number of fractional bits, for all four
commands (43_fixed_point.md R128 (c); the code 2 is the spec's decision D21). -/
def Obligations.OverflowIsMonotoneInFrac : Prop :=
  ∀ (s : State) (raw16 : BitVec 16) (raw32 scale frac frac' : Word), frac.toNat ≤ frac'.toNat → frac'.toNat ≤ 31 →
    (exec (.fxpCvtU16 raw16 scale frac) s = .next { s with ret := 2, retWritten := true } →
      exec (.fxpCvtU16 raw16 scale frac') s = .next { s with ret := 2, retWritten := true }) ∧
    (exec (.fxpCvtS16 raw16 scale frac) s = .next { s with ret := 2, retWritten := true } →
      exec (.fxpCvtS16 raw16 scale frac') s = .next { s with ret := 2, retWritten := true }) ∧
    (exec (.fxpCvtU32 raw32 scale frac) s = .next { s with ret := 2, retWritten := true } →
      exec (.fxpCvtU32 raw32 scale frac') s = .next { s with ret := 2, retWritten := true }) ∧
    (exec (.fxpCvtS32 raw32 scale frac) s = .next { s with ret := 2, retWritten := true } →
      exec (.fxpCvtS32 raw32 scale frac') s = .next { s with ret := 2, retWritten := true })

/-- The four commands agree where their samples do, and zero gives zero: a 16-bit sample converts as the 32-bit sample of the
same value, a sample that is not negative converts alike signed and unsigned, and `raw = 0` or `scale = 0` gives 0 at every
legal `frac`, with all four commands and every other operand at any value (43_fixed_point.md R128 (d), (e), (f)). -/
def Obligations.ConversionsAgree : Prop :=
  ∀ (s : State) (raw16 : BitVec 16) (raw32 scale frac : Word),
    (raw32.toNat = raw16.toNat → exec (.fxpCvtU16 raw16 scale frac) s = exec (.fxpCvtU32 raw32 scale frac) s) ∧
    (raw32.toInt = raw16.toInt → exec (.fxpCvtS16 raw16 scale frac) s = exec (.fxpCvtS32 raw32 scale frac) s) ∧
    (raw32.toNat ≤ 0x7FFFFFFF → exec (.fxpCvtS32 raw32 scale frac) s = exec (.fxpCvtU32 raw32 scale frac) s) ∧
    (frac.toNat ≤ 31 → raw16 = 0 ∨ scale = 0 →
      exec (.fxpCvtU16 raw16 scale frac) s =
        .next { s with fxout := 0, fxoutWritten := true, ret := 0, retWritten := true } ∧
      exec (.fxpCvtS16 raw16 scale frac) s =
        .next { s with fxout := 0, fxoutWritten := true, ret := 0, retWritten := true }) ∧
    (frac.toNat ≤ 31 → raw32 = 0 ∨ scale = 0 →
      exec (.fxpCvtU32 raw32 scale frac) s =
        .next { s with fxout := 0, fxoutWritten := true, ret := 0, retWritten := true } ∧
      exec (.fxpCvtS32 raw32 scale frac) s =
        .next { s with fxout := 0, fxoutWritten := true, ret := 0, retWritten := true })

/-- Results of FXP.CVT.S16 and FXP.CVT.S32 read as signed numbers, `x` the sample: with a magnitude below 2^31 FXOUT has the
sample's sign and that magnitude; a sample that is not negative with a magnitude of 2^31 or more reads negative; a negative one
reads -2^31, the correct value, with exactly 2^31 and positive with more; RET is 0 all the same (43_fixed_point.md R126,
R127). -/
def Obligations.SignedResultAsANumber : Prop :=
  ∀ (s t : State) (i : Instr) (raw16 : BitVec 16) (raw32 scale frac : Word) (x : Int),
    (i = .fxpCvtS16 raw16 scale frac ∧ x = raw16.toInt) ∨ (i = .fxpCvtS32 raw32 scale frac ∧ x = raw32.toInt) →
    exec i s = .next t → t.ret = 0 →
    (fxExact x.natAbs scale.toNat frac.toNat < 2 ^ 31 → t.fxout.toInt = x.sign * fxExact x.natAbs scale.toNat frac.toNat) ∧
    (2 ^ 31 ≤ fxExact x.natAbs scale.toNat frac.toNat → 0 ≤ x → t.fxout.toInt < 0) ∧
    (fxExact x.natAbs scale.toNat frac.toNat = 2 ^ 31 → x < 0 → t.fxout.toInt = -2 ^ 31) ∧
    (2 ^ 31 < fxExact x.natAbs scale.toNat frac.toNat → x < 0 → 0 < t.fxout.toInt)

/-- Qm.n: on success an unsigned result, of FXP.CVT.U16 or FXP.CVT.U32, read with `frac` fractional bits, is
`raw * scale / 2^31` rounded up by less than one unit in the last place; and so is the magnitude of a signed result, of
FXP.CVT.S16 or FXP.CVT.S32, wherever it is below 2^31, so that a negative result is rounded away from zero
(43_fixed_point.md R115, R117). -/
def Obligations.ResultIsTheScaledSampleRoundedUp : Prop :=
  ∀ (s t : State) (i : Instr) (raw16 : BitVec 16) (raw32 scale frac : Word) (mag res : Nat),
    (i = .fxpCvtU16 raw16 scale frac ∧ mag = raw16.toNat ∧ res = t.fxout.toNat) ∨
    (i = .fxpCvtU32 raw32 scale frac ∧ mag = raw32.toNat ∧ res = t.fxout.toNat) ∨
    (i = .fxpCvtS16 raw16 scale frac ∧ mag = raw16.toInt.natAbs ∧ res = t.fxout.toInt.natAbs ∧
      fxExact mag scale.toNat frac.toNat < 2 ^ 31) ∨
    (i = .fxpCvtS32 raw32 scale frac ∧ mag = raw32.toInt.natAbs ∧ res = t.fxout.toInt.natAbs ∧
      fxExact mag scale.toNat frac.toNat < 2 ^ 31) →
    exec i s = .next t → t.ret = 0 →
    (mag * scale.toNat : ℚ) / 2 ^ 31 ≤ (res : ℚ) / 2 ^ frac.toNat ∧
    (res : ℚ) / 2 ^ frac.toNat < (mag * scale.toNat : ℚ) / 2 ^ 31 + 1 / 2 ^ frac.toNat

/-! ## The alphabet -/

/-- Sanity: the alphabet is `A-Z a-z 0-9 + /` in this order, `DEC8` is its inverse and knows no other character, `=` among
them; three bytes in four groups and back give the bytes, four groups in three bytes and back the groups, by the machine's
layouts; and the text of three bytes is alphabet characters, of which neither `=` nor any legal filler is one
(40_base64_alphabet.md R67, R68, R71, R73, R74; the order and the codes are from general knowledge, K1 and K2). -/
def Obligations.AlphabetAndLayoutAreInvertible : Prop :=
  (List.range 64).map (fun n => (enc6 (BitVec.ofNat 6 n)).toNat) =
    "ABCDEFGHIJKLMNOPQRSTUVWXYZabcdefghijklmnopqrstuvwxyz0123456789+/".toList.map Char.toNat ∧
  (∀ (ch : Byte) (v : Group), dec8 ch = some v ↔ enc6 v = ch) ∧ dec8 0x3D = none ∧
  (∀ b₀ b₁ b₂ : Byte, byte0 (group0 b₀) (group1 b₀ b₁) = b₀ ∧ byte1 (group1 b₀ b₁) (group2 b₁ b₂) = b₁ ∧
    byte2 (group2 b₁ b₂) (group3 b₂) = b₂) ∧
  (∀ c₀ c₁ c₂ c₃ : Group, group0 (byte0 c₀ c₁) = c₀ ∧ group1 (byte0 c₀ c₁) (byte1 c₁ c₂) = c₁ ∧
    group2 (byte1 c₁ c₂) (byte2 c₂ c₃) = c₂ ∧ group3 (byte2 c₂ c₃) = c₃) ∧
  (∀ t, decodeLayout (encodeLayout t) = t) ∧ (∀ q, encodeLayout (decodeLayout q) = q) ∧
  (∀ b₀ b₁ b₂ : Byte, ∀ ch ∈ quantum b₀ b₁ b₂, ∃ v, ch = enc6 v) ∧
  (∀ v, enc6 v ≠ 0x3D) ∧ (∀ (p : Params) (v : Group), p.legal = true → enc6 v ≠ p.blkFill)

/-! ## Input that nothing has written -/

/-- B64S.MORE and B64.ENCB, where nothing refuses them, fault at the first byte of their input range that nothing has written
since reset (70_reset_and_hazards.md R153). That a byte nothing has written has no value is
notes/assumptions/6.md, from R25; that both commands read their whole input first is notes/assumptions/15.md, and the fault
keeps no state in which the difference could be seen. -/
def Obligations.UnwrittenInputByteFaults : Prop :=
  ∀ (s : State) (sid : BitVec 8) (x : Session) (inp len out : Word) (n : Nat),
    admitted s.params.memSize inp.toNat len.toNat = true → n < len.toNat →
    (∀ k, k < n → (s.mem.read (inp.toNat + k)).isSome = true) → s.mem.read (inp.toNat + n) = none →
    (s.session? sid = some x → x.active = true →
      x.total.toNat + 4 * ((x.cnt.count + len.toNat) / 3) ≤ 2 ^ 32 - 1 →
      exec (.b64sMore sid inp len) s = .fault (.unwrittenByte (inp.toNat + n))) ∧
    (s.params.hasEncb = true → admitted s.params.memSize out.toNat (encLen len.toNat) = true →
      encOverlapForbidden inp.toNat len.toNat out.toNat = false → encLen len.toNat ≤ 2 ^ 32 - 1 →
      exec (.b64Encb inp len out) s = .fault (.unwrittenByte (inp.toNat + n)))

/-- B64.DEC on a text of even length faults at the first character its scan reads that nothing has written since reset: behind
`n` alphabet characters the next one, or, where the next one opens a pair, the second of that pair, whatever the first is
(70_reset_and_hazards.md R153). That both characters of a pair are read before either is judged is the pseudocode of
41_base64_block.md R82, read as notes/assumptions/19.md says; that a byte nothing has written has no value is
notes/assumptions/6.md, from R25. -/
def Obligations.UnwrittenCharacterFaults : Prop :=
  ∀ (s : State) (inp len out : Word) (n : Nat) (g : Nat → Group),
    admitted s.params.memSize inp.toNat len.toNat = true → admitted s.params.memSize out.toNat (decMax len.toNat) = true →
    decOverlapForbidden inp.toNat len.toNat out.toNat = false → len.toNat % 2 = 0 → n < len.toNat → decMax n ≤ 65534 →
    s.mem.groupsAt inp.toNat n g →
    (s.mem.read (inp.toNat + n) = none → exec (.b64Dec inp len out) s = .fault (.unwrittenByte (inp.toNat + n))) ∧
    (n % 2 = 0 → (s.mem.read (inp.toNat + n)).isSome = true → s.mem.read (inp.toNat + n + 1) = none →
      exec (.b64Dec inp len out) s = .fault (.unwrittenByte (inp.toNat + n + 1)))
end

