-- ==== Sys2Proof/Laws/Alphabet.lean ====
section
/-! SUPPORT. The alphabet and the group layouts: inverse to each other (40_base64_alphabet.md R68, R71 to R74). -/

namespace Sys2Proof.Machine

/-- `DEC8(ENC6(v)) = v` (R68). -/
theorem dec8_enc6 (v : Group) : dec8 (enc6 v) = some v := by
  revert v; decide

/-- The other direction: `DEC8` gives a group only for the character of that group. -/
theorem enc6_of_dec8 {ch : Byte} {v : Group} (h : dec8 ch = some v) : enc6 v = ch := by
  revert ch v; decide

theorem dec8_eq_some {ch : Byte} {v : Group} : dec8 ch = some v ↔ enc6 v = ch :=
  ⟨enc6_of_dec8, fun h => h ▸ dec8_enc6 v⟩

theorem enc6_injective {v w : Group} (h : enc6 v = enc6 w) : v = w := by
  have := dec8_enc6 v
  rw [h, dec8_enc6] at this
  exact (Option.some.inj this).symm

@[simp] theorem dec8_pad : dec8 PAD = none := by decide

/-- R74 (c): `=` is the image of no group. -/
theorem enc6_ne_pad (v : Group) : enc6 v ≠ PAD := fun h => by
  have := dec8_enc6 v
  rw [h] at this; simp at this

@[simp] theorem classify_enc6 (v : Group) : classify (enc6 v) = .symbol v := by
  simp [classify, enc6_ne_pad, dec8_enc6]

@[simp] theorem classify_pad : classify PAD = .pad := by simp [classify]

theorem classify_eq_symbol {ch : Byte} {v : Group} : classify ch = .symbol v ↔ ch = enc6 v := by
  constructor
  · intro h
    unfold classify at h
    split at h
    · simp at h
    · split at h
      · next w hw => simp at h; rw [← h, enc6_of_dec8 hw]
      · simp at h
  · rintro rfl; simp

theorem classify_eq_pad {ch : Byte} : classify ch = .pad ↔ ch = PAD := by
  constructor
  · intro h
    unfold classify at h
    split at h
    · assumption
    · split at h <;> simp at h
  · rintro rfl; simp

theorem classify_eq_foreign {ch : Byte} : classify ch = .foreign ↔ ch ≠ PAD ∧ dec8 ch = none := by
  unfold classify
  by_cases h : ch = PAD
  · simp [h]
  · cases hd : dec8 ch <;> simp [h]

/-- A legal filler is a foreign character (R78, R85). -/
theorem classify_fill {b : Byte} (h : fillLegal b = true) : classify b = .foreign := by
  rw [classify_eq_foreign]
  simp only [fillLegal, Bool.and_eq_true, Option.isNone_iff_eq_none, bne_iff_ne, ne_eq] at h
  exact ⟨h.2, h.1⟩

/-- R74 (c): a legal filler is the image of no group. -/
theorem enc6_ne_fill {b : Byte} (h : fillLegal b = true) (v : Group) : enc6 v ≠ b := by
  rintro rfl
  simpa using classify_fill h

set_option maxRecDepth 4000 in
/-- Every filler that Config may have chosen is legal. -/
theorem fillLegal_blkFill : fillLegal Config.blkFill = true := by
  have hlen : Config.legalFills.length = 191 := by decide
  have hmem : Config.blkFill ∈ Config.legalFills := by
    have hi : Config.blkFillIndex.val < Config.legalFills.length := by rw [hlen]; exact Config.blkFillIndex.isLt
    rw [Config.blkFill, List.getD_eq_getElem _ _ hi]
    exact List.getElem_mem hi
  exact (List.mem_filter.mp hmem).2

/-! Layouts. Three bytes in four groups and back (R71, R73). -/

@[simp] theorem byte0_group (b0 b1 : Byte) : byte0 (group0 b0) (group1 b0 b1) = b0 := by
  apply BitVec.eq_of_getLsbD_eq
  intro i hi
  simp only [byte0, group0, group1, BitVec.getLsbD_append, BitVec.getLsbD_extractLsb']
  interval_cases i <;> simp

@[simp] theorem byte1_group (b0 b1 b2 : Byte) : byte1 (group1 b0 b1) (group2 b1 b2) = b1 := by
  apply BitVec.eq_of_getLsbD_eq
  intro i hi
  simp only [byte1, group1, group2, BitVec.getLsbD_append, BitVec.getLsbD_extractLsb']
  interval_cases i <;> simp

@[simp] theorem byte2_group (b1 b2 : Byte) : byte2 (group2 b1 b2) (group3 b2) = b2 := by
  apply BitVec.eq_of_getLsbD_eq
  intro i hi
  simp only [byte2, group2, group3, BitVec.getLsbD_append, BitVec.getLsbD_extractLsb']
  interval_cases i <;> simp

@[simp] theorem byte0_partial1 (b0 : Byte) : byte0 (group0 b0) (partial1 b0) = b0 := by
  apply BitVec.eq_of_getLsbD_eq
  intro i hi
  simp only [byte0, group0, partial1, BitVec.getLsbD_append, BitVec.getLsbD_extractLsb']
  interval_cases i <;> simp

@[simp] theorem byte1_partial2 (b0 b1 : Byte) : byte1 (group1 b0 b1) (partial2 b1) = b1 := by
  apply BitVec.eq_of_getLsbD_eq
  intro i hi
  simp only [byte1, group1, partial2, BitVec.getLsbD_append, BitVec.getLsbD_extractLsb']
  interval_cases i <;> simp

/-! Four groups in three bytes and back. -/

@[simp] theorem group0_byte (c0 c1 : Group) : group0 (byte0 c0 c1) = c0 := by
  apply BitVec.eq_of_getLsbD_eq
  intro i hi
  simp only [byte0, group0, BitVec.getLsbD_append, BitVec.getLsbD_extractLsb']
  interval_cases i <;> simp

@[simp] theorem group1_byte (c0 c1 c2 : Group) : group1 (byte0 c0 c1) (byte1 c1 c2) = c1 := by
  apply BitVec.eq_of_getLsbD_eq
  intro i hi
  simp only [byte0, byte1, group1, BitVec.getLsbD_append, BitVec.getLsbD_extractLsb']
  interval_cases i <;> simp

@[simp] theorem group2_byte (c1 c2 c3 : Group) : group2 (byte1 c1 c2) (byte2 c2 c3) = c2 := by
  apply BitVec.eq_of_getLsbD_eq
  intro i hi
  simp only [byte1, byte2, group2, BitVec.getLsbD_append, BitVec.getLsbD_extractLsb']
  interval_cases i <;> simp

@[simp] theorem group3_byte (c2 c3 : Group) : group3 (byte2 c2 c3) = c3 := by
  apply BitVec.eq_of_getLsbD_eq
  intro i hi
  simp only [byte2, group3, BitVec.getLsbD_append, BitVec.getLsbD_extractLsb']
  interval_cases i <;> simp

/-! The layouts as wholes, and what a quantum is made of (R74). -/

/-- R74 (a). -/
@[simp] theorem decodeLayout_encodeLayout (t : Byte × Byte × Byte) : decodeLayout (encodeLayout t) = t := by
  simp [decodeLayout, encodeLayout]

/-- R74 (b). -/
@[simp] theorem encodeLayout_decodeLayout (q : Group × Group × Group × Group) : encodeLayout (decodeLayout q) = q := by
  simp [decodeLayout, encodeLayout]

theorem quantum_eq (b0 b1 b2 : Byte) :
    quantum b0 b1 b2 = [enc6 (group0 b0), enc6 (group1 b0 b1), enc6 (group2 b1 b2), enc6 (group3 b2)] := rfl

@[simp] theorem length_quantum (b0 b1 b2 : Byte) : (quantum b0 b1 b2).length = 4 := rfl

/-- R74 (c): a quantum is alphabet characters. -/
theorem quantum_alphabet (b0 b1 b2 : Byte) : ∀ ch ∈ quantum b0 b1 b2, ∃ v, ch = enc6 v := by
  intro ch h
  simp only [quantum_eq, List.mem_cons, List.not_mem_nil, or_false] at h
  rcases h with h | h | h | h <;> exact ⟨_, h⟩

/-! Completing a stored partial group (42_base64_stream.md R101). -/

@[simp] theorem complete1_partial1 (b0 b1 : Byte) : complete1 (partial1 b0) b1 = group1 b0 b1 := by
  apply BitVec.eq_of_getLsbD_eq
  intro i hi
  simp only [complete1, partial1, group1, BitVec.getLsbD_append, BitVec.getLsbD_extractLsb']
  interval_cases i <;> simp

@[simp] theorem complete2_partial2 (b1 b2 : Byte) : complete2 (partial2 b1) b2 = group2 b1 b2 := by
  apply BitVec.eq_of_getLsbD_eq
  intro i hi
  simp only [complete2, partial2, group2, BitVec.getLsbD_append, BitVec.getLsbD_extractLsb']
  interval_cases i <;> simp

/-- Completing `c1` keeps the first pending byte. -/
@[simp] theorem byte0_complete1 (g0 g1 : Group) (b : Byte) : byte0 g0 (complete1 g1 b) = byte0 g0 g1 := by
  apply BitVec.eq_of_getLsbD_eq
  intro i hi
  simp only [byte0, complete1, BitVec.getLsbD_append, BitVec.getLsbD_extractLsb']
  interval_cases i <;> simp

/-- Completing `c1` makes the arriving byte the second pending one. -/
@[simp] theorem byte1_complete1 (g1 : Group) (b : Byte) : byte1 (complete1 g1 b) (partial2 b) = b := by
  apply BitVec.eq_of_getLsbD_eq
  intro i hi
  simp only [byte1, complete1, partial2, BitVec.getLsbD_append, BitVec.getLsbD_extractLsb']
  interval_cases i <;> simp

/-- The quantum of a session is the quantum of its pending bytes and the arriving one. -/
theorem group2_pending (g1 g2 : Group) (b : Byte) : group2 (byte1 g1 g2) b = complete2 g2 b := by
  apply BitVec.eq_of_getLsbD_eq
  intro i hi
  simp only [group2, byte1, complete2, BitVec.getLsbD_append, BitVec.getLsbD_extractLsb']
  interval_cases i <;> simp

@[simp] theorem extract_partial1 (b : Byte) : (partial1 b).extractLsb' 0 4 = 0 := by
  apply BitVec.eq_of_getLsbD_eq
  intro i hi
  simp only [partial1, BitVec.getLsbD_append, BitVec.getLsbD_extractLsb']
  interval_cases i <;> simp

@[simp] theorem extract_partial2 (b : Byte) : (partial2 b).extractLsb' 0 2 = 0 := by
  apply BitVec.eq_of_getLsbD_eq
  intro i hi
  simp only [partial2, BitVec.getLsbD_append, BitVec.getLsbD_extractLsb']
  interval_cases i <;> simp

/-- A stored partial `c1` with zero low bits is the partial group of the pending byte (R72). -/
theorem partial1_byte0 (g0 : Group) {g1 : Group} (h : g1.extractLsb' 0 4 = 0) : partial1 (byte0 g0 g1) = g1 := by
  have hb : ∀ i, i < 4 → g1.getLsbD i = false := fun i hi => by
    have := congrArg (fun v => BitVec.getLsbD v i) h
    simpa [hi] using this
  apply BitVec.eq_of_getLsbD_eq
  intro i hi
  simp only [partial1, byte0, BitVec.getLsbD_append, BitVec.getLsbD_extractLsb']
  have h0 := hb 0; have h1 := hb 1; have h2 := hb 2; have h3 := hb 3
  interval_cases i <;> simp_all

/-- A stored partial `c2` with zero low bits is the partial group of the second pending byte (R72). -/
theorem partial2_byte1 (g1 : Group) {g2 : Group} (h : g2.extractLsb' 0 2 = 0) : partial2 (byte1 g1 g2) = g2 := by
  have hb : ∀ i, i < 2 → g2.getLsbD i = false := fun i hi => by
    have := congrArg (fun v => BitVec.getLsbD v i) h
    simpa [hi] using this
  apply BitVec.eq_of_getLsbD_eq
  intro i hi
  simp only [partial2, byte1, BitVec.getLsbD_append, BitVec.getLsbD_extractLsb']
  have h0 := hb 0; have h1 := hb 1
  interval_cases i <;> simp_all

end Sys2Proof.Machine
end

