-- ==== Sys2Proof/Laws/Base64.lean ====
section
/-! SUPPORT. Standard Base64 three bytes at a time: the bit-string definition (42_base64_stream.md R107) unrolled into the
layout of 40_base64_alphabet.md R71 and R72. -/

namespace Sys2Proof.Machine

/-- The characters of all complete quanta of a sequence. -/
def quanta : List Byte → List Byte
  | b0 :: b1 :: b2 :: rest => quantum b0 b1 b2 ++ quanta rest
  | _ => []

/-- The bytes that no complete quantum covers. -/
def leftover : List Byte → List Byte
  | _ :: _ :: _ :: rest => leftover rest
  | bs => bs

/-- The characters of a leftover of fewer than three bytes (R72). -/
def tailText : List Byte → List Byte
  | [b0, b1] => [enc6 (group0 b0), enc6 (group1 b0 b1), enc6 (partial2 b1)]
  | [b0] => [enc6 (group0 b0), enc6 (partial1 b0)]
  | _ => []

/-- Induction three bytes at a time. -/
theorem tripleInduction {P : List Byte → Prop} (h0 : P []) (h1 : ∀ a, P [a]) (h2 : ∀ a b, P [a, b])
    (h3 : ∀ a b c rest, P rest → P (a :: b :: c :: rest)) : ∀ bs, P bs
  | [] => h0
  | [a] => h1 a
  | [a, b] => h2 a b
  | a :: b :: c :: rest => h3 a b c rest (tripleInduction h0 h1 h2 h3 rest)

theorem length_quanta (bs : List Byte) : (quanta bs).length = 4 * (bs.length / 3) := by
  induction bs using tripleInduction with
  | h0 => rfl
  | h1 a => simp [quanta]
  | h2 a b => simp [quanta]
  | h3 a b c rest ih => simp [quanta, quantum_eq, ih]; omega

theorem length_leftover (bs : List Byte) : (leftover bs).length = bs.length % 3 := by
  induction bs using tripleInduction with
  | h0 => rfl
  | h1 a => rfl
  | h2 a b => rfl
  | h3 a b c rest ih => simp only [leftover, ih, List.length_cons]; omega

/-- Complete quanta and what is left over make up the sequence. -/
theorem leftover_eq_drop (bs : List Byte) : leftover bs = bs.drop (3 * (bs.length / 3)) := by
  induction bs using tripleInduction with
  | h0 => rfl
  | h1 a => simp [leftover]
  | h2 a b => simp [leftover]
  | h3 a b c rest ih =>
    rw [leftover, ih]
    simp only [List.length_cons]
    rw [show 3 * ((rest.length + 1 + 1 + 1) / 3) = 3 * (rest.length / 3) + 3 by omega]
    rfl

theorem quanta_append_leftover (xs ys : List Byte) : quanta (xs ++ ys) = quanta xs ++ quanta (leftover xs ++ ys) := by
  induction xs using tripleInduction with
  | h0 => rfl
  | h1 a => rfl
  | h2 a b => rfl
  | h3 a b c rest ih => simp [quanta, leftover, ih]

theorem leftover_append (xs ys : List Byte) : leftover (xs ++ ys) = leftover (leftover xs ++ ys) := by
  induction xs using tripleInduction with
  | h0 => rfl
  | h1 a => rfl
  | h2 a b => rfl
  | h3 a b c rest ih => simp [leftover, ih]

/-- Only alphabet characters. -/
theorem quanta_alphabet (bs : List Byte) : ∀ ch ∈ quanta bs, ∃ v, ch = enc6 v := by
  induction bs using tripleInduction with
  | h0 => simp [quanta]
  | h1 a => simp [quanta]
  | h2 a b => simp [quanta]
  | h3 a b c rest ih =>
    intro ch hc
    exact (List.mem_append.mp hc).elim (quantum_alphabet a b c ch) (ih ch)

theorem tailText_alphabet (bs : List Byte) : ∀ ch ∈ tailText bs, ∃ v, ch = enc6 v := by
  intro ch hc
  unfold tailText at hc
  split at hc
  · simp only [List.mem_cons, List.not_mem_nil, or_false] at hc
    rcases hc with h | h | h <;> exact ⟨_, h⟩
  · simp only [List.mem_cons, List.not_mem_nil, or_false] at hc
    rcases hc with h | h <;> exact ⟨_, h⟩
  · simp at hc

/-! The bit string. -/

/-- Bit `i` of the number of six bits, the first the most significant. -/
theorem getLsbD_six (a b c d e f : Bool) (i : Nat) (h : i < 6) :
    (BitVec.ofNat 6 (bitsValue [a, b, c, d, e, f])).getLsbD i = [f, e, d, c, b, a].getD i false := by
  revert a b c d e f i
  decide

/-- A group is the number of its six bits. -/
theorem group_of_bits (g : Group) (a b c d e f : Bool)
    (h : [a, b, c, d, e, f] = [g.getLsbD 5, g.getLsbD 4, g.getLsbD 3, g.getLsbD 2, g.getLsbD 1, g.getLsbD 0]) :
    BitVec.ofNat 6 (bitsValue [a, b, c, d, e, f]) = g := by
  simp only [List.cons.injEq, and_true] at h
  obtain ⟨rfl, rfl, rfl, rfl, rfl, rfl⟩ := h
  apply BitVec.eq_of_getLsbD_eq
  intro i hi
  rw [getLsbD_six _ _ _ _ _ _ i hi]
  interval_cases i <;> rfl

theorem bitString_cons (b : Byte) (bs : List Byte) :
    bitString (b :: bs) = [b.getMsbD 0, b.getMsbD 1, b.getMsbD 2, b.getMsbD 3, b.getMsbD 4, b.getMsbD 5, b.getMsbD 6,
      b.getMsbD 7] ++ bitString bs := rfl

theorem length_bitString (bs : List Byte) : (bitString bs).length = 8 * bs.length := by
  induction bs with
  | nil => rfl
  | cons b bs ih => rw [bitString_cons]; simp [ih]; omega

/-- The bits of a character, spelled out. -/
theorem stdChar_eq (bits : List Bool) (j : Nat) :
    stdChar bits j = enc6 (BitVec.ofNat 6 (bitsValue [bits.getD (6 * j) false, bits.getD (6 * j + 1) false,
      bits.getD (6 * j + 2) false, bits.getD (6 * j + 3) false, bits.getD (6 * j + 4) false, bits.getD (6 * j + 5) false])) :=
  rfl

/-- Past the first three bytes the characters are those of the rest. -/
theorem stdChar_add_four (b0 b1 b2 : Byte) (rest : List Byte) (j : Nat) :
    stdChar (bitString (b0 :: b1 :: b2 :: rest)) (j + 4) = stdChar (bitString rest) j := by
  have key : ∀ i, (bitString (b0 :: b1 :: b2 :: rest)).getD (24 + i) false = (bitString rest).getD i false := by
    intro i
    have hl : (bitString [b0, b1, b2]).length = 24 := length_bitString _
    have hs : bitString (b0 :: b1 :: b2 :: rest) = bitString [b0, b1, b2] ++ bitString rest := by
      simp [bitString]
    rw [hs, List.getD_eq_getElem?_getD, List.getD_eq_getElem?_getD, List.getElem?_append_right (by omega), hl,
      Nat.add_sub_cancel_left]
  rw [stdChar_eq, stdChar_eq]
  simp only [show 6 * (j + 4) = 24 + 6 * j by omega, Nat.add_assoc, key]

/-- The characters of the first three bytes. -/
theorem stdChar_quantum (b0 b1 b2 : Byte) (rest : List Byte) :
    (List.range 4).map (stdChar (bitString (b0 :: b1 :: b2 :: rest))) = quantum b0 b1 b2 := by
  simp only [List.range, List.range.loop, List.map_cons, List.map_nil, quantum_eq, stdChar_eq, bitString_cons]
  congr 2
  · exact group_of_bits _ _ _ _ _ _ _ (by simp [group0, BitVec.getMsbD])
  congr 2
  · exact group_of_bits _ _ _ _ _ _ _ (by
      simp only [group1, BitVec.getLsbD_append, BitVec.getLsbD_extractLsb']; simp [BitVec.getMsbD])
  congr 2
  · exact group_of_bits _ _ _ _ _ _ _ (by
      simp only [group2, BitVec.getLsbD_append, BitVec.getLsbD_extractLsb']; simp [BitVec.getMsbD])
  exact congrArg enc6 (group_of_bits (group3 b2) _ _ _ _ _ _ (by simp [group3, BitVec.getMsbD]))

/-- Standard Base64 without padding: complete quanta, then the tail. -/
theorem stdUnpadded_eq (bs : List Byte) : stdUnpadded bs = quanta bs ++ tailText (leftover bs) := by
  induction bs using tripleInduction with
  | h0 => rfl
  | h1 a =>
    simp only [stdUnpadded, quanta, leftover, tailText, List.nil_append, List.length_cons, List.length_nil]
    simp only [List.range, List.range.loop, List.map_cons, List.map_nil, stdChar_eq, bitString_cons]
    congr 2
    · exact group_of_bits _ _ _ _ _ _ _ (by simp [group0, BitVec.getMsbD])
    congr 2
    · exact group_of_bits _ _ _ _ _ _ _ (by
        simp only [partial1, BitVec.getLsbD_append, BitVec.getLsbD_extractLsb']; simp [BitVec.getMsbD, bitString])
  | h2 a b =>
    simp only [stdUnpadded, quanta, leftover, tailText, List.nil_append, List.length_cons, List.length_nil]
    simp only [List.range, List.range.loop, List.map_cons, List.map_nil, stdChar_eq, bitString_cons]
    congr 2
    · exact group_of_bits _ _ _ _ _ _ _ (by simp [group0, BitVec.getMsbD])
    congr 2
    · exact group_of_bits _ _ _ _ _ _ _ (by
        simp only [group1, BitVec.getLsbD_append, BitVec.getLsbD_extractLsb']; simp [BitVec.getMsbD])
    congr 2
    · exact group_of_bits _ _ _ _ _ _ _ (by
        simp only [partial2, BitVec.getLsbD_append, BitVec.getLsbD_extractLsb']; simp [BitVec.getMsbD, bitString])
  | h3 a b c rest ih =>
    have hn : (8 * (a :: b :: c :: rest).length + 5) / 6 = 4 + (8 * rest.length + 5) / 6 := by
      simp only [List.length_cons]; omega
    rw [quanta, leftover, List.append_assoc, ← ih, stdUnpadded, hn, List.range_add, List.map_append, stdChar_quantum,
      List.map_map]
    congr 1
    apply List.map_congr_left
    intro j _
    simp only [Function.comp_apply, Nat.add_comm 4 j, stdChar_add_four]

/-- How many `=` a sequence takes: none, two, one. -/
theorem stdPadCount_eq (n : Nat) : stdPadCount n = if n % 3 = 0 then 0 else if n % 3 = 1 then 2 else 1 := by
  unfold stdPadCount
  have h : n = 3 * (n / 3) + n % 3 := by omega
  have hr : n % 3 < 3 := Nat.mod_lt _ (by omega)
  have e : (8 * n + 5) / 6 = 4 * (n / 3) + (8 * (n % 3) + 5) / 6 := by omega
  rw [e]
  split_ifs <;> omega

theorem length_stdUnpadded (bs : List Byte) : (stdUnpadded bs).length = (8 * bs.length + 5) / 6 := by
  simp [stdUnpadded]

/-- The padded text has `4 * ceil(n / 3)` characters (R107). -/
theorem length_stdBase64 (bs : List Byte) : (stdBase64 bs).length = encLen bs.length := by
  simp only [stdBase64, List.length_append, List.length_replicate, length_stdUnpadded, stdPadCount_eq, encLen]
  split_ifs <;> omega

end Sys2Proof.Machine
end

