-- ==== Sys2Proof/Laws/Memory.lean ====
section
/-! SUPPORT. What reading and writing buffer memory can do, and that every memory operation keeps the canonical form. -/

namespace Sys2Proof.Machine

/-- A read after a write: the value written at its address, the old value everywhere else. -/
theorem Memory.read_write (m : Memory) (a : Nat) (v : Byte) (b : Nat) :
    (m.write a v).read b = if b = a then some v else m.read b := by
  induction m with
  | nil => simp [Memory.write, Memory.read]
  | cons c rest ih =>
    obtain ⟨k, w⟩ := c
    simp only [Memory.write]
    split
    · simp [Memory.read]
    · split
      · next h => subst h; by_cases hb : b = a <;> simp [Memory.read, hb]
      · next h1 h2 =>
        by_cases hk : b = k
        · have : b ≠ a := fun e => h2 (e ▸ hk)
          simp [Memory.read, hk, Ne.symm h2]
        · simp [Memory.read, hk, ih]

@[simp] theorem Memory.read_write_self (m : Memory) (a : Nat) (v : Byte) : (m.write a v).read a = some v := by
  simp [Memory.read_write]

theorem Memory.read_write_ne (m : Memory) {a b : Nat} (v : Byte) (h : b ≠ a) : (m.write a v).read b = m.read b := by
  simp [Memory.read_write, h]

/-! Writing a sequence. -/

/-- A read after a sequence was written. -/
theorem Memory.read_writeBytes (bs : List Byte) (m : Memory) (a b : Nat) :
    (m.writeBytes a bs).read b = if a ≤ b ∧ b < a + bs.length then bs[b - a]? else m.read b := by
  induction bs generalizing m a with
  | nil => simp [Memory.writeBytes]
  | cons v vs ih =>
    rw [Memory.writeBytes, ih]
    rcases Nat.lt_trichotomy b a with h | h | h
    · simp [show ¬ a + 1 ≤ b by omega, show ¬ a ≤ b by omega, Memory.read_write_ne m v (by omega : b ≠ a)]
    · subst h; simp
    · have e : b - a = (b - (a + 1)) + 1 := by omega
      simp only [List.length_cons, e, List.getElem?_cons_succ, Memory.read_write_ne m v (by omega : b ≠ a)]
      by_cases hc : b < a + 1 + vs.length
      · rw [if_pos ⟨by omega, hc⟩, if_pos ⟨by omega, by omega⟩]
      · rw [if_neg (by omega), if_neg (by omega)]

/-- A written sequence is held. -/
theorem Memory.holds_writeBytes (m : Memory) (a : Nat) (bs : List Byte) : (m.writeBytes a bs).holds a bs := by
  intro k hk
  rw [Memory.read_writeBytes, if_pos ⟨by omega, by omega⟩]
  congr 1; omega

/-- Writing a sequence changes nothing outside its locations. -/
theorem Memory.sameOutside_writeBytes (m : Memory) (a : Nat) (bs : List Byte) :
    m.sameOutside (m.writeBytes a bs) a bs.length := by
  intro b hb
  rw [Memory.read_writeBytes, if_neg (by omega)]

theorem Memory.writeBytes_append (m : Memory) (a : Nat) (xs ys : List Byte) :
    m.writeBytes a (xs ++ ys) = (m.writeBytes a xs).writeBytes (a + xs.length) ys := by
  induction xs generalizing m a with
  | nil => rfl
  | cons v vs ih =>
    simp only [List.cons_append, Memory.writeBytes, ih, List.length_cons]
    congr 1; omega

/-- Giving locations free values changes nothing outside them. -/
theorem Memory.sameOutside_writeFree (n : Nat) (m : Memory) (a c : Nat) : m.sameOutside (m.writeFree a c n) a n := by
  induction n generalizing m a c with
  | zero => intro b _; rfl
  | succ n ih =>
    intro b hb
    rw [Memory.writeFree, ih _ _ _ b (by omega), Memory.read_write_ne m _ (by omega)]

/-- A location with a free value reads as some byte. -/
theorem Memory.read_writeFree (n : Nat) (m : Memory) (a c : Nat) {k : Nat} (h : k < n) :
    (m.writeFree a c n).read (a + k) = some (Config.freeByte (c + k)) := by
  induction n generalizing m a c k with
  | zero => omega
  | succ n ih =>
    rw [Memory.writeFree]
    rcases k with _ | k
    · rw [Memory.sameOutside_writeFree n _ (a + 1) (c + 1) _ (by omega)]; simp
    · have := ih (m.write a (Config.freeByte c)) (a + 1) (c + 1) (k := k) (by omega)
      rw [show a + (k + 1) = a + 1 + k by omega, this, show c + (k + 1) = c + 1 + k by omega]

/-! Reading a sequence. -/

theorem Memory.readByte_eq_ok {m : Memory} {a : Nat} {v : Byte} : m.readByte a = .ok v ↔ m.read a = some v := by
  unfold Memory.readByte
  cases h : m.read a <;> simp

/-- A read that succeeds gives exactly what memory holds. -/
theorem Memory.readBytes_eq_ok {m : Memory} {n : Nat} {a : Nat} {bs : List Byte} :
    m.readBytes a n = .ok bs ↔ bs.length = n ∧ m.holds a bs := by
  induction n generalizing a bs with
  | zero =>
    simp only [Memory.readBytes, Except.ok.injEq]
    constructor
    · rintro rfl; exact ⟨rfl, fun k hk => by simp at hk⟩
    · rintro ⟨h, -⟩; exact (List.length_eq_zero_iff.mp h).symm
  | succ n ih =>
    simp only [Memory.readBytes]
    cases hr : m.read a with
    | none =>
      have : m.readByte a = .error (.unwrittenByte a) := by simp [Memory.readByte, hr]
      simp only [this, reduceCtorEq, false_iff]
      rintro ⟨hl, hh⟩
      have h0 := hh 0 (by omega)
      cases bs with
      | nil => simp at hl
      | cons v vs => rw [Nat.add_zero] at h0; simp [hr] at h0
    | some v =>
      rw [Memory.readByte_eq_ok.mpr hr]
      constructor
      · intro h
        cases ht : m.readBytes (a + 1) n with
        | error f => simp [ht] at h
        | ok vs =>
          simp only [ht, Except.ok.injEq] at h
          subst h
          obtain ⟨hl, hh⟩ := ih.mp ht
          refine ⟨by simp [hl], fun k hk => ?_⟩
          rcases k with _ | k
          · simpa using hr
          · have := hh k (by simpa using hk)
            rw [show a + (k + 1) = a + 1 + k by omega, this]; simp
      · rintro ⟨hl, hh⟩
        cases bs with
        | nil => simp at hl
        | cons w ws =>
          have h0 := hh 0 (by simp)
          rw [Nat.add_zero, hr] at h0
          have hw : v = w := by simpa using h0
          have : m.readBytes (a + 1) n = .ok ws := ih.mpr ⟨by simpa using hl, fun k hk => by
            have := hh (k + 1) (by simpa using hk)
            rw [show a + 1 + k = a + (k + 1) by omega, this]; simp⟩
          simp [this, hw]

/-- A read that fails faults at the first byte that nothing has written (R153). -/
theorem Memory.readBytes_eq_error {m : Memory} {n a : Nat} {f : Fault} :
    m.readBytes a n = .error f ↔
      ∃ k, k < n ∧ (∀ j, j < k → (m.read (a + j)).isSome = true) ∧ m.read (a + k) = none ∧ f = .unwrittenByte (a + k) := by
  induction n generalizing a with
  | zero => simp [Memory.readBytes]
  | succ n ih =>
    simp only [Memory.readBytes]
    cases hr : m.read a with
    | none =>
      have : m.readByte a = .error (.unwrittenByte a) := by simp [Memory.readByte, hr]
      simp only [this, Except.error.injEq]
      constructor
      · rintro rfl; exact ⟨0, by omega, fun j hj => by omega, hr, rfl⟩
      · rintro ⟨k, -, hs, -, rfl⟩
        rcases k with _ | k
        · rfl
        · have := hs 0 (by omega)
          simp [hr] at this
    | some v =>
      rw [Memory.readByte_eq_ok.mpr hr]
      refine Iff.trans (b := m.readBytes (a + 1) n = .error f) (by cases m.readBytes (a + 1) n <;> simp) (ih.trans ?_)
      constructor
      · rintro ⟨k, hk, hs, hn, rfl⟩
        refine ⟨k + 1, by omega, fun j hj => ?_, ?_, ?_⟩
        · rcases j with _ | j
          · simp [hr]
          · have := hs j (by omega)
            rwa [show a + 1 + j = a + (j + 1) by omega] at this
        · rwa [show a + (k + 1) = a + 1 + k by omega]
        · rw [show a + (k + 1) = a + 1 + k by omega]
      · rintro ⟨k, hk, hs, hn, rfl⟩
        rcases k with _ | k
        · simp [hr] at hn
        · refine ⟨k, by omega, fun j hj => ?_, ?_, ?_⟩
          · have := hs (j + 1) (by omega)
            rwa [show a + (j + 1) = a + 1 + j by omega] at this
          · rwa [show a + (k + 1) = a + 1 + k by omega] at hn
          · rw [show a + (k + 1) = a + 1 + k by omega]

/-- A sequence of bytes is determined by the memory that holds it. -/
theorem Memory.holds_unique {m : Memory} {a : Nat} {xs ys : List Byte} (hx : m.holds a xs) (hy : m.holds a ys)
    (hl : xs.length = ys.length) : xs = ys := by
  apply List.ext_getElem?
  intro k
  by_cases hk : k < xs.length
  · rw [← hx k hk, hy k (hl ▸ hk)]
  · rw [List.getElem?_eq_none (by omega), List.getElem?_eq_none (by omega)]

theorem Memory.holds_append {m : Memory} {a : Nat} {xs ys : List Byte} :
    m.holds a (xs ++ ys) ↔ m.holds a xs ∧ m.holds (a + xs.length) ys := by
  constructor
  · intro h
    refine ⟨fun k hk => ?_, fun k hk => ?_⟩
    · rw [h k (by simp; omega), List.getElem?_append_left hk]
    · rw [show a + xs.length + k = a + (xs.length + k) by omega, h _ (by simp; omega),
        List.getElem?_append_right (by omega)]
      congr 1; omega
  · rintro ⟨h1, h2⟩ k hk
    by_cases hx : k < xs.length
    · rw [h1 k hx, List.getElem?_append_left hx]
    · have := h2 (k - xs.length) (by simp at hk; omega)
      rw [show a + xs.length + (k - xs.length) = a + k by omega] at this
      rw [this, List.getElem?_append_right (by omega)]

theorem Memory.holds_cons {m : Memory} {a : Nat} {v : Byte} {vs : List Byte} :
    m.holds a (v :: vs) ↔ m.read a = some v ∧ m.holds (a + 1) vs := by
  have := Memory.holds_append (m := m) (a := a) (xs := [v]) (ys := vs)
  rw [List.singleton_append] at this
  rw [this]
  constructor
  · rintro ⟨h1, h2⟩; exact ⟨by simpa using h1 0 (by simp), h2⟩
  · rintro ⟨h1, h2⟩
    refine ⟨fun k hk => ?_, h2⟩
    have : k = 0 := by simpa using hk
    subst this; simpa using h1

/-- Memory that agrees on the locations holds the same sequence. -/
theorem Memory.holds_congr {m m' : Memory} {a : Nat} {bs : List Byte}
    (h : ∀ k, k < bs.length → m'.read (a + k) = m.read (a + k)) : m'.holds a bs ↔ m.holds a bs := by
  constructor
  · intro hh k hk; rw [← h k hk, hh k hk]
  · intro hh k hk; rw [h k hk, hh k hk]

/-! The canonical form. -/

theorem Memory.wf_cons {k : Nat} {v : Byte} {rest : Memory} :
    Memory.wf ((k, v) :: rest) = true ↔ (∀ c ∈ rest, k < c.1) ∧ Memory.wf rest = true := by
  induction rest generalizing k v with
  | nil => simp [Memory.wf]
  | cons c rest ih =>
    obtain ⟨k', v'⟩ := c
    simp only [Memory.wf, Bool.and_eq_true, decide_eq_true_eq, List.mem_cons, forall_eq_or_imp]
    constructor
    · rintro ⟨h1, h2⟩
      exact ⟨⟨h1, fun c hc => Nat.lt_trans h1 ((ih.mp h2).1 c hc)⟩, h2⟩
    · rintro ⟨⟨h1, -⟩, h2⟩; exact ⟨h1, h2⟩

/-- What a write can list: the cell written and cells listed before. -/
theorem Memory.mem_write {m : Memory} {a : Nat} {v : Byte} {c : Host.Cell} (h : c ∈ m.write a v) :
    c = (a, v) ∨ c ∈ m := by
  induction m with
  | nil => simpa [Memory.write] using h
  | cons d rest ih =>
    obtain ⟨k, w⟩ := d
    simp only [Memory.write] at h
    split at h
    · simpa using h
    · split at h
      · next hk =>
        rcases List.mem_cons.mp h with h | h
        · exact .inl (by rw [h, ‹a = k›])
        · exact .inr (List.mem_cons_of_mem _ h)
      · rcases List.mem_cons.mp h with h | h
        · exact .inr (by simp [h])
        · exact (ih h).imp_right (List.mem_cons_of_mem _)

/-- A write keeps the canonical form. -/
theorem Memory.wf_write {m : Memory} (a : Nat) (v : Byte) (h : m.wf = true) : (m.write a v).wf = true := by
  induction m with
  | nil => rfl
  | cons d rest ih =>
    obtain ⟨k, w⟩ := d
    obtain ⟨h1, h2⟩ := Memory.wf_cons.mp h
    simp only [Memory.write]
    split
    · next hk =>
      refine Memory.wf_cons.mpr ⟨?_, h⟩
      intro c hc
      rcases List.mem_cons.mp hc with rfl | hc
      · exact hk
      · exact Nat.lt_trans hk (h1 c hc)
    · split
      · exact Memory.wf_cons.mpr ⟨h1, h2⟩
      · refine Memory.wf_cons.mpr ⟨?_, ih h2⟩
        intro c hc
        rcases Memory.mem_write hc with rfl | hc
        · simp; omega
        · exact h1 c hc

/-- Writing a sequence keeps the canonical form. -/
theorem Memory.wf_writeBytes (bs : List Byte) {m : Memory} (a : Nat) (h : m.wf = true) : (m.writeBytes a bs).wf = true := by
  induction bs generalizing m a with
  | nil => exact h
  | cons v vs ih => exact ih _ (Memory.wf_write _ _ h)

/-- Giving locations free values keeps the canonical form. -/
theorem Memory.wf_writeFree (n : Nat) {m : Memory} (a c : Nat) (h : m.wf = true) : (m.writeFree a c n).wf = true := by
  induction n generalizing m a c with
  | zero => exact h
  | succ n ih => exact ih _ _ (Memory.wf_write _ _ h)

/-- Every listed location stays below a bound that the write respects. -/
theorem Memory.inside_write {m : Memory} {a N : Nat} (v : Byte) (h : ∀ c ∈ m, c.1 < N) (ha : a < N) :
    ∀ c ∈ m.write a v, c.1 < N := by
  intro c hc
  rcases Memory.mem_write hc with rfl | hc
  · exact ha
  · exact h c hc

theorem Memory.inside_writeBytes (bs : List Byte) {m : Memory} {a N : Nat} (h : ∀ c ∈ m, c.1 < N)
    (ha : bs = [] ∨ a + bs.length ≤ N) : ∀ c ∈ m.writeBytes a bs, c.1 < N := by
  induction bs generalizing m a with
  | nil => exact h
  | cons v vs ih =>
    have : a + (vs.length + 1) ≤ N := by simpa using ha
    exact ih (Memory.inside_write v h (by omega)) (.inr (by omega))

theorem Memory.inside_writeFree (n : Nat) {m : Memory} {a c N : Nat} (h : ∀ c ∈ m, c.1 < N)
    (ha : n = 0 ∨ a + n ≤ N) : ∀ d ∈ m.writeFree a c n, d.1 < N := by
  induction n generalizing m a c with
  | zero => exact h
  | succ n ih => exact ih (Memory.inside_write _ h (by omega)) (by omega)

end Sys2Proof.Machine
end

