-- ==== Sys2Proof/Laws/State.lean ====
section
/-! SUPPORT. One lemma per field per named update of the state and of a session, each by rfl. -/

namespace Sys2Proof.Machine

/-! `State.setSession`. -/

@[simp] theorem State.setSession_params (s : State) (sid : BitVec 8) (x : Session) : (s.setSession sid x).params = s.params := rfl
@[simp] theorem State.setSession_sessions (s : State) (sid : BitVec 8) (x : Session) : (s.setSession sid x).sessions = s.sessions.set sid.toNat x := rfl
@[simp] theorem State.setSession_ret (s : State) (sid : BitVec 8) (x : Session) : (s.setSession sid x).ret = s.ret := rfl
@[simp] theorem State.setSession_retWritten (s : State) (sid : BitVec 8) (x : Session) : (s.setSession sid x).retWritten = s.retWritten := rfl
@[simp] theorem State.setSession_fxout (s : State) (sid : BitVec 8) (x : Session) : (s.setSession sid x).fxout = s.fxout := rfl
@[simp] theorem State.setSession_fxoutWritten (s : State) (sid : BitVec 8) (x : Session) : (s.setSession sid x).fxoutWritten = s.fxoutWritten := rfl
@[simp] theorem State.setSession_mem (s : State) (sid : BitVec 8) (x : Session) : (s.setSession sid x).mem = s.mem := rfl
@[simp] theorem State.setSession_emissions (s : State) (sid : BitVec 8) (x : Session) : (s.setSession sid x).emissions = s.emissions := rfl
@[simp] theorem State.setSession_inputs (s : State) (sid : BitVec 8) (x : Session) : (s.setSession sid x).inputs = s.inputs := rfl
@[simp] theorem State.setSession_views (s : State) (sid : BitVec 8) (x : Session) : (s.setSession sid x).views = s.views := rfl
@[simp] theorem State.setSession_free (s : State) (sid : BitVec 8) (x : Session) : (s.setSession sid x).free = s.free := rfl

/-! `State.complete`. -/

@[simp] theorem State.complete_params (s : State) (v : Word) : (s.complete v).params = s.params := rfl
@[simp] theorem State.complete_sessions (s : State) (v : Word) : (s.complete v).sessions = s.sessions := rfl
@[simp] theorem State.complete_ret (s : State) (v : Word) : (s.complete v).ret = v := rfl
@[simp] theorem State.complete_retWritten (s : State) (v : Word) : (s.complete v).retWritten = true := rfl
@[simp] theorem State.complete_fxout (s : State) (v : Word) : (s.complete v).fxout = s.fxout := rfl
@[simp] theorem State.complete_fxoutWritten (s : State) (v : Word) : (s.complete v).fxoutWritten = s.fxoutWritten := rfl
@[simp] theorem State.complete_mem (s : State) (v : Word) : (s.complete v).mem = s.mem := rfl
@[simp] theorem State.complete_emissions (s : State) (v : Word) : (s.complete v).emissions = s.emissions := rfl
@[simp] theorem State.complete_inputs (s : State) (v : Word) : (s.complete v).inputs = s.inputs := rfl
@[simp] theorem State.complete_views (s : State) (v : Word) : (s.complete v).views = s.views := rfl
@[simp] theorem State.complete_free (s : State) (v : Word) : (s.complete v).free = s.free := rfl

/-! `State.setFxout`. -/

@[simp] theorem State.setFxout_params (s : State) (v : Word) : (s.setFxout v).params = s.params := rfl
@[simp] theorem State.setFxout_sessions (s : State) (v : Word) : (s.setFxout v).sessions = s.sessions := rfl
@[simp] theorem State.setFxout_ret (s : State) (v : Word) : (s.setFxout v).ret = s.ret := rfl
@[simp] theorem State.setFxout_retWritten (s : State) (v : Word) : (s.setFxout v).retWritten = s.retWritten := rfl
@[simp] theorem State.setFxout_fxout (s : State) (v : Word) : (s.setFxout v).fxout = v := rfl
@[simp] theorem State.setFxout_fxoutWritten (s : State) (v : Word) : (s.setFxout v).fxoutWritten = true := rfl
@[simp] theorem State.setFxout_mem (s : State) (v : Word) : (s.setFxout v).mem = s.mem := rfl
@[simp] theorem State.setFxout_emissions (s : State) (v : Word) : (s.setFxout v).emissions = s.emissions := rfl
@[simp] theorem State.setFxout_inputs (s : State) (v : Word) : (s.setFxout v).inputs = s.inputs := rfl
@[simp] theorem State.setFxout_views (s : State) (v : Word) : (s.setFxout v).views = s.views := rfl
@[simp] theorem State.setFxout_free (s : State) (v : Word) : (s.setFxout v).free = s.free := rfl

/-! `State.failWith`. -/

@[simp] theorem State.failWith_params (s : State) (c : Word) : (s.failWith c).params = s.params := rfl
@[simp] theorem State.failWith_sessions (s : State) (c : Word) : (s.failWith c).sessions = s.sessions := rfl
@[simp] theorem State.failWith_ret (s : State) (c : Word) : (s.failWith c).ret = c := rfl
@[simp] theorem State.failWith_retWritten (s : State) (c : Word) : (s.failWith c).retWritten = true := rfl
@[simp] theorem State.failWith_fxout (s : State) (c : Word) : (s.failWith c).fxout = s.fxout := rfl
@[simp] theorem State.failWith_fxoutWritten (s : State) (c : Word) : (s.failWith c).fxoutWritten = s.fxoutWritten := rfl
@[simp] theorem State.failWith_mem (s : State) (c : Word) : (s.failWith c).mem = s.mem := rfl
@[simp] theorem State.failWith_emissions (s : State) (c : Word) : (s.failWith c).emissions = s.emissions := rfl
@[simp] theorem State.failWith_inputs (s : State) (c : Word) : (s.failWith c).inputs = s.inputs := rfl
@[simp] theorem State.failWith_views (s : State) (c : Word) : (s.failWith c).views = s.views := rfl
@[simp] theorem State.failWith_free (s : State) (c : Word) : (s.failWith c).free = s.free := rfl

/-! `State.setMem`. -/

@[simp] theorem State.setMem_params (s : State) (m : Memory) : (s.setMem m).params = s.params := rfl
@[simp] theorem State.setMem_sessions (s : State) (m : Memory) : (s.setMem m).sessions = s.sessions := rfl
@[simp] theorem State.setMem_ret (s : State) (m : Memory) : (s.setMem m).ret = s.ret := rfl
@[simp] theorem State.setMem_retWritten (s : State) (m : Memory) : (s.setMem m).retWritten = s.retWritten := rfl
@[simp] theorem State.setMem_fxout (s : State) (m : Memory) : (s.setMem m).fxout = s.fxout := rfl
@[simp] theorem State.setMem_fxoutWritten (s : State) (m : Memory) : (s.setMem m).fxoutWritten = s.fxoutWritten := rfl
@[simp] theorem State.setMem_mem (s : State) (m : Memory) : (s.setMem m).mem = m := rfl
@[simp] theorem State.setMem_emissions (s : State) (m : Memory) : (s.setMem m).emissions = s.emissions := rfl
@[simp] theorem State.setMem_inputs (s : State) (m : Memory) : (s.setMem m).inputs = s.inputs := rfl
@[simp] theorem State.setMem_views (s : State) (m : Memory) : (s.setMem m).views = s.views := rfl
@[simp] theorem State.setMem_free (s : State) (m : Memory) : (s.setMem m).free = s.free := rfl

/-! `State.emit`. -/

@[simp] theorem State.emit_params (s : State) (x : Session) (cs : List Byte) : (s.emit x cs).params = s.params := rfl
@[simp] theorem State.emit_sessions (s : State) (x : Session) (cs : List Byte) : (s.emit x cs).sessions = s.sessions := rfl
@[simp] theorem State.emit_ret (s : State) (x : Session) (cs : List Byte) : (s.emit x cs).ret = s.ret := rfl
@[simp] theorem State.emit_retWritten (s : State) (x : Session) (cs : List Byte) : (s.emit x cs).retWritten = s.retWritten := rfl
@[simp] theorem State.emit_fxout (s : State) (x : Session) (cs : List Byte) : (s.emit x cs).fxout = s.fxout := rfl
@[simp] theorem State.emit_fxoutWritten (s : State) (x : Session) (cs : List Byte) : (s.emit x cs).fxoutWritten = s.fxoutWritten := rfl
@[simp] theorem State.emit_mem (s : State) (x : Session) (cs : List Byte) : (s.emit x cs).mem = s.mem := rfl
@[simp] theorem State.emit_emissions (s : State) (x : Session) (cs : List Byte) : (s.emit x cs).emissions = s.emissions ++ cs.map (fun c => { sink := x.sink, ctx := x.ctx, ch := c }) := rfl
@[simp] theorem State.emit_inputs (s : State) (x : Session) (cs : List Byte) : (s.emit x cs).inputs = s.inputs := rfl
@[simp] theorem State.emit_views (s : State) (x : Session) (cs : List Byte) : (s.emit x cs).views = s.views := rfl
@[simp] theorem State.emit_free (s : State) (x : Session) (cs : List Byte) : (s.emit x cs).free = s.free := rfl

/-! `State.draw`. -/

@[simp] theorem State.draw_params (s : State) (n : Nat) : (s.draw n).params = s.params := rfl
@[simp] theorem State.draw_sessions (s : State) (n : Nat) : (s.draw n).sessions = s.sessions := rfl
@[simp] theorem State.draw_ret (s : State) (n : Nat) : (s.draw n).ret = s.ret := rfl
@[simp] theorem State.draw_retWritten (s : State) (n : Nat) : (s.draw n).retWritten = s.retWritten := rfl
@[simp] theorem State.draw_fxout (s : State) (n : Nat) : (s.draw n).fxout = s.fxout := rfl
@[simp] theorem State.draw_fxoutWritten (s : State) (n : Nat) : (s.draw n).fxoutWritten = s.fxoutWritten := rfl
@[simp] theorem State.draw_mem (s : State) (n : Nat) : (s.draw n).mem = s.mem := rfl
@[simp] theorem State.draw_emissions (s : State) (n : Nat) : (s.draw n).emissions = s.emissions := rfl
@[simp] theorem State.draw_inputs (s : State) (n : Nat) : (s.draw n).inputs = s.inputs := rfl
@[simp] theorem State.draw_views (s : State) (n : Nat) : (s.draw n).views = s.views := rfl
@[simp] theorem State.draw_free (s : State) (n : Nat) : (s.draw n).free = s.free + n := rfl

/-! `State.observe`. -/

@[simp] theorem State.observe_params (s : State) (v : HostView) : (s.observe v).params = s.params := rfl
@[simp] theorem State.observe_sessions (s : State) (v : HostView) : (s.observe v).sessions = s.sessions := rfl
@[simp] theorem State.observe_ret (s : State) (v : HostView) : (s.observe v).ret = s.ret := rfl
@[simp] theorem State.observe_retWritten (s : State) (v : HostView) : (s.observe v).retWritten = s.retWritten := rfl
@[simp] theorem State.observe_fxout (s : State) (v : HostView) : (s.observe v).fxout = s.fxout := rfl
@[simp] theorem State.observe_fxoutWritten (s : State) (v : HostView) : (s.observe v).fxoutWritten = s.fxoutWritten := rfl
@[simp] theorem State.observe_mem (s : State) (v : HostView) : (s.observe v).mem = s.mem := rfl
@[simp] theorem State.observe_emissions (s : State) (v : HostView) : (s.observe v).emissions = s.emissions := rfl
@[simp] theorem State.observe_inputs (s : State) (v : HostView) : (s.observe v).inputs = s.inputs := rfl
@[simp] theorem State.observe_views (s : State) (v : HostView) : (s.observe v).views = s.views ++ [v] := rfl
@[simp] theorem State.observe_free (s : State) (v : HostView) : (s.observe v).free = s.free := rfl

/-! `State.decodeFailed`. -/

@[simp] theorem State.decodeFailed_params (s : State) (out n : Nat) : (s.decodeFailed out n).params = s.params := rfl
@[simp] theorem State.decodeFailed_sessions (s : State) (out n : Nat) : (s.decodeFailed out n).sessions = s.sessions := rfl
@[simp] theorem State.decodeFailed_ret (s : State) (out n : Nat) : (s.decodeFailed out n).ret = decErr := rfl
@[simp] theorem State.decodeFailed_retWritten (s : State) (out n : Nat) : (s.decodeFailed out n).retWritten = true := rfl
@[simp] theorem State.decodeFailed_fxout (s : State) (out n : Nat) : (s.decodeFailed out n).fxout = s.fxout := rfl
@[simp] theorem State.decodeFailed_fxoutWritten (s : State) (out n : Nat) : (s.decodeFailed out n).fxoutWritten = s.fxoutWritten := rfl
@[simp] theorem State.decodeFailed_mem (s : State) (out n : Nat) : (s.decodeFailed out n).mem = s.mem.writeFree out s.free n := rfl
@[simp] theorem State.decodeFailed_emissions (s : State) (out n : Nat) : (s.decodeFailed out n).emissions = s.emissions := rfl
@[simp] theorem State.decodeFailed_inputs (s : State) (out n : Nat) : (s.decodeFailed out n).inputs = s.inputs := rfl
@[simp] theorem State.decodeFailed_views (s : State) (out n : Nat) : (s.decodeFailed out n).views = s.views := rfl
@[simp] theorem State.decodeFailed_free (s : State) (out n : Nat) : (s.decodeFailed out n).free = s.free + n := rfl

/-! `State.presentNext`. -/

@[simp] theorem State.presentNext_params (s : State) (d : Descriptor) : (s.presentNext d).params = s.params := rfl
@[simp] theorem State.presentNext_sessions (s : State) (d : Descriptor) : (s.presentNext d).sessions = s.sessions := rfl
@[simp] theorem State.presentNext_ret (s : State) (d : Descriptor) : (s.presentNext d).ret = s.ret := rfl
@[simp] theorem State.presentNext_retWritten (s : State) (d : Descriptor) : (s.presentNext d).retWritten = s.retWritten := rfl
@[simp] theorem State.presentNext_fxout (s : State) (d : Descriptor) : (s.presentNext d).fxout = s.fxout := rfl
@[simp] theorem State.presentNext_fxoutWritten (s : State) (d : Descriptor) : (s.presentNext d).fxoutWritten = s.fxoutWritten := rfl
@[simp] theorem State.presentNext_mem (s : State) (d : Descriptor) : (s.presentNext d).mem = s.mem := rfl
@[simp] theorem State.presentNext_emissions (s : State) (d : Descriptor) : (s.presentNext d).emissions = s.emissions := rfl
@[simp] theorem State.presentNext_inputs (s : State) (d : Descriptor) : (s.presentNext d).inputs = .present d :: s.inputs := rfl
@[simp] theorem State.presentNext_views (s : State) (d : Descriptor) : (s.presentNext d).views = s.views := rfl
@[simp] theorem State.presentNext_free (s : State) (d : Descriptor) : (s.presentNext d).free = s.free := rfl

/-! `Session.started`. -/

@[simp] theorem Session.started_active (x : Session) (k c : Word) : (x.started k c).active = true := rfl
@[simp] theorem Session.started_cnt (x : Session) (k c : Word) : (x.started k c).cnt = .empty := rfl
@[simp] theorem Session.started_g0 (x : Session) (k c : Word) : (x.started k c).g0 = x.g0 := rfl
@[simp] theorem Session.started_g1 (x : Session) (k c : Word) : (x.started k c).g1 = x.g1 := rfl
@[simp] theorem Session.started_g2 (x : Session) (k c : Word) : (x.started k c).g2 = x.g2 := rfl
@[simp] theorem Session.started_total (x : Session) (k c : Word) : (x.started k c).total = 0 := rfl
@[simp] theorem Session.started_sink (x : Session) (k c : Word) : (x.started k c).sink = k := rfl
@[simp] theorem Session.started_ctx (x : Session) (k c : Word) : (x.started k c).ctx = c := rfl

/-! `Session.finished`: what is not a free value. -/

@[simp] theorem Session.finished_active (x : Session) (p : Bool) (c : Nat) : (x.finished p c).active = false := rfl
@[simp] theorem Session.finished_total (x : Session) (p : Bool) (c : Nat) : (x.finished p c).total = x.total + BitVec.ofNat 32 (x.flushCount p) := rfl
@[simp] theorem Session.finished_sink (x : Session) (p : Bool) (c : Nat) : (x.finished p c).sink = x.sink := rfl
@[simp] theorem Session.finished_ctx (x : Session) (p : Bool) (c : Nat) : (x.finished p c).ctx = x.ctx := rfl

/-! Lookup after an update. -/

@[simp] theorem State.nEnc_setSession (s : State) (sid : BitVec 8) (x : Session) : (s.setSession sid x).nEnc = s.nEnc := by
  simp [State.nEnc]

/-- There is a session exactly below `N_ENC` (10_state.md R12). -/
theorem State.session?_isSome (s : State) (sid : BitVec 8) : (s.session? sid).isSome = true ↔ sid.toNat < s.nEnc := by
  simp [State.session?, State.nEnc]

theorem State.session?_lt {s : State} {sid : BitVec 8} {x : Session} (h : s.session? sid = some x) :
    sid.toNat < s.nEnc := by
  rw [← State.session?_isSome, h]; rfl

theorem State.session?_none (s : State) (sid : BitVec 8) : s.session? sid = none ↔ s.nEnc ≤ sid.toNat := by
  simp [State.session?, State.nEnc]

/-- The session written is the session read. -/
theorem State.session?_setSession_self {s : State} {sid : BitVec 8} (h : sid.toNat < s.nEnc) (x : Session) :
    (s.setSession sid x).session? sid = some x := by
  simp only [State.session?, State.setSession, State.nEnc] at *
  simp [h]

/-- No other session changes. -/
theorem State.session?_setSession_ne {s : State} {sid k : BitVec 8} (h : k ≠ sid) (x : Session) :
    (s.setSession sid x).session? k = s.session? k := by
  have h' : sid.toNat ≠ k.toNat := fun e => h (BitVec.eq_of_toNat_eq e.symm)
  simp [State.session?, State.setSession, h']

/-- A session written is one of the session written and the old ones. -/
theorem State.mem_sessions_setSession {s : State} {sid : BitVec 8} {x y : Session}
    (h : y ∈ (s.setSession sid x).sessions) : y = x ∨ y ∈ s.sessions := by
  rw [State.setSession_sessions] at h
  exact (List.mem_or_eq_of_mem_set h).symm

end Sys2Proof.Machine
end

