-- ==== Sys2Proof/Laws/Block.lean ====
section
/-! SUPPORT. What the decoder's scan and the block encoder's text do, and what B64.DEC and B64.ENCB can answer
(41_base64_block.md R75 to R94). -/

namespace Sys2Proof.Machine

/-! The block encoder (R76 to R80). -/

/-- The filler text of a leftover: none, two, one (R78). -/
def fillText (fill : Byte) (bs : List Byte) : List Byte := List.replicate (stdPadCount bs.length) fill

/-- The encoder's text: the characters of standard Base64, the filler in place of `=` (R78, R80). -/
theorem encodeBlock_eq (fill : Byte) (bs : List Byte) : encodeBlock fill bs = stdUnpadded bs ++ fillText fill bs := by
  rw [stdUnpadded_eq]
  induction bs using tripleInduction with
  | h0 => simp [encodeBlock, quanta, tailText, leftover, fillText, stdPadCount]
  | h1 a => simp [encodeBlock, quanta, tailText, leftover, fillText, stdPadCount]
  | h2 a b => simp [encodeBlock, quanta, tailText, leftover, fillText, stdPadCount]
  | h3 a b c rest ih =>
    have e : fillText fill (a :: b :: c :: rest) = fillText fill rest := by
      simp only [fillText, stdPadCount_eq, List.length_cons]
      congr 1
      rw [show (rest.length + 1 + 1 + 1) % 3 = rest.length % 3 by omega]
    rw [encodeBlock, ih, quanta, leftover, e]
    simp

/-- The length law (R79). -/
theorem length_encodeBlock (fill : Byte) (bs : List Byte) : (encodeBlock fill bs).length = encLen bs.length := by
  rw [encodeBlock_eq, ← length_stdBase64]
  simp [fillText, stdBase64]

/-- B64.ENCB: its conditions, and its effect (R76). -/
theorem execB64Encb_next {inp len out : Word} {s t : State} :
    execB64Encb inp len out s = .next t ↔
      ∃ bs, s.params.hasEncb = true ∧ admitted s.params.memSize inp.toNat len.toNat = true ∧
        admitted s.params.memSize out.toNat (encLen len.toNat) = true ∧
        encOverlapForbidden inp.toNat len.toNat out.toNat = false ∧ encLen len.toNat ≤ maxWord ∧
        bs.length = len.toNat ∧ s.mem.holds inp.toNat bs ∧
        t = (s.setMem (s.mem.writeBytes out.toNat (encodeBlock s.params.blkFill bs))).complete
          (BitVec.ofNat 32 (encodeBlock s.params.blkFill bs).length) := by
  unfold execB64Encb
  cases h0 : s.params.hasEncb
  · simp
  cases h1 : admitted s.params.memSize inp.toNat len.toNat
  · simp
  cases h2 : admitted s.params.memSize out.toNat (encLen len.toNat)
  · simp
  cases h3 : encOverlapForbidden inp.toNat len.toNat out.toNat
  swap
  · simp
  by_cases h4 : maxWord < encLen len.toNat
  · simp only [Bool.not_true, Bool.false_eq_true, if_false, if_pos h4, reduceCtorEq, false_iff]
    rintro ⟨bs, -, -, -, -, h5, -⟩
    omega
  cases h5 : s.mem.readBytes inp.toNat len.toNat with
  | error f =>
    simp only [Bool.not_true, Bool.false_eq_true, if_false, if_neg h4, reduceCtorEq, false_iff]
    rintro ⟨bs, -, -, -, -, -, hl, hh, -⟩
    rw [Memory.readBytes_eq_ok.mpr ⟨hl, hh⟩] at h5
    cases h5
  | ok bs =>
    obtain ⟨hl, hh⟩ := Memory.readBytes_eq_ok.mp h5
    simp only [Bool.not_true, Bool.false_eq_true, if_false, if_neg h4, Host.Outcome.next.injEq]
    constructor
    · intro e; exact ⟨bs, trivial, trivial, trivial, trivial, by omega, hl, hh, e.symm⟩
    · rintro ⟨bs', -, -, -, -, -, hl', hh', e⟩
      rw [Memory.holds_unique hh hh' (hl.trans hl'.symm)]
      exact e.symm

/-! The decoder's scan (R82). -/

theorem readPair_eq_ok {m : Memory} {a : Nat} {x y : Byte} :
    readPair m a = .ok (x, y) ↔ m.read a = some x ∧ m.read (a + 1) = some y := by
  unfold readPair Memory.readByte
  cases m.read a <;> cases m.read (a + 1) <;> simp

theorem decMax_le (n : Nat) : decMax n ≤ n := by
  unfold decMax; split_ifs <;> omega

theorem decMax_add_four (n : Nat) : decMax (n + 4) = decMax n + 3 := by
  unfold decMax
  rw [show (n + 4) % 4 = n % 4 by omega, show (n + 4) / 4 = n / 4 + 1 by omega]
  omega

/-- What a scan that ends with `e` leaves, `o` bytes written before it to `out`. -/
def tableResult (out o : Nat) (m : Memory) : TableEnd → DecEnd
  | .succeed bs => .done (o + bs.length) (m.writeBytes (out + o) bs)
  | .fail => .fail
  | .refuse => .refuse .padMisplaced

/-- A byte written before the rest of the scan. -/
theorem tableResult_after (out o : Nat) (m : Memory) (b : Byte) (e : TableEnd) :
    tableResult out o m (e.after b) = tableResult out (o + 1) (m.write (out + o) b) e := by
  cases e with
  | succeed bs =>
    simp only [tableResult, TableEnd.after, Memory.writeBytes, List.length_cons]
    rw [show o + (bs.length + 1) = o + 1 + bs.length by omega, show out + (o + 1) = out + o + 1 by omega]
  | fail => rfl
  | refuse => rfl

/-- The scan of R82, which reads pairs and writes as it goes, is the table of R93 on the text that memory holds, as long as
no write can reach a character not yet read (R86) and the count stays below 65535. -/
theorem decScan_eq_table (fuel : Nat) (text : List Byte) (p out o : Nat) (m : Memory) (hf : text.length / 4 < fuel)
    (heven : text.length % 2 = 0) (hm : m.holds p text) (hsep : out + o ≤ p ∨ p + text.length ≤ out + o)
    (hcount : o + decMax text.length < decCountLimit) :
    decScan fuel p text.length out o m = tableResult out o m (tableScan .needFirst text) := by
  induction fuel generalizing text p o m with
  | zero => omega
  | succ fuel ih =>
    match text, hf, heven, hm, hsep, hcount with
    | [], _, _, _, _, _ => simp [decScan, decQuartet, tableScan, tableResult, Memory.writeBytes]
    | [_], _, heven, _, _, _ => simp at heven
    | [a, b], _, _, hm, _, hcount =>
      have h1 := hm 0 (by simp)
      have h2 := hm 1 (by simp)
      have hp : readPair m p = .ok (a, b) := readPair_eq_ok.mpr ⟨by simpa using h1, by simpa using h2⟩
      have hlt : o + 1 < decCountLimit := by simp [decMax] at hcount; omega
      simp only [decScan, decQuartet, List.length_cons, List.length_nil, hp, tableScan]
      cases classify a with
      | pad => rfl
      | foreign => rfl
      | symbol c0 =>
        cases classify b with
        | pad => rfl
        | foreign => rfl
        | symbol c1 => simp [decPut, hlt, TableEnd.after, tableResult, Memory.writeBytes]
    | [_, _, _], _, heven, _, _, _ => simp at heven
    | a :: b :: c :: d :: rest, hf, heven, hm, hsep, hcount =>
      simp only [List.length_cons] at hf heven hsep hcount
      rw [decMax_add_four] at hcount
      obtain ⟨ha, hm⟩ := Memory.holds_cons.mp hm
      obtain ⟨hb, hm⟩ := Memory.holds_cons.mp hm
      obtain ⟨hc, hm⟩ := Memory.holds_cons.mp hm
      obtain ⟨hd, hm⟩ := Memory.holds_cons.mp hm
      have hp : readPair m p = .ok (a, b) := readPair_eq_ok.mpr ⟨ha, hb⟩
      have h1 : o + 1 < decCountLimit := by omega
      have h2 : o + 1 + 1 < decCountLimit := by omega
      have h3 : o + 1 + 1 + 1 < decCountLimit := by omega
      simp only [decScan, decQuartet, List.length_cons, hp, tableScan]
      rw [if_neg (by omega)]
      cases classify a with
      | pad => rfl
      | foreign => rfl
      | symbol c0 =>
      cases classify b with
      | pad => rfl
      | foreign => rfl
      | symbol c1 =>
      simp only [decPut, h1, if_true, tableResult_after]
      rw [if_neg (by omega)]
      have hp' : readPair (m.write (out + o) (byte0 c0 c1)) (p + 2) = .ok (c, d) := by
        refine readPair_eq_ok.mpr ⟨?_, ?_⟩ <;> rw [Memory.read_write_ne _ _ (by omega)]
        · exact hc
        · exact hd
      simp only [decSecondPair, hp']
      cases classify c with
      | pad => simp [tableResult, Memory.writeBytes]
      | foreign => rfl
      | symbol c2 =>
      simp only [decPut, h2, if_true, tableResult_after]
      cases classify d with
      | pad => simp [tableResult, Memory.writeBytes]
      | foreign => rfl
      | symbol c3 =>
      simp only [h3, if_true, tableResult_after]
      rw [show rest.length + 1 + 1 + 1 + 1 - 4 = rest.length by omega]
      refine ih rest (p + 4) (o + 1 + 1 + 1) _ (by omega) (by omega) ?_ (by omega) (by omega)
      rw [show p + 4 = p + 1 + 1 + 1 + 1 by omega]
      refine (Memory.holds_congr fun k hk => ?_).mpr hm
      rw [Memory.read_write_ne _ _ (by omega), Memory.read_write_ne _ _ (by omega), Memory.read_write_ne _ _ (by omega)]

/-- How one quartet can end without a refusal or a fault: a sequence of at most three bytes written, all three when the scan
goes on. -/
theorem decQuartet_cases {p rem out o : Nat} {m : Memory} (heven : rem % 2 = 0) (hlt : o < decCountLimit) :
    (∀ o' m', decQuartet p rem out o m = .more o' m' → ∃ bs, bs.length = 3 ∧ m' = m.writeBytes (out + o) bs ∧
      o' = o + 3 ∧ o' < decCountLimit ∧ 4 ≤ rem) ∧
    (∀ o' m', decQuartet p rem out o m = .done o' m' → ∃ bs, bs.length ≤ decMax rem ∧ m' = m.writeBytes (out + o) bs ∧
      o' = o + bs.length ∧ o' < decCountLimit) := by
  have hmax : rem ≠ 0 → rem ≠ 2 → 3 ≤ decMax rem ∧ 4 ≤ rem := fun h0 h2 => by
    refine ⟨?_, by omega⟩
    obtain ⟨k, rfl⟩ : ∃ k, rem = k + 4 := ⟨rem - 4, by omega⟩
    rw [decMax_add_four]; omega
  unfold decQuartet
  split
  · simp only [DecEnd.done.injEq, reduceCtorEq, false_implies, implies_true, true_and]
    rintro o' m' ⟨rfl, rfl⟩
    exact ⟨[], by simp, rfl, rfl, hlt⟩
  next hrem =>
  split
  · simp
  split
  · simp
  · simp
  split
  · simp
  · simp
  unfold decPut
  split
  swap
  · simp
  next h1 =>
  dsimp only
  split
  · next h2 =>
    subst h2
    simp only [DecEnd.done.injEq, reduceCtorEq, false_implies, implies_true, true_and]
    rintro o' m' ⟨rfl, rfl⟩
    exact ⟨[_], by simp [decMax], rfl, rfl, h1⟩
  next hrem2 =>
  obtain ⟨hm3, hr4⟩ := hmax hrem hrem2
  unfold decSecondPair
  split
  · simp
  split
  · simp only [DecEnd.done.injEq, reduceCtorEq, false_implies, implies_true, true_and]
    rintro o' m' ⟨rfl, rfl⟩
    exact ⟨[_], by simp; omega, rfl, rfl, h1⟩
  · simp
  unfold decPut
  split
  swap
  · simp
  next h2 =>
  dsimp only
  split
  · simp only [DecEnd.done.injEq, reduceCtorEq, false_implies, implies_true, true_and]
    rintro o' m' ⟨rfl, rfl⟩
    exact ⟨[_, _], by simp; omega, rfl, rfl, h2⟩
  · simp
  split
  swap
  · simp
  next h3 =>
  simp only [DecEnd.more.injEq, reduceCtorEq, false_implies, implies_true, and_true]
  rintro o' m' ⟨rfl, rfl⟩
  exact ⟨[_, _, _], rfl, rfl, rfl, h3, hr4⟩

/-- How the scan can succeed: a sequence of at most `DECMAX` bytes written, the count below 65535; it never asks to go on. -/
theorem decScan_done {fuel p rem out o : Nat} {m : Memory} (heven : rem % 2 = 0) (hlt : o < decCountLimit) :
    (∀ o' m', decScan fuel p rem out o m ≠ .more o' m') ∧
    (∀ o' m', decScan fuel p rem out o m = .done o' m' → ∃ bs, bs.length ≤ decMax rem ∧ m' = m.writeBytes (out + o) bs ∧
      o' = o + bs.length ∧ o' < decCountLimit) := by
  induction fuel generalizing p rem o m with
  | zero =>
    simp only [decScan, ne_eq, reduceCtorEq, not_false_eq_true, implies_true, DecEnd.done.injEq, true_and]
    rintro o' m' ⟨rfl, rfl⟩
    exact ⟨[], by simp, rfl, rfl, hlt⟩
  | succ fuel ih =>
    obtain ⟨hq1, hq2⟩ := decQuartet_cases (p := p) (out := out) (m := m) heven hlt
    rw [decScan]
    cases hq : decQuartet p rem out o m with
    | more o1 m1 =>
      obtain ⟨bs, hl, rfl, rfl, hlt1, h4⟩ := hq1 _ _ hq
      obtain ⟨i1, i2⟩ := ih (p := p + 4) (rem := rem - 4) (o := o + 3) (m := m.writeBytes (out + o) bs) (by omega) hlt1
      refine ⟨i1, fun o' m' h => ?_⟩
      obtain ⟨cs, hc, rfl, rfl, hlt2⟩ := i2 _ _ h
      refine ⟨bs ++ cs, ?_, ?_, ?_, hlt2⟩
      · have e := decMax_add_four (rem - 4)
        rw [show rem - 4 + 4 = rem by omega] at e
        simp only [List.length_append]; omega
      · rw [Memory.writeBytes_append, hl, Nat.add_assoc]
      · simp only [List.length_append]; omega
    | done o1 m1 => exact ⟨by simp, fun o' m' h => hq2 _ _ (hq.trans h)⟩
    | fail => simp
    | refuse r => simp
    | fault f => simp

/-! The scan as a function of the text and of the memory it starts from. -/

/-- Two memories agree on `n` locations. -/
def Memory.agreesOn (m m' : Memory) (a n : Nat) : Prop := ∀ k, k < n → m'.read (a + k) = m.read (a + k)

theorem Memory.agreesOn.sub {m m' : Memory} {a n b k : Nat} (h : m.agreesOn m' a n) (h1 : a ≤ b) (h2 : b + k ≤ a + n) :
    m.agreesOn m' b k := by
  intro i hi
  have := h (b - a + i) (by omega)
  rwa [show a + (b - a + i) = b + i by omega] at this

/-- Writing the same sequence where it does not reach the locations keeps agreement. -/
theorem Memory.agreesOn.writeBytes {m m' : Memory} {a n b : Nat} (bs : List Byte) (h : m.agreesOn m' a n)
    (hd : b + bs.length ≤ a ∨ a + n ≤ b) : (m.writeBytes b bs).agreesOn (m'.writeBytes b bs) a n := by
  intro k hk
  rw [Memory.read_writeBytes, Memory.read_writeBytes, if_neg (by omega), if_neg (by omega), h k hk]

theorem readPair_congr {m m' : Memory} {a : Nat} (h : m.agreesOn m' a 2) : readPair m' a = readPair m a := by
  have h0 := h 0 (by omega)
  have h1 := h 1 (by omega)
  rw [Nat.add_zero] at h0
  simp only [readPair, Memory.readByte, h0, h1]

/-- A pair that cannot be read faults at the first of its characters that nothing has written (R153). -/
theorem readPair_eq_error {m : Memory} {a : Nat} {f : Fault} :
    readPair m a = .error f ↔
      m.read a = none ∧ f = .unwrittenByte a ∨
      (m.read a).isSome = true ∧ m.read (a + 1) = none ∧ f = .unwrittenByte (a + 1) := by
  unfold readPair Memory.readByte
  cases m.read a <;> cases m.read (a + 1) <;> simp [eq_comm]

theorem readPair_error {m : Memory} {a : Nat} {f : Fault} (h : readPair m a = .error f) : ∃ b, f = .unwrittenByte b := by
  obtain ⟨-, h⟩ | ⟨-, -, h⟩ := readPair_eq_error.mp h
  · exact ⟨_, h⟩
  · exact ⟨_, h⟩

/-- The ways a scan can end, as functions of the memory it starts from: bytes written, failure, one of two refusals, or a
character that nothing has written. -/
inductive ScanShape (out o : Nat) : (Memory → DecEnd) → Prop where
  | done (bs : List Byte) : ScanShape out o (fun m => .done (o + bs.length) (m.writeBytes (out + o) bs))
  | fail : ScanShape out o (fun _ => .fail)
  | pad : ScanShape out o (fun _ => .refuse .padMisplaced)
  | count : ScanShape out o (fun _ => .refuse .decodeCount)
  | unwritten (a : Nat) : ScanShape out o (fun _ => .fault (.unwrittenByte a))

/-- One turn of the scan: it goes on with three bytes written, or ends; which, and with what bytes, depends on the text
only. -/
theorem decQuartet_shape (p rem out o : Nat) (m : Memory) (heven : rem % 2 = 0)
    (hsep : out + o ≤ p ∨ p + rem ≤ out + o) :
    ∃ f : Memory → DecEnd,
      ((∃ bs, bs.length = 3 ∧ 4 ≤ rem ∧ f = fun m => .more (o + 3) (m.writeBytes (out + o) bs)) ∨ ScanShape out o f) ∧
      ∀ m', m.agreesOn m' p rem → decQuartet p rem out o m' = f m' := by
  by_cases h0 : rem = 0
  · exact ⟨_, .inr (.done []), fun m' _ => by simp [decQuartet, h0, Memory.writeBytes]⟩
  cases hp : readPair m p with
  | error e =>
    obtain ⟨a, rfl⟩ := readPair_error hp
    refine ⟨_, .inr (.unwritten a), fun m' h => ?_⟩
    simp [decQuartet, h0, readPair_congr (h.sub (le_refl p) (by omega)), hp]
  | ok ab =>
  obtain ⟨a, b⟩ := ab
  have hp' : ∀ m', m.agreesOn m' p rem → readPair m' p = .ok (a, b) := fun m' h => by
    rw [readPair_congr (h.sub (le_refl p) (by omega)), hp]
  cases ha : classify a with
  | pad => exact ⟨_, .inr .pad, fun m' h => by simp [decQuartet, h0, hp' m' h, ha]⟩
  | foreign => exact ⟨_, .inr .fail, fun m' h => by simp [decQuartet, h0, hp' m' h, ha]⟩
  | symbol c0 =>
  cases hb : classify b with
  | pad => exact ⟨_, .inr .pad, fun m' h => by simp [decQuartet, h0, hp' m' h, ha, hb]⟩
  | foreign => exact ⟨_, .inr .fail, fun m' h => by simp [decQuartet, h0, hp' m' h, ha, hb]⟩
  | symbol c1 =>
  by_cases hc1 : o + 1 < decCountLimit
  swap
  · exact ⟨_, .inr .count, fun m' h => by simp [decQuartet, h0, hp' m' h, ha, hb, decPut, hc1]⟩
  by_cases h2 : rem = 2
  · refine ⟨_, .inr (.done [byte0 c0 c1]), fun m' h => ?_⟩
    simp [decQuartet, hp' m' h, ha, hb, decPut, hc1, h2, Memory.writeBytes]
  have hag : ∀ m', m.agreesOn m' p rem →
      (m.write (out + o) (byte0 c0 c1)).agreesOn (m'.write (out + o) (byte0 c0 c1)) (p + 2) 2 := fun m' h =>
    (h.sub (b := p + 2) (k := 2) (by omega) (by omega)).writeBytes [byte0 c0 c1] (by simp; omega)
  cases hq : readPair (m.write (out + o) (byte0 c0 c1)) (p + 2) with
  | error e =>
    obtain ⟨x, rfl⟩ := readPair_error hq
    refine ⟨_, .inr (.unwritten x), fun m' h => ?_⟩
    simp [decQuartet, h0, hp' m' h, ha, hb, decPut, hc1, h2, decSecondPair, readPair_congr (hag m' h), hq]
  | ok cd =>
  obtain ⟨c, d⟩ := cd
  have hq' : ∀ m', m.agreesOn m' p rem → readPair (m'.write (out + o) (byte0 c0 c1)) (p + 2) = .ok (c, d) := fun m' h => by
    rw [readPair_congr (hag m' h), hq]
  have step : ∀ m', m.agreesOn m' p rem → decQuartet p rem out o m' =
      decSecondPair (p + 2) out (o + 1) c1 (m'.write (out + o) (byte0 c0 c1)) := fun m' h => by
    simp only [decQuartet, if_neg h0, hp' m' h, ha, hb, decPut, if_pos hc1, if_neg h2]
  cases hc : classify c with
  | pad => exact ⟨_, .inr (.done [byte0 c0 c1]), fun m' h => by
      rw [step m' h]; simp [decSecondPair, hq' m' h, hc, Memory.writeBytes]⟩
  | foreign => exact ⟨_, .inr .fail, fun m' h => by rw [step m' h]; simp [decSecondPair, hq' m' h, hc]⟩
  | symbol c2 =>
  by_cases hc2 : o + 1 + 1 < decCountLimit
  swap
  · exact ⟨_, .inr .count, fun m' h => by rw [step m' h]; simp [decSecondPair, hq' m' h, hc, decPut, hc2]⟩
  cases hd : classify d with
  | pad => exact ⟨_, .inr (.done [byte0 c0 c1, byte1 c1 c2]), fun m' h => by
      rw [step m' h]; simp [decSecondPair, hq' m' h, hc, decPut, hc2, hd, Memory.writeBytes, Nat.add_assoc]⟩
  | foreign => exact ⟨_, .inr .fail, fun m' h => by
      rw [step m' h]; simp [decSecondPair, hq' m' h, hc, decPut, hc2, hd]⟩
  | symbol c3 =>
  by_cases hc3 : o + 1 + 1 + 1 < decCountLimit
  swap
  · exact ⟨_, .inr .count, fun m' h => by
      rw [step m' h]; simp [decSecondPair, hq' m' h, hc, decPut, hc2, hd, hc3]⟩
  refine ⟨_, .inl ⟨[byte0 c0 c1, byte1 c1 c2, byte2 c2 c3], rfl, by omega, rfl⟩, fun m' h => ?_⟩
  rw [step m' h]
  simp [decSecondPair, hq' m' h, hc, decPut, hc2, hd, hc3, Memory.writeBytes, Nat.add_assoc]

/-- The scan: how it ends, and with what bytes, depends on the text only. -/
theorem decScan_shape (fuel p rem out o : Nat) (m : Memory) (heven : rem % 2 = 0)
    (hsep : out + o ≤ p ∨ p + rem ≤ out + o) :
    ∃ f : Memory → DecEnd, ScanShape out o f ∧ ∀ m', m.agreesOn m' p rem → decScan fuel p rem out o m' = f m' := by
  induction fuel generalizing p rem o m with
  | zero => exact ⟨_, .done [], fun m' _ => rfl⟩
  | succ fuel ih =>
    obtain ⟨f, hf, hq⟩ := decQuartet_shape p rem out o m heven hsep
    rcases hf with ⟨bs, hl, h4, rfl⟩ | hf
    · obtain ⟨g, hg, hs⟩ := ih (p + 4) (rem - 4) (o + 3) (m.writeBytes (out + o) bs) (by omega) (by omega)
      have hs' : ∀ m', m.agreesOn m' p rem →
          decScan (fuel + 1) p rem out o m' = g (m'.writeBytes (out + o) bs) := fun m' h => by
        simp only [decScan, hq m' h]
        exact hs _ ((h.sub (by omega) (by omega)).writeBytes bs (by omega))
      cases hg with
      | done cs =>
        refine ⟨_, .done (bs ++ cs), fun m' h => ?_⟩
        rw [hs' m' h]
        simp only [List.length_append, hl, Memory.writeBytes_append, Nat.add_assoc]
      | fail => exact ⟨_, .fail, hs'⟩
      | pad => exact ⟨_, .pad, hs'⟩
      | count => exact ⟨_, .count, hs'⟩
      | unwritten a => exact ⟨_, .unwritten a, hs'⟩
    · refine ⟨f, hf, fun m' h => ?_⟩
      have := hq m' h
      cases hf <;> simp [decScan, this]

/-! The scan over a prefix of alphabet characters (R73, R82). -/

theorem Memory.groupsAt.shift {m : Memory} {a n q : Nat} {g : Nat → Group} (h : m.groupsAt a n g) :
    m.groupsAt (a + q) (n - q) (fun k => g (q + k)) := by
  intro k hk
  rw [Nat.add_assoc]; exact h (q + k) (by omega)

theorem groupByte_shift (g : Nat → Group) (q j : Nat) : groupByte (fun k => g (4 * q + k)) j = groupByte g (3 * q + j) := by
  unfold groupByte
  rw [show (3 * q + j) % 3 = j % 3 by omega, show (3 * q + j) / 3 = q + j / 3 by omega]
  simp only [Nat.mul_add, Nat.add_assoc]

/-- The first `n` bytes that the groups `g` encode. -/
def groupBytes (g : Nat → Group) (n : Nat) : List Byte := (List.range n).map (groupByte g)

@[simp] theorem length_groupBytes (g : Nat → Group) (n : Nat) : (groupBytes g n).length = n := by simp [groupBytes]

theorem groupBytes_add (g : Nat → Group) (q n : Nat) :
    groupBytes g (3 * q + n) = groupBytes g (3 * q) ++ groupBytes (fun k => g (4 * q + k)) n := by
  simp only [groupBytes, List.range_add, List.map_append, List.map_map]
  congr 1
  exact List.map_congr_left fun j _ => (groupByte_shift g q j).symm

/-- A full quartet of alphabet characters: three bytes written, and the scan goes on. -/
theorem decQuartet_symbols {p rem out o : Nat} {m : Memory} {g : Nat → Group} (h4 : 4 ≤ rem) (hg : m.groupsAt p 4 g)
    (hsep : out + o ≤ p ∨ p + rem ≤ out + o) (hc : o + 3 < decCountLimit) :
    decQuartet p rem out o m = .more (o + 3) (m.writeBytes (out + o) (groupBytes g 3)) := by
  have h0 := hg 0 (by omega)
  have h1 := hg 1 (by omega)
  have h2 := hg 2 (by omega)
  have h3 := hg 3 (by omega)
  rw [Nat.add_zero] at h0
  have hp : readPair m p = .ok (enc6 (g 0), enc6 (g 1)) := readPair_eq_ok.mpr ⟨h0, h1⟩
  have hq : readPair (m.write (out + o) (byte0 (g 0) (g 1))) (p + 2) = .ok (enc6 (g 2), enc6 (g 3)) := by
    refine readPair_eq_ok.mpr ⟨?_, ?_⟩ <;> rw [Memory.read_write_ne _ _ (by omega)]
    · exact h2
    · exact h3
  simp only [decQuartet, decSecondPair, decPut, hp, hq, classify_enc6, if_neg (show ¬ rem = 0 by omega),
    if_neg (show ¬ rem = 2 by omega), if_pos (show o + 1 < decCountLimit by omega),
    if_pos (show o + 1 + 1 < decCountLimit by omega), if_pos (show o + 1 + 1 + 1 < decCountLimit by omega)]
  simp [groupBytes, List.range_succ, groupByte, Memory.writeBytes, Nat.add_assoc]

/-- `q` full quartets of alphabet characters: their bytes are written, and the scan goes on behind them. -/
theorem decScan_symbols (q fuel p rem out o : Nat) (m : Memory) (g : Nat → Group) (hr : 4 * q ≤ rem)
    (hg : m.groupsAt p (4 * q) g) (hsep : out + o ≤ p ∨ p + rem ≤ out + o) (hc : o + 3 * q < decCountLimit) :
    decScan (q + fuel) p rem out o m =
      decScan fuel (p + 4 * q) (rem - 4 * q) out (o + 3 * q) (m.writeBytes (out + o) (groupBytes g (3 * q))) := by
  induction q generalizing p rem o m g with
  | zero => simp [groupBytes, Memory.writeBytes]
  | succ q ih =>
    rw [show q + 1 + fuel = (q + fuel) + 1 by omega, decScan,
      decQuartet_symbols (by omega) (fun k hk => hg k (by omega)) hsep (by omega)]
    dsimp only
    have hg' : (m.writeBytes (out + o) (groupBytes g 3)).groupsAt (p + 4) (4 * q) (fun k => g (4 * 1 + k)) := by
      intro k hk
      rw [Memory.sameOutside_writeBytes m (out + o) (groupBytes g 3) _ (by simp; omega), Nat.add_assoc]
      exact hg (4 + k) (by omega)
    rw [ih (p + 4) (rem - 4) (o + 3) _ _ (by omega) hg' (by omega) (by omega)]
    rw [show 3 * (q + 1) = 3 * 1 + 3 * q by omega, groupBytes_add g 1, Memory.writeBytes_append, length_groupBytes,
      show p + 4 + 4 * q = p + 4 * (q + 1) by omega, show rem - 4 - 4 * q = rem - 4 * (q + 1) by omega]
    simp only [Nat.add_assoc, Nat.mul_one]

/-! The table on texts (R93). -/

/-- A scan that succeeds writes at most `DECMAX` bytes (R84). -/
theorem tableScan_length (text : List Byte) (bs : List Byte) (h : tableScan .needFirst text = .succeed bs) :
    bs.length ≤ decMax text.length := by
  have after : ∀ {b : Byte} {e : TableEnd} {bs : List Byte}, e.after b = .succeed bs →
      ∃ cs, e = .succeed cs ∧ bs = b :: cs := by
    intro b e bs h
    cases e with
    | succeed cs => exact ⟨cs, rfl, by simpa [TableEnd.after] using h.symm⟩
    | fail => simp [TableEnd.after] at h
    | refuse => simp [TableEnd.after] at h
  induction hn : text.length using Nat.strong_induction_on generalizing text bs with
  | _ n ih =>
  match text, h with
  | [], h => simp [tableScan] at h; simp [h]
  | [a], h => simp only [tableScan] at h; split at h <;> simp at h
  | [a, b], h =>
    simp only [tableScan] at h
    split at h
    · simp at h
    · simp at h
    split at h
    · simp at h
    · simp at h
    obtain ⟨cs, hc, rfl⟩ := after h
    simp only [TableEnd.succeed.injEq] at hc
    subst hn hc
    simp [decMax]
  | [a, b, c], h =>
    simp only [tableScan] at h
    split at h
    · simp at h
    · simp at h
    split at h
    · simp at h
    · simp at h
    obtain ⟨cs, hc, rfl⟩ := after h
    subst hn
    split at hc
    · simp only [TableEnd.succeed.injEq] at hc
      subst hc
      simp [decMax]
    · simp at hc
    · obtain ⟨ds, hd, rfl⟩ := after hc
      simp at hd
  | a :: b :: c :: d :: rest, h =>
    simp only [tableScan] at h
    split at h
    · simp at h
    · simp at h
    split at h
    · simp at h
    · simp at h
    obtain ⟨cs, hc, rfl⟩ := after h
    subst hn
    simp only [List.length_cons]
    rw [decMax_add_four]
    split at hc
    · simp only [TableEnd.succeed.injEq] at hc
      subst hc
      simp
    · simp at hc
    obtain ⟨ds, hd, rfl⟩ := after hc
    split at hd
    · simp only [TableEnd.succeed.injEq] at hd
      subst hd
      simp
    · simp at hd
    obtain ⟨es, he, rfl⟩ := after hd
    have := ih rest.length (by simp only [List.length_cons]; omega) rest es he rfl
    simp only [List.length_cons]; omega

/-- Full quartets of alphabet characters decode to the bytes they encode, and the scan goes on (R73). -/
theorem tableScan_quanta (bs tail : List Byte) (h : bs.length % 3 = 0) :
    tableScan .needFirst (quanta bs ++ tail) =
      match tableScan .needFirst tail with
      | .succeed cs => .succeed (bs ++ cs)
      | .fail => .fail
      | .refuse => .refuse := by
  induction bs using tripleInduction with
  | h0 => simp only [quanta, List.nil_append]; cases tableScan .needFirst tail <;> rfl
  | h1 a => simp at h
  | h2 a b => simp at h
  | h3 a b c rest ih =>
    have hr : rest.length % 3 = 0 := by simp only [List.length_cons] at h; omega
    simp only [quanta, quantum_eq, List.cons_append, List.nil_append, tableScan, classify_enc6, byte0_group, byte1_group,
      byte2_group, ih hr]
    cases tableScan .needFirst tail <;> rfl

/-- The padded text of a byte sequence decodes to it (R94). -/
theorem tableScan_stdBase64 (bs : List Byte) : tableScan .needFirst (stdBase64 bs) = .succeed bs := by
  rw [stdBase64, stdUnpadded_eq, List.append_assoc]
  induction bs using tripleInduction with
  | h0 => rfl
  | h1 a => simp [quanta, leftover, tailText, stdPadCount, tableScan, TableEnd.after]
  | h2 a b => simp [quanta, leftover, tailText, stdPadCount, tableScan, TableEnd.after]
  | h3 a b c rest ih =>
    have e : stdPadCount (a :: b :: c :: rest).length = stdPadCount rest.length := by
      simp only [stdPadCount_eq, List.length_cons]
      rw [show (rest.length + 1 + 1 + 1) % 3 = rest.length % 3 by omega]
    rw [e, quanta, leftover]
    simp only [quantum_eq, List.cons_append, List.nil_append, tableScan, classify_enc6, byte0_group, byte1_group, byte2_group,
      ih, TableEnd.after]

/-! What B64.DEC can answer. -/

/-- The conditions tested before the scan (30_encoding.md R59 steps 2 and 3). -/
def decReady (memSize inp len out : Nat) : Bool :=
  admitted memSize inp len && admitted memSize out (decMax len) && !decOverlapForbidden inp len out

/-- The two buffers of a ready B64.DEC: the output starts no later than the text, or behind it (R86; 20_memory.md R44). -/
theorem decReady_sep {memSize inp len out : Nat} (h : decReady memSize inp len out = true) :
    out ≤ inp ∨ inp + len ≤ out := by
  simp only [decReady, Bool.and_eq_true, Bool.not_eq_true', decOverlapForbidden, overlaps, Bool.and_eq_false_iff,
    bne_eq_false_iff_eq, decide_eq_false_iff_not] at h
  have : decMax len = 0 → len ≤ 1 := by
    intro h; unfold decMax at h; split_ifs at h; omega
  omega

/-- B64.DEC behind its first tests (R82). -/
theorem execB64Dec_ready {inp len out : Word} {s : State}
    (hr : decReady s.params.memSize inp.toNat len.toNat out.toNat = true) :
    execB64Dec inp len out s =
      if len.toNat % 2 = 1 then .next (s.decodeFailed out.toNat (decMax len.toNat))
      else match decScan (len.toNat / 4 + 1) inp.toNat len.toNat out.toNat 0 s.mem with
        | .more o m => .next ((s.setMem m).complete (BitVec.ofNat 32 o))
        | .done o m => .next ((s.setMem m).complete (BitVec.ofNat 32 o))
        | .fail => .next (s.decodeFailed out.toNat (decMax len.toNat))
        | .refuse r => .refused r
        | .fault f => .fault f := by
  simp only [decReady, Bool.and_eq_true, Bool.not_eq_true'] at hr
  obtain ⟨⟨h1, h2⟩, h3⟩ := hr
  simp only [execB64Dec, h1, h2, h3, Bool.not_true, Bool.false_eq_true, if_false] <;> rfl

/-- B64.DEC answers a next state in two ways: the text decoded, or the failure of R88. -/
theorem execB64Dec_next {inp len out : Word} {s t : State} (h : execB64Dec inp len out s = .next t) :
    decReady s.params.memSize inp.toNat len.toNat out.toNat = true ∧
    ((t = s.decodeFailed out.toNat (decMax len.toNat)) ∨
     (len.toNat % 2 = 0 ∧ ∃ bs, bs.length ≤ decMax len.toNat ∧ bs.length < decCountLimit ∧
        decScan (len.toNat / 4 + 1) inp.toNat len.toNat out.toNat 0 s.mem =
          .done bs.length (s.mem.writeBytes out.toNat bs) ∧
        t = (s.setMem (s.mem.writeBytes out.toNat bs)).complete (BitVec.ofNat 32 bs.length))) := by
  unfold execB64Dec at h
  cases h1 : admitted s.params.memSize inp.toNat len.toNat <;> simp only [h1] at h
  · simp at h
  cases h2 : admitted s.params.memSize out.toNat (decMax len.toNat) <;> simp only [h2] at h
  · simp at h
  cases h3 : decOverlapForbidden inp.toNat len.toNat out.toNat <;> simp only [h3] at h
  swap
  · simp at h
  refine ⟨by simp [decReady, h1, h2, h3], ?_⟩
  simp only [Bool.not_true, Bool.false_eq_true, if_false] at h
  split at h
  · left; simpa using h.symm
  next hodd =>
  have heven : len.toNat % 2 = 0 := by omega
  obtain ⟨n1, n2⟩ := decScan_done (fuel := len.toNat / 4 + 1) (p := inp.toNat) (out := out.toNat) (o := 0) (m := s.mem)
    heven (by decide)
  cases hs : decScan (len.toNat / 4 + 1) inp.toNat len.toNat out.toNat 0 s.mem with
  | more o m => exact absurd hs (n1 o m)
  | done o m =>
    obtain ⟨bs, hl, rfl, rfl, hlt⟩ := n2 o m hs
    right
    rw [hs] at h
    simp only [Nat.zero_add, Nat.add_zero, Host.Outcome.next.injEq] at h hlt
    exact ⟨heven, bs, hl, hlt, by simp, h.symm⟩
  | fail =>
    rw [hs] at h
    left; simpa using h.symm
  | refuse r => rw [hs] at h; simp at h
  | fault f => rw [hs] at h; simp at h

/-- B64.DEC on a text that memory holds: the table of R93, after the parity test of R87. -/
theorem execB64Dec_text {inp len out : Word} {s : State} {text : List Byte} (hl : text.length = len.toNat)
    (hr : decReady s.params.memSize inp.toNat len.toNat out.toNat = true) (hm : s.mem.holds inp.toNat text)
    (hc : decMax len.toNat < decCountLimit) :
    execB64Dec inp len out s =
      if len.toNat % 2 = 1 then .next (s.decodeFailed out.toNat (decMax len.toNat))
      else match tableScan .needFirst text with
        | .succeed bs => .next ((s.setMem (s.mem.writeBytes out.toNat bs)).complete (BitVec.ofNat 32 bs.length))
        | .fail => .next (s.decodeFailed out.toNat (decMax len.toNat))
        | .refuse => .refused .padMisplaced := by
  simp only [decReady, Bool.and_eq_true, Bool.not_eq_true'] at hr
  obtain ⟨⟨h1, h2⟩, h3⟩ := hr
  unfold execB64Dec
  simp only [h1, h2, h3, Bool.not_true, Bool.false_eq_true, if_false]
  split
  · rfl
  next hodd =>
  have hsep : out.toNat + 0 ≤ inp.toNat ∨ inp.toNat + text.length ≤ out.toNat + 0 := by
    simp only [decOverlapForbidden, overlaps, Bool.and_eq_false_iff, bne_eq_false_iff_eq, decide_eq_false_iff_not] at h3
    have : decMax len.toNat = 0 → len.toNat = 0 := by
      intro h; unfold decMax at h; split_ifs at h; omega
    rw [hl]
    have e : out = inp → out.toNat = inp.toNat := fun e => by rw [e]
    omega
  have key := decScan_eq_table (len.toNat / 4 + 1) text inp.toNat out.toNat 0 s.mem (by omega) (by omega) hm hsep
    (by rw [hl]; omega)
  rw [hl] at key
  rw [key]
  cases tableScan .needFirst text <;> simp [tableResult]

end Sys2Proof.Machine
end

