-- ==== Sys2Proof/Laws/Decode.lean ====
section
/-! SUPPORT. The words and fields of an assembled descriptor, and a descriptor is its words (30_encoding.md R45, R46). -/

namespace Sys2Proof

namespace Descriptor

variable (w3 w2 w1 w0 : Word)

@[simp] theorem w0_ofWords : (ofWords w3 w2 w1 w0).w0 = w0 := by
  apply BitVec.eq_of_getLsbD_eq
  intro i hi
  simp only [ofWords, Descriptor.w0, BitVec.getLsbD_append, BitVec.getLsbD_extractLsb']
  simp [hi]

@[simp] theorem w1_ofWords : (ofWords w3 w2 w1 w0).w1 = w1 := by
  apply BitVec.eq_of_getLsbD_eq
  intro i hi
  simp only [ofWords, Descriptor.w1, BitVec.getLsbD_append, BitVec.getLsbD_extractLsb']
  simp [hi, show ¬ 32 + i < 32 by omega]

@[simp] theorem w2_ofWords : (ofWords w3 w2 w1 w0).w2 = w2 := by
  apply BitVec.eq_of_getLsbD_eq
  intro i hi
  simp only [ofWords, Descriptor.w2, BitVec.getLsbD_append, BitVec.getLsbD_extractLsb']
  simp [hi, show ¬ 64 + i < 32 by omega,
    show ¬ 64 + i - 32 < 32 by omega, show 64 + i - 32 - 32 = i by omega]

@[simp] theorem w3_ofWords : (ofWords w3 w2 w1 w0).w3 = w3 := by
  apply BitVec.eq_of_getLsbD_eq
  intro i hi
  simp only [ofWords, Descriptor.w3, BitVec.getLsbD_append, BitVec.getLsbD_extractLsb']
  simp [hi, show ¬ 96 + i < 32 by omega,
    show ¬ 96 + i - 32 < 32 by omega, show ¬ 96 + i - 32 - 32 < 32 by omega, show 96 + i - 32 - 32 - 32 = i by omega]

/-- A descriptor is its four words. -/
theorem ofWords_words (d : Descriptor) : ofWords d.w3 d.w2 d.w1 d.w0 = d := by
  apply BitVec.eq_of_getLsbD_eq
  intro i hi
  simp only [ofWords, Descriptor.w0, Descriptor.w1, Descriptor.w2, Descriptor.w3, BitVec.getLsbD_append,
    BitVec.getLsbD_extractLsb']
  by_cases c1 : i < 32
  · simp [c1]
  · by_cases c2 : i < 64
    · simp [c1, show i - 32 < 32 by omega, show 32 + (i - 32) = i by omega]
    · by_cases c3 : i < 96
      · simp [c1, show ¬ i - 32 < 32 by omega, show i - 32 - 32 < 32 by omega, show 64 + (i - 32 - 32) = i by omega]
      · simp [c1, show ¬ i - 32 < 32 by omega, show ¬ i - 32 - 32 < 32 by omega,
          show i - 32 - 32 - 32 < 32 by omega, show 96 + (i - 32 - 32 - 32) = i by omega]

/-- Two descriptors with the same words are the same. -/
theorem eq_of_words {d e : Descriptor} (h3 : d.w3 = e.w3) (h2 : d.w2 = e.w2) (h1 : d.w1 = e.w1) (h0 : d.w0 = e.w0) :
    d = e := by
  rw [← ofWords_words d, ← ofWords_words e, h3, h2, h1, h0]

variable (sid : BitVec 8) (pad : BitVec 1) (opc : BitVec 8)

/-! The fields of `W0`. -/

theorem word0_opc : (word0 sid pad opc).extractLsb' 0 8 = opc := by
  apply BitVec.eq_of_getLsbD_eq
  intro i hi
  simp only [word0, BitVec.getLsbD_append, BitVec.getLsbD_extractLsb']
  interval_cases i <;> simp

theorem word0_pad : (word0 sid pad opc).extractLsb' 8 1 = pad := by
  apply BitVec.eq_of_getLsbD_eq
  intro i hi
  obtain rfl : i = 0 := by omega
  simp only [word0, BitVec.getLsbD_append, BitVec.getLsbD_extractLsb']
  simp

theorem word0_zeroLow : (word0 sid pad opc).extractLsb' 9 7 = 0 := by
  apply BitVec.eq_of_getLsbD_eq
  intro i hi
  simp only [word0, BitVec.getLsbD_append, BitVec.getLsbD_extractLsb']
  interval_cases i <;> simp

theorem word0_sid : (word0 sid pad opc).extractLsb' 16 8 = sid := by
  apply BitVec.eq_of_getLsbD_eq
  intro i hi
  simp only [word0, BitVec.getLsbD_append, BitVec.getLsbD_extractLsb']
  interval_cases i <;> simp

theorem word0_zeroHigh : (word0 sid pad opc).extractLsb' 24 8 = 0 := by
  apply BitVec.eq_of_getLsbD_eq
  intro i hi
  simp only [word0, BitVec.getLsbD_append, BitVec.getLsbD_extractLsb']
  interval_cases i <;> simp

/-- `W0` is its fields. -/
theorem word0_fields (w : Word) (hl : w.extractLsb' 9 7 = 0) (hh : w.extractLsb' 24 8 = 0) :
    word0 (w.extractLsb' 16 8) (w.extractLsb' 8 1) (w.extractLsb' 0 8) = w := by
  have h9 : ∀ i, i < 7 → w.getLsbD (9 + i) = false := fun i hi => by
    have := congrArg (fun v => BitVec.getLsbD v i) hl
    simpa [hi] using this
  have h24 : ∀ i, i < 8 → w.getLsbD (24 + i) = false := fun i hi => by
    have := congrArg (fun v => BitVec.getLsbD v i) hh
    simpa [hi] using this
  apply BitVec.eq_of_getLsbD_eq
  intro i hi
  simp only [word0, BitVec.getLsbD_append, BitVec.getLsbD_extractLsb']
  by_cases c1 : i < 8
  · simp [c1]
  · by_cases c2 : i < 9
    · have : i = 8 := by omega
      subst this; simp
    · by_cases c3 : i < 16
      · have := h9 (i - 9) (by omega)
        rw [show 9 + (i - 9) = i by omega] at this
        simp [this, c1, show ¬ i - 8 < 1 by omega, show i - 8 - 1 < 7 by omega]
      · by_cases c4 : i < 24
        · simp [c1, show ¬ i - 8 < 1 by omega, show ¬ i - 8 - 1 < 7 by omega, show i - 8 - 1 - 7 < 8 by omega,
            show 16 + (i - 8 - 1 - 7) = i by omega]
        · have := h24 (i - 24) (by omega)
          rw [show 24 + (i - 24) = i by omega] at this
          simp [this, c1, show ¬ i - 8 < 1 by omega, show ¬ i - 8 - 1 < 7 by omega, show ¬ i - 8 - 1 - 7 < 8 by omega]

/-! The fields of an assembled descriptor. -/

@[simp] theorem opc_ofWords : (ofWords w3 w2 w1 (word0 sid pad opc)).opc = opc := by
  rw [Descriptor.opc, w0_ofWords, word0_opc]

@[simp] theorem padBit_ofWords : (ofWords w3 w2 w1 (word0 sid pad opc)).padBit = pad := by
  rw [Descriptor.padBit, w0_ofWords, word0_pad]

@[simp] theorem sid_ofWords : (ofWords w3 w2 w1 (word0 sid pad opc)).sid = sid := by
  rw [Descriptor.sid, w0_ofWords, word0_sid]

@[simp] theorem commonZero_ofWords : (ofWords w3 w2 w1 (word0 sid pad opc)).commonZero = true := by
  simp [Descriptor.commonZero, Descriptor.zeroLow, Descriptor.zeroHigh, word0_zeroLow, word0_zeroHigh]

@[simp] theorem raw16_ofWords (raw : BitVec 16) (w : Word) : (ofWords w3 w2 (0#16 ++ raw) w).raw16 = raw := by
  rw [Descriptor.raw16, w1_ofWords]
  apply BitVec.eq_of_getLsbD_eq
  intro i hi
  simp only [BitVec.getLsbD_append, BitVec.getLsbD_extractLsb']
  simp [hi]

@[simp] theorem w1High_ofWords (raw : BitVec 16) (w : Word) : (ofWords w3 w2 (0#16 ++ raw) w).w1High = 0 := by
  rw [Descriptor.w1High, w1_ofWords]
  apply BitVec.eq_of_getLsbD_eq
  intro i hi
  simp only [BitVec.getLsbD_append, BitVec.getLsbD_extractLsb']
  simp

/-- Both zero fields, from the test. -/
theorem commonZero_iff (d : Descriptor) : d.commonZero = true ↔ d.zeroLow = 0 ∧ d.zeroHigh = 0 := by
  simp [Descriptor.commonZero]

/-- `W0` of a descriptor whose zero fields are zero. -/
theorem w0_eq_word0 {d : Descriptor} (h : d.commonZero = true) : word0 d.sid d.padBit d.opc = d.w0 :=
  word0_fields _ ((commonZero_iff d).mp h).1 ((commonZero_iff d).mp h).2

/-- `W1` of a descriptor whose upper half is zero. -/
theorem w1_eq_raw16 {d : Descriptor} (h : d.w1High = 0) : (0#16 ++ d.raw16 : Word) = d.w1 := by
  have hb : ∀ i, i < 16 → d.w1.getLsbD (16 + i) = false := fun i hi => by
    have := congrArg (fun v => BitVec.getLsbD v i) h
    simpa [Descriptor.w1High, hi] using this
  apply BitVec.eq_of_getLsbD_eq
  intro i hi
  by_cases c : i < 16
  · simp only [BitVec.getLsbD_append, Descriptor.raw16, BitVec.getLsbD_extractLsb']; simp [c]
  · have := hb (i - 16) (by omega)
    rw [show 16 + (i - 16) = i by omega] at this
    simp only [BitVec.getLsbD_append]; simp [c, this]

end Descriptor

/-! A descriptor under a mask. -/

namespace Descriptor

theorem w0_and (d m : Descriptor) : w0 (d &&& m) = d.w0 &&& w0 m := BitVec.extractLsb'_and
theorem w1_and (d m : Descriptor) : w1 (d &&& m) = d.w1 &&& w1 m := BitVec.extractLsb'_and
theorem w2_and (d m : Descriptor) : w2 (d &&& m) = d.w2 &&& w2 m := BitVec.extractLsb'_and
theorem w3_and (d m : Descriptor) : w3 (d &&& m) = d.w3 &&& w3 m := BitVec.extractLsb'_and

/-- A mask and a value word by word. -/
theorem and_eq_iff {d m v : Descriptor} : d &&& m = v ↔
    d.w3 &&& m.w3 = v.w3 ∧ d.w2 &&& m.w2 = v.w2 ∧ d.w1 &&& m.w1 = v.w1 ∧ d.w0 &&& m.w0 = v.w0 := by
  rw [← w0_and, ← w1_and, ← w2_and, ← w3_and]
  constructor
  · rintro rfl; exact ⟨rfl, rfl, rfl, rfl⟩
  · rintro ⟨h3, h2, h1, h0⟩; exact eq_of_words h3 h2 h1 h0

/-- A word is the five fields of `W0`. -/
theorem word_eq_iff {x y : Word} : x = y ↔
    x.extractLsb' 0 8 = y.extractLsb' 0 8 ∧ x.extractLsb' 8 1 = y.extractLsb' 8 1 ∧ x.extractLsb' 9 7 = y.extractLsb' 9 7 ∧
    x.extractLsb' 16 8 = y.extractLsb' 16 8 ∧ x.extractLsb' 24 8 = y.extractLsb' 24 8 := by
  constructor
  · rintro rfl; exact ⟨rfl, rfl, rfl, rfl, rfl⟩
  · rintro ⟨h1, h2, h3, h4, h5⟩
    have bit : ∀ {a n : Nat} {i : Nat}, x.extractLsb' a n = y.extractLsb' a n → a ≤ i → i < a + n →
        x.getLsbD i = y.getLsbD i := fun {a n i} h h1 h2 => by
      have := congrArg (fun v => BitVec.getLsbD v (i - a)) h
      simpa [show i - a < n by omega, show a + (i - a) = i by omega] using this
    apply BitVec.eq_of_getLsbD_eq
    intro i hi
    rcases Nat.lt_or_ge i 8 with h | h
    · exact bit h1 (by omega) h
    rcases Nat.lt_or_ge i 9 with h' | h'
    · exact bit h2 h h'
    rcases Nat.lt_or_ge i 16 with h'' | h''
    · exact bit h3 h' h''
    rcases Nat.lt_or_ge i 24 with h''' | h'''
    · exact bit h4 h'' h'''
    · exact bit h5 h''' hi

/-- A field under a mask of ones. -/
theorem and_ones :
    (∀ x : Word, x &&& 0xFFFFFFFF#32 = x) ∧ (∀ x : BitVec 16, x &&& 0xFFFF#16 = x) ∧ (∀ x : BitVec 8, x &&& 0xFF#8 = x) ∧
    (∀ x : BitVec 7, x &&& 0x7F#7 = x) ∧ (∀ x : BitVec 1, x &&& 1#1 = x) :=
  ⟨fun _ => BitVec.and_allOnes, fun _ => BitVec.and_allOnes, fun _ => BitVec.and_allOnes, fun _ => BitVec.and_allOnes,
    fun _ => BitVec.and_allOnes⟩

/-- `W1` under the mask of its upper half. -/
theorem and_upper_eq_zero {x : Word} : x &&& 0xFFFF0000 = 0 ↔ x.extractLsb' 16 16 = 0 := by
  constructor
  · intro h
    have := congrArg (fun v => BitVec.extractLsb' 16 16 v) h
    simpa [BitVec.extractLsb'_and, and_ones.2.1] using this
  · intro h
    apply BitVec.eq_of_getLsbD_eq
    intro i hi
    by_cases c : i < 16
    · have : (0xFFFF0000#32).getLsbD i = false := by interval_cases i <;> rfl
      simp [this]
    · have := congrArg (fun v => BitVec.getLsbD v (i - 16)) h
      simp only [BitVec.getLsbD_extractLsb', show i - 16 < 16 by omega, show 16 + (i - 16) = i by omega] at this
      simp at this
      simp [this]

/-! The masks of the opcode map against the fields that must be zero (R46, R47, R55). -/

theorem mask_S (d v : Descriptor) (hv : v = 0x10 ∨ v = 0x11) :
    d &&& 0xFFFFFFFF0000000000000000FF00FFFF = v ↔ d.opc = v.extractLsb' 0 8 ∧ d.okS = true := by
  obtain ⟨a32, -, a8, a7, a1⟩ := and_ones
  rw [and_eq_iff, word_eq_iff (x := d.w0 &&& _)]
  simp only [BitVec.extractLsb'_and, okS, commonZero, opc, padBit, zeroLow, zeroHigh, Bool.and_eq_true, beq_iff_eq]
  rcases hv with rfl | rfl <;> simp [w0, w1, w2, w3] <;> simp only [a32, a8, a7, a1] <;> constructor <;> (intro h; simp_all)

theorem mask_F (d : Descriptor) :
    d &&& 0xFFFFFFFFFFFFFFFFFFFFFFFFFF00FEFF = 0x12 ↔ d.opc = 0x12 ∧ d.okF = true := by
  obtain ⟨a32, -, a8, a7, a1⟩ := and_ones
  rw [and_eq_iff, word_eq_iff (x := d.w0 &&& _)]
  simp only [BitVec.extractLsb'_and, okF, commonZero, opc, zeroLow, zeroHigh, Bool.and_eq_true, beq_iff_eq]
  simp [w0, w1, w2, w3]
  simp only [a32, a8, a7]; constructor <;> (intro h; simp_all)

theorem mask_B (d v : Descriptor) (hv : v = 0x20 ∨ v = 0x21 ∨ v = 0x32 ∨ v = 0x33) :
    d &&& 0x000000000000000000000000FFFFFFFF = v ↔ d.opc = v.extractLsb' 0 8 ∧ d.okB = true := by
  obtain ⟨a32, -, a8, a7, a1⟩ := and_ones
  rw [and_eq_iff, word_eq_iff (x := d.w0 &&& _)]
  simp only [BitVec.extractLsb'_and, okB, commonZero, opc, padBit, sid, zeroLow, zeroHigh, Bool.and_eq_true, beq_iff_eq]
  rcases hv with rfl | rfl | rfl | rfl <;> simp [w0, w1, w2, w3] <;> simp only [a8, a7, a1] <;> constructor <;> (intro h; simp_all)

theorem mask_X16 (d v : Descriptor) (hv : v = 0x30 ∨ v = 0x31) :
    d &&& 0x0000000000000000FFFF0000FFFFFFFF = v ↔ d.opc = v.extractLsb' 0 8 ∧ d.okX16 = true := by
  obtain ⟨a32, -, a8, a7, a1⟩ := and_ones
  rw [and_eq_iff, word_eq_iff (x := d.w0 &&& _)]
  simp only [BitVec.extractLsb'_and, okX16, commonZero, opc, padBit, sid, zeroLow, zeroHigh, w1High, Bool.and_eq_true,
    beq_iff_eq, ← and_upper_eq_zero]
  rcases hv with rfl | rfl <;> simp [w0, w1, w2, w3] <;> simp only [a8, a7, a1] <;> constructor <;> (intro h; simp_all)

end Descriptor

/-- The test of the bits that must be zero, taken apart. -/
theorem whenZero_eq_ok {ok : Bool} {i j : Instr} : whenZero ok i = .ok j ↔ ok = true ∧ i = j := by
  cases ok <;> simp [whenZero]

end Sys2Proof
end

