-- ==== Sys2Proof/Laws/FixedPoint.lean ====
section
/-! SUPPORT. The converter's 64-bit arithmetic is exact and rounds up (43_fixed_point.md R116 to R120). -/

namespace Sys2Proof.Machine

theorem fxShift_le (frac : Word) : fxShift frac ≤ 31 := by unfold fxShift; omega

/-- The product does not wrap (R119). -/
theorem toNat_fxWide (raw scale : Word) : (fxWide raw scale).toNat = raw.toNat * scale.toNat := by
  have h : raw.toNat * scale.toNat ≤ (2 ^ 32 - 1) * (2 ^ 32 - 1) :=
    Nat.mul_le_mul (by have := raw.isLt; omega) (by have := scale.isLt; omega)
  have e1 : raw.toNat % 2 ^ 64 = raw.toNat := Nat.mod_eq_of_lt (by have := raw.isLt; omega)
  have e2 : scale.toNat % 2 ^ 64 = scale.toNat := Nat.mod_eq_of_lt (by have := scale.isLt; omega)
  simp only [fxWide, BitVec.toNat_mul, BitVec.zeroExtend, BitVec.toNat_setWidth, e1, e2]
  exact Nat.mod_eq_of_lt (by omega)

/-- The rounded and shifted product over integers: neither step wraps (R119). -/
theorem toNat_fxQuotient (raw scale frac : Word) :
    (fxQuotient raw scale frac).toNat =
      (raw.toNat * scale.toNat + (2 ^ fxShift frac - 1)) / 2 ^ fxShift frac := by
  have h : raw.toNat * scale.toNat ≤ (2 ^ 32 - 1) * (2 ^ 32 - 1) :=
    Nat.mul_le_mul (by have := raw.isLt; omega) (by have := scale.isLt; omega)
  have hp : 2 ^ fxShift frac ≤ 2 ^ 31 := Nat.pow_le_pow_right (by omega) (fxShift_le frac)
  have e : (2 ^ fxShift frac - 1) % 2 ^ 64 = 2 ^ fxShift frac - 1 := Nat.mod_eq_of_lt (by omega)
  simp only [fxQuotient, BitVec.toNat_ushiftRight, BitVec.toNat_add, toNat_fxWide, BitVec.toNat_ofNat, e,
    Nat.shiftRight_eq_div_pow]
  rw [Nat.mod_eq_of_lt (by omega)]

/-- Adding `2^sh - 1` before the shift is rounding up (R117). -/
theorem ceil_div_pow (w sh : Nat) : (w + (2 ^ sh - 1)) / 2 ^ sh = ⌈(w : ℚ) / 2 ^ sh⌉₊ := by
  have hp : 0 < 2 ^ sh := Nat.pos_of_ne_zero (by simp)
  refine eq_of_forall_ge_iff fun c => ?_
  have hq : (0 : ℚ) < 2 ^ sh := by positivity
  rw [Nat.ceil_le, div_le_iff₀ hq, ← Nat.lt_succ_iff, Nat.div_lt_iff_lt_mul hp, Nat.succ_mul]
  have e : ((w : ℚ) ≤ c * 2 ^ sh) ↔ w ≤ c * 2 ^ sh := by exact_mod_cast Iff.rfl
  rw [e]
  omega

/-- The core's quotient is the exact result rounded up (R117). -/
theorem toNat_fxQuotient_eq_fxExact (raw scale frac : Word) :
    (fxQuotient raw scale frac).toNat = fxExact raw.toNat scale.toNat frac.toNat := by
  rw [toNat_fxQuotient, ceil_div_pow, fxExact, fxShift]
  push_cast; rfl

/-- The core over integers: its two failures and its result (R116, R118). -/
theorem fxCore_eq (raw scale frac : Word) :
    fxCore raw scale frac =
      if 31 < frac.toNat then .failed .fracBitsOutOfRange
      else if 2 ^ 32 ≤ fxExact raw.toNat scale.toNat frac.toNat then .failed .magnitudeOverflow
      else .ok (BitVec.ofNat 32 (fxExact raw.toNat scale.toNat frac.toNat)) := by
  unfold fxCore
  rw [toNat_fxQuotient_eq_fxExact]
  split
  · rfl
  · by_cases h : 2 ^ 32 ≤ fxExact raw.toNat scale.toNat frac.toNat
    · rw [if_pos (by omega), if_pos h]
    · rw [if_neg (by omega), if_neg h]
      congr 1
      apply BitVec.eq_of_toNat_eq
      rw [BitVec.toNat_setWidth, toNat_fxQuotient_eq_fxExact, BitVec.toNat_ofNat]

/-- Negation at 32 bits (R120). -/
theorem fxNegate_eq_neg (x : Word) : fxNegate x = -x := by
  rw [fxNegate, BitVec.neg_eq_not_add]; rfl

/-- The magnitude of a sample is its absolute value, 0 to 2^31 (R120, R126). -/
theorem toNat_fxMagnitude (u : Word) : (fxMagnitude u).toNat = u.toInt.natAbs := by
  unfold fxMagnitude
  have hm : u.getLsbD 31 = u.msb := by rw [BitVec.msb_eq_getLsbD_last]
  rw [hm]
  cases h : u.msb
  · rw [BitVec.toInt_eq_msb_cond, h]; simp
  · have hlt := u.isLt
    have hge : 2 ^ 31 ≤ u.toNat := by
      have := BitVec.msb_eq_decide u
      rw [h] at this; simpa using this.symm
    simp only [if_true, fxNegate_eq_neg, BitVec.toNat_neg]
    rw [BitVec.toInt_eq_msb_cond, h]
    simp only [if_true]
    omega

/-- The signed wrapper over integers: the magnitude rounded up, with the sample's sign (R120). -/
theorem fxSigned_eq (u scale frac : Word) :
    fxSigned u scale frac =
      if 31 < frac.toNat then .failed .fracBitsOutOfRange
      else if 2 ^ 32 ≤ fxExact u.toInt.natAbs scale.toNat frac.toNat then .failed .magnitudeOverflow
      else .ok (BitVec.ofInt 32 (u.toInt.sign * fxExact u.toInt.natAbs scale.toNat frac.toNat)) := by
  have hs : u.getLsbD 31 = decide (u.toInt < 0) := by
    rw [← BitVec.msb_eq_toInt, BitVec.msb_eq_getLsbD_last]
  unfold fxSigned
  rw [fxCore_eq, toNat_fxMagnitude, hs]
  by_cases h1 : 31 < frac.toNat
  · simp only [if_pos h1]
  by_cases h2 : 2 ^ 32 ≤ fxExact u.toInt.natAbs scale.toNat frac.toNat
  · simp only [if_neg h1, if_pos h2]
  simp only [if_neg h1, if_neg h2, decide_eq_true_eq, fxNegate_eq_neg]
  rcases lt_trichotomy u.toInt 0 with h | h | h
  · rw [if_pos h, Int.sign_eq_neg_one_of_neg h]; simp [BitVec.ofInt_neg]
  · rw [h]; simp [fxExact]
  · rw [if_neg (by omega), Int.sign_eq_one_of_pos h]; simp

/-- A 16-bit sample keeps its value (R121, R122). -/
theorem toNat_rawU16 (raw : BitVec 16) : (rawU16 raw).toNat = raw.toNat := by
  have := raw.isLt
  simp only [rawU16, BitVec.toNat_setWidth]; omega

theorem toInt_rawS16 (raw : BitVec 16) : (rawS16 raw).toInt = raw.toInt := by
  have := raw.toInt_lt
  have := raw.le_toInt
  rw [rawS16, BitVec.toInt_signExtend, show min 32 16 = 16 from rfl, Int.bmod_def]
  split_ifs <;> omega

end Sys2Proof.Machine
end

