-- ==== Sys2Proof/Laws/PerInstr.lean ====
section
/-! SUPPORT. The family RowMatch, one lemma per command: the descriptor of a command has, under the mask of its row of
spec/opcode_table.json, the value of that row (30_encoding.md R55). -/

namespace Sys2Proof.Laws.RowMatch

/-- Some row of the opcode map with the command's mnemonic selects the command's descriptor. -/
def Statement (i : Instr) : Prop := ∃ r ∈ opcodeRows, r.mnemonic = i.mnemonic ∧ r.selects (encode i) = true

/-- Masking a descriptor masks its words. -/
theorem ofWords_and (a3 a2 a1 a0 b3 b2 b1 b0 : Word) :
    Descriptor.ofWords a3 a2 a1 a0 &&& Descriptor.ofWords b3 b2 b1 b0 =
      Descriptor.ofWords (a3 &&& b3) (a2 &&& b2) (a1 &&& b1) (a0 &&& b0) := by
  apply BitVec.eq_of_getLsbD_eq
  intro i hi
  simp only [Descriptor.ofWords, BitVec.getLsbD_append, BitVec.getLsbD_and]
  split_ifs <;> rfl

/-- `W0` under the mask of formats S and M: SID is dropped. -/
theorem word0_and_sid (sid : BitVec 8) (opc : BitVec 8) :
    Descriptor.word0 sid 0 opc &&& 0xFF00FFFF = Descriptor.word0 0 0 opc := by
  apply BitVec.eq_of_getLsbD_eq
  intro i hi
  simp only [Descriptor.word0, BitVec.getLsbD_append, BitVec.getLsbD_and]
  interval_cases i <;> simp

/-- `W0` under the mask of format F: SID and PAD are dropped. -/
theorem word0_and_pad (sid : BitVec 8) (pad : BitVec 1) (opc : BitVec 8) :
    Descriptor.word0 sid pad opc &&& 0xFF00FEFF = Descriptor.word0 0 0 opc := by
  apply BitVec.eq_of_getLsbD_eq
  intro i hi
  simp only [Descriptor.word0, BitVec.getLsbD_append, BitVec.getLsbD_and]
  interval_cases i <;> simp

/-- `W1` of format X16 under its mask. -/
theorem raw16_and (raw : BitVec 16) : (0#16 ++ raw : Word) &&& 0xFFFF0000 = 0 := by
  apply BitVec.eq_of_getLsbD_eq
  intro i hi
  simp only [BitVec.getLsbD_append, BitVec.getLsbD_and]
  interval_cases i <;> simp

/-- A free word under a mask of zeros. -/
theorem word_and_zero (w : Word) : w &&& 0 = 0 := by simp

theorem b64sStart (sid : BitVec 8) (sink ctx : Word) : Statement (.b64sStart sid sink ctx) := by
  refine ⟨opcodeRows[0], by decide, rfl, ?_⟩
  have hm : opcodeRows[0].mask = Descriptor.ofWords 0xFFFFFFFF 0 0 0xFF00FFFF := by decide
  simp only [OpcodeRow.selects, hm, encode, ofWords_and, word0_and_sid, word_and_zero]
  decide

theorem b64sMore (sid : BitVec 8) (addr len : Word) : Statement (.b64sMore sid addr len) := by
  refine ⟨opcodeRows[1], by decide, rfl, ?_⟩
  have hm : opcodeRows[1].mask = Descriptor.ofWords 0xFFFFFFFF 0 0 0xFF00FFFF := by decide
  simp only [OpcodeRow.selects, hm, encode, ofWords_and, word0_and_sid, word_and_zero]
  decide

theorem b64sFinish (sid : BitVec 8) (pad : Bool) : Statement (.b64sFinish sid pad) := by
  refine ⟨opcodeRows[2], by decide, rfl, ?_⟩
  have hm : opcodeRows[2].mask = Descriptor.ofWords 0xFFFFFFFF 0xFFFFFFFF 0xFFFFFFFF 0xFF00FEFF := by decide
  simp only [OpcodeRow.selects, hm, encode, ofWords_and, word0_and_pad]
  decide

theorem b64Dec (inp len out : Word) : Statement (.b64Dec inp len out) := by
  refine ⟨opcodeRows[3], by decide, rfl, ?_⟩
  have hm : opcodeRows[3].mask = Descriptor.ofWords 0 0 0 0xFFFFFFFF := by decide
  simp only [OpcodeRow.selects, hm, encode, ofWords_and, word_and_zero]
  decide

theorem b64Encb (inp len out : Word) : Statement (.b64Encb inp len out) := by
  refine ⟨opcodeRows[4], by decide, rfl, ?_⟩
  have hm : opcodeRows[4].mask = Descriptor.ofWords 0 0 0 0xFFFFFFFF := by decide
  simp only [OpcodeRow.selects, hm, encode, ofWords_and, word_and_zero]
  decide

theorem fxpCvtU16 (raw : BitVec 16) (scale frac : Word) : Statement (.fxpCvtU16 raw scale frac) := by
  refine ⟨opcodeRows[5], by decide, rfl, ?_⟩
  have hm : opcodeRows[5].mask = Descriptor.ofWords 0 0 0xFFFF0000 0xFFFFFFFF := by decide
  simp only [OpcodeRow.selects, hm, encode, ofWords_and, raw16_and, word_and_zero]
  decide

theorem fxpCvtS16 (raw : BitVec 16) (scale frac : Word) : Statement (.fxpCvtS16 raw scale frac) := by
  refine ⟨opcodeRows[6], by decide, rfl, ?_⟩
  have hm : opcodeRows[6].mask = Descriptor.ofWords 0 0 0xFFFF0000 0xFFFFFFFF := by decide
  simp only [OpcodeRow.selects, hm, encode, ofWords_and, raw16_and, word_and_zero]
  decide

theorem fxpCvtU32 (raw scale frac : Word) : Statement (.fxpCvtU32 raw scale frac) := by
  refine ⟨opcodeRows[7], by decide, rfl, ?_⟩
  have hm : opcodeRows[7].mask = Descriptor.ofWords 0 0 0 0xFFFFFFFF := by decide
  simp only [OpcodeRow.selects, hm, encode, ofWords_and, word_and_zero]
  decide

theorem fxpCvtS32 (raw scale frac : Word) : Statement (.fxpCvtS32 raw scale frac) := by
  refine ⟨opcodeRows[8], by decide, rfl, ?_⟩
  have hm : opcodeRows[8].mask = Descriptor.ofWords 0 0 0 0xFFFFFFFF := by decide
  simp only [OpcodeRow.selects, hm, encode, ofWords_and, word_and_zero]
  decide

end Sys2Proof.Laws.RowMatch
end

