-- ==== Sys2Proof/Laws/Stream.lean ====
section
/-! SUPPORT. What the streaming encoder's byte step, its repetition and its flush do, and what each of the three commands can
answer (42_base64_stream.md R95 to R108). -/

namespace Sys2Proof.Machine

theorem EncState.count_le (c : EncState) : c.count ≤ 2 := by cases c <;> decide

theorem EncState.count_injective {c d : EncState} (h : c.count = d.count) : c = d := by
  cases c <;> cases d <;> simp_all [EncState.count]

/-! One byte step (R101). -/

@[simp] theorem Session.byteStep_active (x : Session) (b : Byte) : (x.byteStep b).1.active = x.active := by
  unfold Session.byteStep; cases x.cnt <;> rfl

@[simp] theorem Session.byteStep_sink (x : Session) (b : Byte) : (x.byteStep b).1.sink = x.sink := by
  unfold Session.byteStep; cases x.cnt <;> rfl

@[simp] theorem Session.byteStep_ctx (x : Session) (b : Byte) : (x.byteStep b).1.ctx = x.ctx := by
  unfold Session.byteStep; cases x.cnt <;> rfl

/-- CNT goes round EMPTY, ONE, TWO. -/
theorem Session.byteStep_count (x : Session) (b : Byte) : (x.byteStep b).1.cnt.count = (x.cnt.count + 1) % 3 := by
  unfold Session.byteStep; cases x.cnt <;> rfl

/-- The step emits the quanta of the pending bytes and the new one, and holds back what is left over. -/
theorem Session.byteStep_pending (x : Session) (b : Byte) :
    (x.byteStep b).2 = quanta (x.pending ++ [b]) ∧ (x.byteStep b).1.pending = leftover (x.pending ++ [b]) := by
  unfold Session.byteStep
  cases h : x.cnt <;> simp [Session.pending, h, quanta, quantum_eq, leftover, group2_pending]

/-- TOTAL grows by the number of characters emitted. -/
theorem Session.byteStep_total (x : Session) (b : Byte) :
    (x.byteStep b).1.total = x.total + BitVec.ofNat 32 (x.byteStep b).2.length := by
  unfold Session.byteStep; cases x.cnt <;> simp

/-- The missing low bits of a partial group stay zero (10_state.md R15). -/
theorem Session.byteStep_inv {x : Session} (b : Byte) (h : x.Inv) : (x.byteStep b).1.Inv := by
  refine ⟨fun ha => ?_, fun ha hc => ?_, fun ha hc => ?_⟩
  · rw [Session.byteStep_active] at ha
    have ht := h.total_mult ha
    unfold Session.byteStep
    cases x.cnt
    · exact ht
    · exact ht
    · simp only [BitVec.toNat_add, BitVec.reduceToNat]; omega
  · unfold Session.byteStep at hc ⊢
    cases hx : x.cnt <;> simp_all
  · unfold Session.byteStep at hc ⊢
    cases hx : x.cnt <;> simp_all

/-! Many byte steps (R100, R102). -/

@[simp] theorem Session.feed_nil (x : Session) : x.feed [] = (x, []) := rfl

theorem Session.feed_cons (x : Session) (b : Byte) (bs : List Byte) :
    x.feed (b :: bs) = (((x.byteStep b).1.feed bs).1, (x.byteStep b).2 ++ ((x.byteStep b).1.feed bs).2) := rfl

/-- Feeding `xs` then `ys` is feeding `xs ++ ys` (R102). -/
theorem Session.feed_append (x : Session) (xs ys : List Byte) :
    x.feed (xs ++ ys) = (((x.feed xs).1.feed ys).1, (x.feed xs).2 ++ ((x.feed xs).1.feed ys).2) := by
  induction xs generalizing x with
  | nil => simp
  | cons b bs ih => simp [Session.feed_cons, ih]

@[simp] theorem Session.feed_active (x : Session) (bs : List Byte) : (x.feed bs).1.active = x.active := by
  induction bs generalizing x with
  | nil => rfl
  | cons b bs ih => simp [Session.feed_cons, ih]

@[simp] theorem Session.feed_sink (x : Session) (bs : List Byte) : (x.feed bs).1.sink = x.sink := by
  induction bs generalizing x with
  | nil => rfl
  | cons b bs ih => simp [Session.feed_cons, ih]

@[simp] theorem Session.feed_ctx (x : Session) (bs : List Byte) : (x.feed bs).1.ctx = x.ctx := by
  induction bs generalizing x with
  | nil => rfl
  | cons b bs ih => simp [Session.feed_cons, ih]

theorem Session.length_pending (x : Session) : x.pending.length = x.cnt.count := by
  unfold Session.pending; cases x.cnt <;> rfl

theorem Session.leftover_pending (x : Session) : leftover x.pending = x.pending := by
  unfold Session.pending; cases x.cnt <;> rfl

theorem Session.quanta_pending (x : Session) : quanta x.pending = [] := by
  unfold Session.pending; cases x.cnt <;> rfl

/-- Feeding emits the quanta of the pending and the new bytes, and holds back what is left over. -/
theorem Session.feed_pending (x : Session) (bs : List Byte) :
    (x.feed bs).2 = quanta (x.pending ++ bs) ∧ (x.feed bs).1.pending = leftover (x.pending ++ bs) := by
  induction bs generalizing x with
  | nil => simp [Session.leftover_pending, Session.quanta_pending]
  | cons b bs ih =>
    obtain ⟨h1, h2⟩ := Session.byteStep_pending x b
    obtain ⟨i1, i2⟩ := ih (x.byteStep b).1
    have e : x.pending ++ b :: bs = (x.pending ++ [b]) ++ bs := by simp
    rw [Session.feed_cons]
    constructor
    · rw [e, quanta_append_leftover, ← h1, ← h2, ← i1]
    · rw [e, leftover_append, ← h2, ← i2]

/-- The characters a B64S.MORE emits: `4 * floor((CNT + len) / 3)` (R102). -/
theorem Session.length_feed (x : Session) (bs : List Byte) : (x.feed bs).2.length = x.moreCount bs.length := by
  rw [(x.feed_pending bs).1, length_quanta, List.length_append, Session.length_pending, Session.moreCount]

/-- CNT after a B64S.MORE: `(CNT + len) mod 3` (R102). -/
theorem Session.feed_count (x : Session) (bs : List Byte) : (x.feed bs).1.cnt.count = (x.cnt.count + bs.length) % 3 := by
  rw [← Session.length_pending, (x.feed_pending bs).2, length_leftover, List.length_append, Session.length_pending]

theorem Session.feed_total (x : Session) (bs : List Byte) :
    (x.feed bs).1.total = x.total + BitVec.ofNat 32 (x.feed bs).2.length := by
  induction bs generalizing x with
  | nil => simp
  | cons b bs ih =>
    rw [Session.feed_cons]
    simp only [ih, Session.byteStep_total, List.length_append, BitVec.ofNat_add, BitVec.add_assoc]

theorem Session.feed_inv {x : Session} (bs : List Byte) (h : x.Inv) : (x.feed bs).1.Inv := by
  induction bs generalizing x with
  | nil => exact h
  | cons b bs ih => exact ih (Session.byteStep_inv b h)

/-- Only alphabet characters are emitted (R97). -/
theorem Session.feed_alphabet (x : Session) (bs : List Byte) : ∀ ch ∈ (x.feed bs).2, ∃ v, ch = enc6 v := by
  rw [(x.feed_pending bs).1]; exact quanta_alphabet _

/-! The flush (R105). -/

theorem Session.length_flush (x : Session) (pad : Bool) : (x.flush pad).length = x.flushCount pad := by
  unfold Session.flush Session.flushCount
  cases x.cnt <;> cases pad <;> rfl

/-- The flush of a sound session: the characters of its pending bytes, then `=` if asked for. -/
theorem Session.flush_eq {x : Session} (pad : Bool) (h : x.Inv) (ha : x.active = true) :
    x.flush pad = tailText x.pending ++ (if pad then List.replicate (stdPadCount x.pending.length) PAD else []) := by
  unfold Session.flush Session.pending
  cases hc : x.cnt
  · cases pad <;> simp [tailText, stdPadCount]
  · have := partial1_byte0 x.g0 (h.partial_one ha hc)
    cases pad <;> simp [tailText, this, stdPadCount]
  · have := partial2_byte1 x.g1 (h.partial_two ha hc)
    cases pad <;> simp [tailText, this, stdPadCount]

/-- Only alphabet characters and `=` are emitted (R97). -/
theorem Session.flush_text (x : Session) (pad : Bool) : ∀ ch ∈ x.flush pad, ch = PAD ∨ ∃ v, ch = enc6 v := by
  intro ch hc
  unfold Session.flush at hc
  cases hx : x.cnt <;> cases pad <;> simp [hx] at hc <;> aesop

/-! A started, a fed and a finished session are sound. -/

theorem Session.started_inv (x : Session) (sink ctx : Word) : (x.started sink ctx).Inv :=
  ⟨fun _ => rfl, fun _ h => by simp at h, fun _ h => by simp at h⟩

theorem Session.finished_inv (x : Session) (pad : Bool) (c : Nat) : (x.finished pad c).Inv :=
  ⟨fun h => by simp at h, fun h => by simp at h, fun h => by simp at h⟩

/-! What the commands can answer, each said once. -/

/-- B64S.START: exactly below `N_ENC`, and always the same effect (R99). -/
theorem execB64sStart_next {sid : BitVec 8} {sink ctx : Word} {s t : State} :
    execB64sStart sid sink ctx s = .next t ↔
      ∃ x, s.session? sid = some x ∧ t = (s.setSession sid (x.started sink ctx)).complete 0 := by
  unfold execB64sStart
  cases h : s.session? sid <;> simp [eq_comm]

/-- B64S.MORE: its four conditions, and its effect (R100). -/
theorem execB64sMore_next {sid : BitVec 8} {addr len : Word} {s t : State} :
    execB64sMore sid addr len s = .next t ↔
      ∃ x bs, s.session? sid = some x ∧ admitted s.params.memSize addr.toNat len.toNat = true ∧ x.active = true ∧
        x.totalFits (x.moreCount len.toNat) = true ∧ bs.length = len.toNat ∧ s.mem.holds addr.toNat bs ∧
        t = ((s.setSession sid (x.feed bs).1).emit x (x.feed bs).2).complete (BitVec.ofNat 32 (x.feed bs).2.length) := by
  unfold execB64sMore
  cases h : s.session? sid with
  | none => simp
  | some x =>
    cases h1 : admitted s.params.memSize addr.toNat len.toNat
    · simp
    cases h2 : x.active
    · simp [h2]
    cases h3 : x.totalFits (x.moreCount len.toNat)
    · simp [h2, h3]
    cases h4 : s.mem.readBytes addr.toNat len.toNat with
    | error f =>
      simp only [h2, h3, Bool.not_true, Bool.false_eq_true, if_false, reduceCtorEq, false_iff]
      rintro ⟨y, bs, hy, -, -, -, hl, hh, -⟩
      rw [Memory.readBytes_eq_ok.mpr ⟨hl, hh⟩] at h4
      cases h4
    | ok bs =>
      obtain ⟨hl, hh⟩ := Memory.readBytes_eq_ok.mp h4
      simp only [h2, h3, Bool.not_true, Bool.false_eq_true, if_false, Host.Outcome.next.injEq]
      constructor
      · intro e; exact ⟨x, bs, rfl, trivial, h2, h3, hl, hh, e.symm⟩
      · rintro ⟨y, bs', hy, -, -, -, hl', hh', e⟩
        cases Option.some.inj hy
        rw [Memory.holds_unique hh hh' (hl.trans hl'.symm)]
        exact e.symm

/-- B64S.FINISH: its three conditions, and its effect (R104). -/
theorem execB64sFinish_next {sid : BitVec 8} {pad : Bool} {s t : State} :
    execB64sFinish sid pad s = .next t ↔
      ∃ x, s.session? sid = some x ∧ x.active = true ∧ x.totalFits (x.flushCount pad) = true ∧
        t = (((s.setSession sid (x.finished pad s.free)).emit x (x.flush pad)).draw 3).complete
          (x.finished pad s.free).total := by
  unfold execB64sFinish
  cases h : s.session? sid with
  | none => simp
  | some x =>
    cases h2 : x.active
    · simp [h2]
    cases h3 : x.totalFits (x.flushCount pad)
    · simp [h2, h3]
    simp only [h2, h3, Bool.not_true, Bool.false_eq_true, if_false, Host.Outcome.next.injEq]
    constructor
    · intro e; exact ⟨x, rfl, h2, h3, e.symm⟩
    · rintro ⟨y, hy, -, -, e⟩
      cases Option.some.inj hy
      exact e.symm

end Sys2Proof.Machine
end

