-- ==== Sys2Proof/Tests/Slice0.lean ====
section
/-! SUPPORT. Tests of single steps with expected values from 95_test_vectors.md (named in each docstring) and from the
encodings of 30_encoding.md, ill-formed terms for WellFormed, and one witness for each obligation that has hypotheses. -/

namespace Sys2Proof.Tests

open Sys2Proof.Machine

/-! Small states. -/

/-- Two sessions, 4 KiB of memory, the block encoder, filler `!`. -/
def cfg : Params := { memSize := 0x1000, hasEncb := true, blkFill := 0x21 }

/-- After reset, with bytes the host has written. -/
def withBytes (a : Nat) (bs : List Byte) : State := { State.resetOf 2 cfg with mem := Memory.writeBytes [] a bs }

/-- An active session. -/
def live (cnt : EncState) (g0 g1 g2 : Group) (total : Word) : Session :=
  { active := true, cnt := cnt, g0 := g0, g1 := g1, g2 := g2, total := total, sink := 1, ctx := 0xC0DE }

/-- Session 0 active, session 1 not, and bytes at 0x100. -/
def streaming (x : Session) (bs : List Byte) : State := { withBytes 0x100 bs with sessions := [x, Session.reset] }

/-- The result is a next state with a property. -/
def nextIs (r : Result) (p : State → Bool) : Bool :=
  match r with
  | .next t => p t
  | .fault _ => false
  | .refused _ => false

/-- The result is a refusal under a name. -/
def refusedAs (r : Result) (x : Refusal) : Bool :=
  match r with
  | .next _ => false
  | .fault _ => false
  | .refused y => y == x

/-- The result is a fault under a name. -/
def faultsAs (r : Result) (x : Fault) : Bool :=
  match r with
  | .next _ => false
  | .fault y => y == x
  | .refused _ => false

/-- The characters of a string, as bytes. -/
def chars (s : String) : List Byte := s.toList.map fun c => BitVec.ofNat 8 c.toNat

/-! Decoding (R46, R47, R55; words written field by field, `W3 W2 W1 W0`, most significant bit first). -/

/-- Format S: `0^8 · SID · 0^7 · 0 · 00010000`, SINK in `W1`, CTX in `W2` (Q1, Q2). -/
theorem test_decode_start :
    decode (Descriptor.ofWords 0 0xC0DE 1 (0b00000000#8 ++ 0b00000000#8 ++ 0b0000000#7 ++ 0b0#1 ++ 0b00010000#8)) =
      some (.b64sStart 0 1 0xC0DE) ∧
    decode (Descriptor.ofWords 0 0xFFFFFFFF 0xFFFFFFFF
        (0b00000000#8 ++ 0b11111111#8 ++ 0b0000000#7 ++ 0b0#1 ++ 0b00010000#8)) =
      some (.b64sStart 255 0xFFFFFFFF 0xFFFFFFFF) := by decide

/-- Format M (Q3). -/
theorem test_decode_more :
    decode (Descriptor.ofWords 0 11 0x205 (0b00000000#8 ++ 0b00000000#8 ++ 0b0000000#7 ++ 0b0#1 ++ 0b00010001#8)) =
      some (.b64sMore 0 0x205 11) := by decide

/-- Format F, the PAD bit is bit 8 (Q4, Q5). -/
theorem test_decode_finish :
    decode (Descriptor.ofWords 0 0 0 (0b00000000#8 ++ 0b00000000#8 ++ 0b0000000#7 ++ 0b1#1 ++ 0b00010010#8)) =
      some (.b64sFinish 0 true) ∧
    decode (Descriptor.ofWords 0 0 0 (0b00000000#8 ++ 0b00000011#8 ++ 0b0000000#7 ++ 0b0#1 ++ 0b00010010#8)) =
      some (.b64sFinish 3 false) := by decide

/-- Format B: IN in `W1`, LEN in `W2`, OUT in `W3` (Q6, Q7). -/
theorem test_decode_block :
    decode (Descriptor.ofWords 0x300 24 0x301 (0b00000000#8 ++ 0b00000000#8 ++ 0b0000000#7 ++ 0b0#1 ++ 0b00100000#8)) =
      some (.b64Dec 0x301 24 0x300) ∧
    decode (Descriptor.ofWords 0x600 4 0x100 (0b00000000#8 ++ 0b00000000#8 ++ 0b0000000#7 ++ 0b0#1 ++ 0b00100001#8)) =
      some (.b64Encb 0x100 4 0x600) := by decide

/-- Format X16: RAW in the low half of `W1`, SCALE in `W2`, FRAC in `W3` (Q8, P3). -/
theorem test_decode_x16 :
    decode (Descriptor.ofWords 31 0xFFFFFFFF (0b0000000000000000#16 ++ 0b1111111111111111#16)
        (0b00000000#8 ++ 0b00000000#8 ++ 0b0000000#7 ++ 0b0#1 ++ 0b00110000#8)) =
      some (.fxpCvtU16 0xFFFF 0xFFFFFFFF 31) ∧
    decode (Descriptor.ofWords 0 0x40000000 (0b0000000000000000#16 ++ 0b1111111111111110#16)
        (0b00000000#8 ++ 0b00000000#8 ++ 0b0000000#7 ++ 0b0#1 ++ 0b00110001#8)) =
      some (.fxpCvtS16 0xFFFE 0x40000000 0) := by decide

/-- Format X32 (Q9, P3). -/
theorem test_decode_x32 :
    decode (Descriptor.ofWords 32 0xFFFFFFFE 0xFFFFFFFF
        (0b00000000#8 ++ 0b00000000#8 ++ 0b0000000#7 ++ 0b0#1 ++ 0b00110010#8)) =
      some (.fxpCvtU32 0xFFFFFFFF 0xFFFFFFFE 32) ∧
    decode (Descriptor.ofWords 0 0x40000000 0x80000000
        (0b00000000#8 ++ 0b00000000#8 ++ 0b0000000#7 ++ 0b0#1 ++ 0b00110011#8)) =
      some (.fxpCvtS32 0x80000000 0x40000000 0) := by decide

/-- Reserved descriptors, by name (Q10 to Q16). -/
theorem test_decode_reserved :
    [0, 0x110, 0x1000000000000000000000012, 0x4000000000000001FFFE00000031, 0x10020, 0x13, 0x1000012].map
      (fun w => (decodeTableWord 128 w).isNone) = [true, true, true, true, true, true, true] := by decide

/-- The table's numbering: bit 0 is the lowest bit of `W0`; bits above `nbits` count as 0 (Q5). -/
theorem test_decode_table_word :
    decodeTableWord 128 0x30012 = some (.b64sFinish 3 false) ∧ decodeTableWord 16 0x30012 = some (.b64sFinish 0 false) := by
  decide

/-! WellFormed refuses an ill-formed term for each of its checks (R56). -/

theorem test_wellFormed_start_sid :
    Instr.wellFormed 1 true (.b64sStart 1 0 0) = false ∧ Instr.wellFormed 2 true (.b64sStart 1 0 0) = true := by decide

theorem test_wellFormed_more_sid :
    Instr.wellFormed 3 true (.b64sMore 3 0 0) = false ∧ Instr.wellFormed 4 true (.b64sMore 3 0 0) = true := by decide

theorem test_wellFormed_finish_sid :
    Instr.wellFormed 255 true (.b64sFinish 255 true) = false ∧ Instr.wellFormed 256 true (.b64sFinish 255 true) = true := by
  decide

theorem test_wellFormed_encb :
    Instr.wellFormed 1 false (.b64Encb 0 0 0) = false ∧ Instr.wellFormed 1 true (.b64Encb 0 0 0) = true := by decide

/-! Single commands. -/

/-- A START drops what was pending and keeps G0 to G2 (T19, P1 step 1). -/
theorem test_start :
    nextIs (exec (.b64sStart 0 10 7) (streaming (live .two 16 20 8 4) [])) (fun t =>
      t.session? 0 == some { live .empty 16 20 8 0 with sink := 10, ctx := 7 } && t.ret == 0 &&
        t.session? 1 == some Session.reset) = true := by decide

theorem test_start_reserved_sid : refusedAs (exec (.b64sStart 2 0 0) (withBytes 0 [])) (.reserved .session) = true := by decide

/-- Four bytes in one MORE (T9): `QUJD`, then CNT = 1, G0 = 17, G1 = 0. -/
theorem test_more :
    nextIs (exec (.b64sMore 0 0x100 4) (streaming (live .empty 0 0 0 0) [0x41, 0x42, 0x43, 0x44])) (fun t =>
      t.ret == 4 && t.emissions.map (fun e => e.ch) == chars "QUJD" && t.session? 0 == some (live .one 17 0 8 4)) =
      true := by decide

/-- The TOTAL bound (T20): 3 bytes refused, 2 accepted. -/
theorem test_more_total :
    refusedAs (exec (.b64sMore 0 0x100 3) (streaming (live .empty 0 0 0 0xFFFFFFFC) [0x41, 0x42, 0x43])) .totalBound = true ∧
    nextIs (exec (.b64sMore 0 0x100 2) (streaming (live .empty 0 0 0 0xFFFFFFFC) [0x41, 0x42, 0x43])) (fun t =>
      t.ret == 0 && t.session? 0 == some (live .two 16 20 8 0xFFFFFFFC)) = true := by decide

/-- FINISH from TWO with and without padding (T5, T6); TOTAL, ACTIVE and the history. -/
theorem test_finish :
    nextIs (exec (.b64sFinish 0 true) (streaming (live .two 16 20 8 0) [])) (fun t =>
      t.ret == 4 && t.emissions == (chars "QUI=").map (fun c => ⟨1, 0xC0DE, c⟩) &&
        (t.session? 0).map (fun x => (x.active, x.total, x.sink, x.ctx)) == some (false, 4, 1, 0xC0DE)) = true ∧
    nextIs (exec (.b64sFinish 0 false) (streaming (live .two 16 20 8 0xFFFFFFFC) [])) (fun t =>
      t.ret == 0xFFFFFFFF && t.emissions.map (fun e => e.ch) == chars "QUI") = true := by decide

/-- FINISH from ONE (T12), and on a session that is not active (T18). -/
theorem test_finish_one_and_inactive :
    nextIs (exec (.b64sFinish 0 true) (streaming (live .one 63 48 0 0) [])) (fun t =>
      t.ret == 4 && t.emissions.map (fun e => e.ch) == chars "/w==") = true ∧
    refusedAs (exec (.b64sFinish 1 true) (streaming (live .one 63 48 0 0) [])) .sessionNotActive = true := by decide

/-- In place (D31), and behind the terminator nothing is examined (D26). -/
theorem test_dec :
    nextIs (exec (.b64Dec 0x400 4 0x400) (withBytes 0x400 (chars "QUI="))) (fun t =>
      t.ret == 2 && t.mem == Memory.writeBytes [] 0x400 [0x41, 0x42, 0x49, 0x3D]) = true ∧
    nextIs (exec (.b64Dec 0x400 8 0x500) (withBytes 0x400 (chars "QQ==QUJD"))) (fun t =>
      t.ret == 1 && t.mem.read 0x500 == some 0x41 && t.mem.read 0x501 == none) = true := by decide

/-- Failure at position 4 after two writes (D21), and a pad at position 2 (D29). -/
theorem test_dec_fails :
    nextIs (exec (.b64Dec 0x400 4 0x500) (withBytes 0x400 (chars "QUJ|"))) (fun t =>
      t.ret == 0xFFFF && t.mem.read 0x400 == some 0x51 && t.mem.read 0x503 == none && t.mem.wf) = true ∧
    refusedAs (exec (.b64Dec 0x400 4 0x500) (withBytes 0x400 (chars "Q=QQ"))) .padMisplaced = true := by decide

/-- A tail of one byte with the filler in place of `=` (E5). -/
theorem test_encb :
    nextIs (exec (.b64Encb 0x100 4 0x600) (withBytes 0x100 [0x41, 0x42, 0x43, 0x44])) (fun t =>
      t.ret == 8 && (List.range 9).map (fun k => t.mem.read (0x600 + k)) ==
        (chars "QUJDRA!!").map some ++ [none]) = true := by decide

/-- A byte nothing has written (R153), and no block encoder (R56). -/
theorem test_encb_stops :
    faultsAs (exec (.b64Encb 0x100 2 0x600) (withBytes 0x100 [0x41])) (.unwrittenByte 0x101) = true ∧
    refusedAs (exec (.b64Encb 0x100 1 0x600) { withBytes 0x100 [0x41] with params := { cfg with hasEncb := false } })
      (.reserved .noEncb) = true := by decide

/-- X12, and S8: overflow leaves FXOUT. -/
theorem test_cvt_u16 :
    nextIs (exec (.fxpCvtU16 0x3039 0x00418937 16) (withBytes 0 [])) (fun t => t.ret == 0 && t.fxout == 0x0018B0A4) = true ∧
    nextIs (exec (.fxpCvtU16 0xFFFF 0xFFFFFFFF 31) { withBytes 0 [] with fxout := 5 }) (fun t =>
      t.ret == 2 && t.fxout == 5 && t.fxoutWritten == false) = true := by decide

/-- X21 and X24. -/
theorem test_cvt_s16 :
    nextIs (exec (.fxpCvtS16 0xFFFD 0x40000000 0) (withBytes 0 [])) (fun t => t.ret == 0 && t.fxout == 0xFFFFFFFE) = true ∧
    nextIs (exec (.fxpCvtS16 0x8000 0x40000000 15) (withBytes 0 [])) (fun t => t.ret == 0 && t.fxout == 0xE0000000) = true := by
  decide

/-- X10 and X19b. -/
theorem test_cvt_u32 :
    nextIs (exec (.fxpCvtU32 0x64 0x0CCCCCCD 0) (withBytes 0 [])) (fun t => t.ret == 0 && t.fxout == 0x0B) = true ∧
    nextIs (exec (.fxpCvtU32 0xFFFFFFFF 0xFFFFFFFF 32) (withBytes 0 [])) (fun t => t.ret == 1) = true := by decide

/-- X32 and X38. -/
theorem test_cvt_s32 :
    nextIs (exec (.fxpCvtS32 0x80000000 0xFFFFFFFF 0) (withBytes 0 [])) (fun t => t.ret == 0 && t.fxout == 1) = true ∧
    nextIs (exec (.fxpCvtS32 0x80000000 2 31) (withBytes 0 [])) (fun t => t.ret == 2) = true := by decide

set_option maxRecDepth 4000 in
/-- The reference text of S5 and of T15. -/
theorem test_std_base64 :
    stdBase64 [0xfc, 0x24, 0x57, 0xd0, 0x94, 0x20, 0x0f, 0xe4, 0x1a, 0xdf, 0x95, 0x4f, 0x49, 0x21, 0xed, 0x6f] =
      chars "/CRX0JQgD+Qa35VPSSHtbw==" ∧
    stdBase64 [0x66, 0x6F, 0x6F, 0x62, 0x61, 0x72] = chars "Zm9vYmFy" := by decide

/-- The layouts on "ABC": `QUJD` (T9), groups 16, 20, 9, 3. -/
theorem test_layouts :
    encodeLayout (0x41, 0x42, 0x43) = (16, 20, 9, 3) ∧ decodeLayout (16, 20, 9, 3) = (0x41, 0x42, 0x43) ∧
    quantum 0x41 0x42 0x43 = chars "QUJD" := by decide

/-- The decoder's table on D36 and D37: which of two bad characters is judged first. -/
theorem test_table_order :
    tableScan .needFirst (chars "|=QQ") = .fail ∧ tableScan .needFirst (chars "=|QQ") = .refuse := by decide

/-! Witnesses: for each obligation with hypotheses, a state and operands that meet all of them together. -/

/-- Memory written in one go holds what was written. -/
theorem holds_withBytes (a : Nat) (bs : List Byte) : (withBytes a bs).mem.holds a bs := Memory.holds_writeBytes _ _ _

/-- "ABC" at 0x100, session 0 active in state ONE. -/
def abc : State := streaming (live .one 16 16 0 0xFFFFFFF8) [0x41, 0x42, 0x43]

theorem abc_holds : abc.mem.holds 0x100 [0x41, 0x42, 0x43] := Memory.holds_writeBytes _ _ _

/-- A state with one interaction to come. -/
def facing (e : HostEvent) (s : State) : State := { s with inputs := [e] }

theorem cfg_inv (a : Nat) (bs : List Byte) (h : bs = [] ∨ a + bs.length ≤ 0x1000) : (withBytes a bs).Inv where
  params_legal := by show cfg.legal = true; decide
  sessions_some := by show 1 ≤ 2; decide
  sessions_max := by show 2 ≤ 256; decide
  mem_wf := Memory.wf_writeBytes _ _ rfl
  mem_inside := Memory.inside_writeBytes _ (by simp) h
  sessions_inv := by
    intro x hx
    have hr : x = Session.reset := List.eq_of_mem_replicate (n := 2) hx
    subst hr
    exact ⟨fun h => absurd h (by decide), fun h => absurd h (by decide), fun h => absurd h (by decide)⟩
  emissions_text := by intro e he; cases he
  written := fun h => absurd (show false = true from h) (by decide)

theorem witness_EncodeOfDecodeIsTheDescriptor :
    decodeNamed 0x000000000000000B0000020500000011 = .ok (.b64sMore 0 0x205 11) := by decide

theorem witness_StepRunsTheDecodedCommand :
    (facing (.present 0x112) abc).inputs = .present 0x112 :: [] ∧ decode 0x112 = some (.b64sFinish 0 true) ∧
    decodeTableWord 128 0x112 = some (.b64sFinish 0 true) := by decide

theorem witness_ReservedDescriptorsAreRefused :
    (facing (.present 0x13) abc).inputs = .present 0x13 :: [] ∧ decode 0x13 = none ∧
    decode 0x00020012 = some (.b64sFinish 2 false) ∧ abc.nEnc ≤ (2 : BitVec 8).toNat := by decide

/-- One clause a line, addresses at `MEM_SIZE - 1` and `MEM_SIZE`. -/
theorem witness_HostInteractions :
    abc.inputs = [] ∧
    ((facing .readRet { abc with retWritten := true }).inputs = [.readRet] ∧ ({ abc with retWritten := true } : State).retWritten = true) ∧
    ((facing .readRet abc).inputs = [.readRet] ∧ abc.retWritten = false) ∧
    ((facing .readFxout { abc with fxoutWritten := true }).inputs = [.readFxout] ∧
      ({ abc with fxoutWritten := true } : State).fxoutWritten = true) ∧
    ((facing .readFxout abc).inputs = [.readFxout] ∧ abc.fxoutWritten = false) ∧
    ((facing (.readByte 0xFFF) (withBytes 0xFFF [7])).inputs = [.readByte 0xFFF] ∧ (0xFFF : Word).toNat < cfg.memSize ∧
      (withBytes 0xFFF [7]).mem.read 0xFFF = some 7) ∧
    ((facing (.readByte 0xFFE) (withBytes 0xFFF [7])).inputs = [.readByte 0xFFE] ∧ (0xFFE : Word).toNat < cfg.memSize ∧
      (withBytes 0xFFF [7]).mem.read 0xFFE = none) ∧
    ((facing (.readByte 0x1000) abc).inputs = [.readByte 0x1000] ∧ abc.params.memSize ≤ (0x1000 : Word).toNat) ∧
    ((facing (.writeByte 0x1000 7) abc).inputs = [.writeByte 0x1000 7] ∧ abc.params.memSize ≤ (0x1000 : Word).toNat) := by
  decide

theorem witness_HostWriteIsReadBack :
    (facing (.writeByte 0xFFF 7) abc).inputs = [.writeByte 0xFFF 7] ∧ (0xFFF : Word).toNat < abc.params.memSize := by decide

theorem witness_ResetLeavesTheBlockQuiet :
    (facing .reset abc).inputs = [.reset] ∧ Session.reset ∈ (State.resetOf 2 cfg).sessions := by decide

theorem witness_ResetIsSound : 1 ≤ 256 ∧ 256 ≤ 256 ∧ cfg.legal = true := by decide

theorem witness_StepKeepsTheStateSound : ∃ s t : State, s.Inv ∧ step s = .next t ∧ t.mem ≠ s.mem := by
  refine ⟨facing (.writeByte 0xFFF 7) (withBytes 0x100 [1]), _, ?_, rfl, by decide⟩
  obtain ⟨i1, i2, i3, i4, i5, i6, i7, i8⟩ := cfg_inv 0x100 [1] (.inr (by decide))
  exact ⟨i1, i2, i3, i4, i5, i6, i7, i8⟩

theorem witness_ParametersAreNeverWritten : ∃ t, step (facing .reset abc) = .next t := ⟨_, rfl⟩

theorem witness_StartOpensASession :
    abc.session? 0 = some (live .one 16 16 0 0xFFFFFFF8) ∧ ∃ t, exec (.b64sStart 0 2 0) abc = .next t := ⟨by decide, _, rfl⟩

/-- One clause for each state; TOTAL at the largest value the last one admits. -/
theorem witness_OneByteTakesOneTransition :
    (0x100 : Word).toNat < cfg.memSize ∧ (withBytes 0x100 [0x41]).mem.read 0x100 = some 0x41 ∧
    (∀ c : EncState, (streaming (live c 16 16 0 0xFFFFFFFB) [0x41]).session? 0 = some (live c 16 16 0 0xFFFFFFFB) ∧
      (live c 16 16 0 0xFFFFFFFB).active = true ∧ (live c 16 16 0 0xFFFFFFFB).total.toNat + 4 ≤ 2 ^ 32 - 1) := by
  refine ⟨by decide, by decide, fun c => ?_⟩
  cases c <;> decide

/-- TOTAL at the largest multiple of 4 that is admitted. -/
theorem witness_MoreEmitsTheCompleteQuanta :
    abc.session? 0 = some (live .one 16 16 0 0xFFFFFFF8) ∧ (live .one 16 16 0 0xFFFFFFF8).active = true ∧
    admitted abc.params.memSize 0x100 3 = true ∧ abc.mem.holds 0x100 [0x41, 0x42, 0x43] ∧
    (0xFFFFFFF8 : Word).toNat + 4 * ((EncState.one.count + 3) / 3) ≤ 2 ^ 32 - 1 :=
  ⟨by decide, by decide, by decide, abc_holds, by decide⟩

theorem witness_SplittingAMoreChangesNothing :
    abc.params.memSize ≤ 2 ^ 32 ∧ (1 : Word).toNat + (2 : Word).toNat < 2 ^ 32 ∧
      ∃ t, exec (.b64sMore 0 0x100 (1 + 2)) abc = .next t := ⟨by decide, by decide, _, rfl⟩

/-- Each state with each `pad`, TOTAL at the bound of the longest flush. -/
theorem witness_FinishFlushesTheSession :
    ∀ c : EncState, (streaming (live c 16 16 0 0xFFFFFFFB) []).session? 0 = some (live c 16 16 0 0xFFFFFFFB) ∧
      (live c 16 16 0 0xFFFFFFFB).active = true ∧ (0xFFFFFFFB : Word).toNat + 4 ≤ 2 ^ 32 - 1 := by
  intro c
  cases c <;> decide

theorem witness_InactiveSessionIsRefused :
    abc.session? 1 = some Session.reset ∧ Session.reset.active = false ∧ admitted abc.params.memSize 0xFFF 1 = true := by
  decide

theorem witness_OnlyStartReopensASession :
    abc.session? 1 = some Session.reset ∧ Session.reset.active = false ∧
    (∀ i ∈ [Instr.b64sMore 0 0x100 3, .b64sStart 0 1 1], ∀ sink ctx, i ≠ .b64sStart 1 sink ctx) ∧
    ∃ t, runCommands [.b64sMore 0 0x100 3, .b64sStart 0 1 1] abc = .next t := by
  refine ⟨by decide, by decide, ?_, _, rfl⟩
  intro i hi sink ctx
  simp only [List.mem_cons, List.not_mem_nil, or_false] at hi
  rcases hi with rfl | rfl <;> simp

/-- Both sides of the bound: T20's TOTAL with 2 and with 3 bytes, and with and without `pad`. -/
theorem witness_TotalBoundRefusesExactly :
    (streaming (live .empty 0 0 0 0xFFFFFFFC) []).session? 0 = some (live .empty 0 0 0 0xFFFFFFFC) ∧
    (live .empty 0 0 0 0xFFFFFFFC).active = true ∧ admitted cfg.memSize 0x100 3 = true ∧
    2 ^ 32 - 1 < (0xFFFFFFFC : Word).toNat + 4 * ((EncState.empty.count + 3) / 3) ∧
    ¬ 2 ^ 32 - 1 < (0xFFFFFFFC : Word).toNat + 4 * ((EncState.empty.count + 2) / 3) ∧
    (2 ^ 32 - 1 < (0xFFFFFFFC : Word).toNat + 4 ∧ ¬ 2 ^ 32 - 1 < (0xFFFFFFFC : Word).toNat + 3) := by decide

/-- Pieces of 2, 0 and 1 bytes. -/
def pieces : List (Word × List Byte) := [(0x100, [0x41, 0x42]), (0x102, []), (0x102, [0x43])]

theorem pieces_ok : ∀ p ∈ pieces, p.2.length < 2 ^ 32 ∧ admitted abc.params.memSize p.1.toNat p.2.length = true ∧
    abc.mem.holds p.1.toNat p.2 := by
  intro p hp
  simp only [pieces, List.mem_cons, List.not_mem_nil, or_false] at hp
  rcases hp with rfl | rfl | rfl <;> refine ⟨by decide, by decide, ?_⟩ <;> unfold Memory.holds <;> decide

/-- With and without `=`, and a length whose text fits TOTAL only without. -/
theorem witness_StreamIsStandardBase64 :
    (0 : BitVec 8).toNat < abc.nEnc ∧ [0x41, 0x42, 0x43] = pieces.flatMap (fun p => p.2) ∧
    (∀ pad, (streamText pad [0x41, 0x42, 0x43]).length ≤ 2 ^ 32 - 1) ∧
    (∀ p ∈ pieces, p.2.length < 2 ^ 32 ∧ admitted abc.params.memSize p.1.toNat p.2.length = true ∧
      abc.mem.holds p.1.toNat p.2) ∧
    (∀ bs : List Byte, bs.length = 3 * 2 ^ 30 - 1 →
      (streamText false bs).length ≤ 2 ^ 32 - 1 ∧ ¬ (streamText true bs).length ≤ 2 ^ 32 - 1) := by
  refine ⟨by decide, by decide, fun pad => ?_, pieces_ok, fun bs h => ⟨?_, ?_⟩⟩
  · cases pad <;> decide
  · rw [streamText, if_neg (by decide), length_stdUnpadded, h]; decide
  · rw [streamText, if_pos rfl, length_stdBase64, h]; decide

theorem witness_AcceptedBytesAreCounted :
    (∀ p ∈ pieces, p.2.length < 2 ^ 32 ∧ abc.mem.holds p.1.toNat p.2) ∧
    ∃ t, runCommands (.b64sStart 0 1 0 :: morePieces 0 pieces) abc = .next t :=
  ⟨fun p hp => ⟨(pieces_ok p hp).1, (pieces_ok p hp).2.2⟩, _, rfl⟩

theorem witness_SessionsDoNotInterfere :
    (Instr.b64sMore 0 0x100 3).sid? = some 0 ∧
    abc.session? 0 = ({ abc with sessions := [live .one 16 16 0 0xFFFFFFF8, live .two 1 2 3 4], ret := 9 } : State).session? 0 ∧
    ∃ t, exec (.b64sMore 0 0x100 3) abc = .next t := ⟨rfl, by decide, _, rfl⟩

theorem witness_OnlyStartAndFinishChangeActive :
    (∃ t, exec (.b64sFinish 0 true) abc = .next t ∧ (t.session? 0).map (fun x => x.active) = some false) ∧
    (∃ t, exec (.b64sStart 1 2 3) abc = .next t ∧ (t.session? 1).map (fun x => x.active) = some true) :=
  ⟨⟨_, rfl, by decide⟩, ⟨_, rfl, by decide⟩⟩

/-- `QQ==` from state ONE, and a B64S.MORE that completes a quantum. -/
theorem witness_EmissionsAreOnlyAppended :
    (∃ t, exec (.b64sFinish 0 true) abc = .next t ∧ t.emissions ≠ abc.emissions) ∧
    ∃ t, exec (.b64sMore 0 0x100 3) abc = .next t ∧ t.emissions ≠ abc.emissions := ⟨⟨_, rfl, by decide⟩, ⟨_, rfl, by decide⟩⟩

theorem witness_OnlyTheBlockCodecWritesMemory :
    ∃ t, exec (.b64Encb 0x100 3 0x200) abc = .next t ∧ t.mem ≠ abc.mem := ⟨_, rfl, by decide⟩

theorem witness_FailedConversionKeepsFxout :
    (∃ t, exec (.fxpCvtU32 1 1 32) abc = .next t ∧ t.ret ≠ 0) ∧ (∃ t, exec (.fxpCvtU32 1 1 31) abc = .next t ∧ t.ret = 0) ∧
    ∃ t, exec (.b64sFinish 0 true) abc = .next t := ⟨⟨_, rfl, by decide⟩, ⟨_, rfl, by decide⟩, ⟨_, rfl⟩⟩

/-- Inputs of 3, 1 and 2 bytes, one for each clause about a group. -/
theorem witness_EncbWritesGroupsAndFiller :
    abc.params.hasEncb = true ∧
    (∀ n ∈ [1, 2, 3], admitted abc.params.memSize 0x100 n = true ∧ admitted abc.params.memSize 0xFFC (encLen n) = true ∧
      encOverlapForbidden 0x100 n 0xFFC = false ∧ encLen n ≤ 2 ^ 32 - 1) ∧
    abc.mem.holds 0x100 [0x41, 0x42, 0x43] ∧ abc.mem.holds 0x100 [0x41, 0x42] ∧ abc.mem.holds 0x100 [0x41] ∧
    (3 * 0 + 3 ≤ 3 ∧ 3 * 0 + 1 = 1 ∧ 3 * 0 + 2 = 2) := by
  refine ⟨by decide, by decide, abc_holds, ?_, ?_, by decide⟩ <;> unfold Memory.holds <;> decide

theorem witness_EncbTextIsStandardButForTheFiller :
    abc.mem.holds 0x100 [0x41, 0x42, 0x43] ∧ (∃ t, exec (.b64Encb 0x100 3 0x200) abc = .next t) ∧ 3 % 3 = 0 :=
  ⟨abc_holds, ⟨_, rfl⟩, rfl⟩

theorem witness_EncbLengthLaw :
    (∃ t, exec (.b64Encb 0x100 2 0x200) abc = .next t) ∧ ∃ t, exec (.b64Encb 0x100 0 0x200) abc = .next t :=
  ⟨⟨_, rfl⟩, ⟨_, rfl⟩⟩

theorem witness_EncbTailIsRejectedByDec :
    ∃ t, fillLegal abc.params.blkFill = true ∧ 2 % 3 ≠ 0 ∧ encLen 2 ≤ 87376 ∧ exec (.b64Encb 0x100 2 0x200) abc = .next t ∧
      admitted t.params.memSize 0x300 (decMax (encLen 2)) = true ∧ decOverlapForbidden 0x200 (encLen 2) 0x300 = false :=
  ⟨_, by decide, by decide, by decide, rfl, by decide, by decide⟩

/-- A text of `n` characters at 0x400 can be decoded to 0x500: ranges, overlap, count. -/
def fits (n : Nat) : Bool :=
  admitted cfg.memSize 0x400 n && admitted cfg.memSize 0x500 (decMax n) && !decOverlapForbidden 0x400 n 0x500 &&
    decide (decMax n ≤ 65534)

/-- One text for each way to end. -/
theorem witness_DecIsTheStateTable :
    (withBytes 0x400 (chars "QQ==")).mem.holds 0x400 (chars "QQ==") ∧ tableScan .needFirst (chars "QQ==") = .succeed [0x41] ∧
    (withBytes 0x400 (chars "QQ|=")).mem.holds 0x400 (chars "QQ|=") ∧ tableScan .needFirst (chars "QQ|=") = .fail ∧
    (withBytes 0x400 (chars "Q===")).mem.holds 0x400 (chars "Q===") ∧ tableScan .needFirst (chars "Q===") = .refuse ∧
    (chars "QQ==").length = 4 ∧ fits 4 = true :=
  ⟨holds_withBytes _ _, by decide, holds_withBytes _ _, by decide, holds_withBytes _ _, by decide, by decide, by decide⟩

/-- The whole text (`QQ`), a pad at position 4 (`QUI=`) and at position 3 (`QQ==`). -/
theorem witness_DecReadsUpToTheTerminator :
    ((withBytes 0x400 (chars "QQ")).mem.groupsAt 0x400 2 (fun _ => 16) ∧ 2 % 2 = 0) ∧
    ((withBytes 0x400 (chars "QQI=")).mem.groupsAt 0x400 3 (fun k => if k = 2 then 8 else 16) ∧ 3 < 4 ∧ 3 % 4 = 3 ∧
      (withBytes 0x400 (chars "QQI=")).mem.read (0x400 + 3) = some 0x3D) ∧
    ((withBytes 0x400 (chars "QQ==")).mem.groupsAt 0x400 2 (fun _ => 16) ∧ 2 < 4 ∧ 2 % 4 = 2 ∧
      (withBytes 0x400 (chars "QQ==")).mem.read (0x400 + 2) = some 0x3D ∧
      ((withBytes 0x400 (chars "QQ==")).mem.read (0x400 + 2 + 1)).isSome = true) ∧
    fits 2 = true ∧ fits 4 = true := by
  refine ⟨⟨?_, by decide⟩, ⟨?_, by decide⟩, ⟨?_, by decide⟩, by decide⟩ <;> unfold Memory.groupsAt <;> decide

/-- `=` at position 1 and at position 2. -/
theorem witness_DecRefusesAMisplacedPad :
    ((withBytes 0x400 (chars "=Q")).mem.groupsAt 0x400 0 (fun _ => 16) ∧
      (withBytes 0x400 (chars "=Q")).mem.read (0x400 + 0) = some 0x3D ∧
      ((withBytes 0x400 (chars "=Q")).mem.read (0x400 + 0 + 1)).isSome = true) ∧
    ((withBytes 0x400 (chars "Q=")).mem.groupsAt 0x400 1 (fun _ => 16) ∧ 1 < 2 ∧ 1 % 4 = 1 ∧
      (withBytes 0x400 (chars "Q=")).mem.read (0x400 + 1) = some 0x3D) ∧ fits 2 = true ∧ 2 % 2 = 0 := by
  refine ⟨⟨?_, by decide⟩, ⟨?_, by decide⟩, by decide⟩ <;> unfold Memory.groupsAt <;> decide

/-- A line feed at positions 1 and 2. -/
theorem witness_DecFailsOnAForeignCharacter :
    ((withBytes 0x400 [0x0A, 0x51]).mem.groupsAt 0x400 0 (fun _ => 16) ∧
      (withBytes 0x400 [0x0A, 0x51]).mem.read (0x400 + 0) = some 0x0A ∧
      ((withBytes 0x400 [0x0A, 0x51]).mem.read (0x400 + 0 + 1)).isSome = true) ∧
    ((withBytes 0x400 [0x51, 0x0A]).mem.groupsAt 0x400 1 (fun _ => 16) ∧
      (withBytes 0x400 [0x51, 0x0A]).mem.read (0x400 + 1) = some 0x0A) ∧ dec8 0x0A = none ∧ (0x0A : Byte) ≠ 0x3D ∧
    fits 2 = true ∧ 2 % 2 = 0 := by
  refine ⟨⟨?_, by decide⟩, ⟨?_, by decide⟩, by decide⟩ <;> unfold Memory.groupsAt <;> decide

/-- D34's shape: 87380 characters `A` at 0, decoded in place, give 65535 bytes. -/
theorem witness_DecRefusesTheCountLimit :
    (Memory.writeBytes [] 0 (List.replicate 87380 0x41)).groupsAt 0 87380 (fun _ => 0) ∧ 87380 % 2 = 0 ∧
    65535 ≤ decMax 87380 ∧ admitted Config.params.memSize 0 87380 = true ∧
    admitted Config.params.memSize 0 (decMax 87380) = true ∧ decOverlapForbidden 0 87380 0 = false := by
  refine ⟨fun k hk => ?_, by decide, by decide, by decide, by decide, by decide⟩
  rw [Memory.read_writeBytes, List.length_replicate, if_pos ⟨by omega, by omega⟩, Nat.zero_add, Nat.sub_zero,
    List.getElem?_replicate, if_pos hk]
  rfl

theorem witness_DecFailsOnOddLength :
    admitted abc.params.memSize 0x100 3 = true ∧ admitted abc.params.memSize 0x200 (decMax 3) = true ∧
    decOverlapForbidden 0x100 3 0x200 = false ∧ (3 : Word).toNat % 2 = 1 := by decide

/-- A count and the sentinel. -/
theorem witness_DecResultIsACountOrTheSentinel :
    (∃ t, exec (.b64Dec 0x400 2 0x500) (withBytes 0x400 (chars "QQ")) = .next t ∧ t.ret = 1) ∧
    ∃ t, exec (.b64Dec 0x400 2 0x500) (withBytes 0x400 (chars "Q|")) = .next t ∧ t.ret = 0x0000FFFF :=
  ⟨⟨_, rfl, by decide⟩, ⟨_, rfl, by decide⟩⟩

theorem witness_DecInPlaceEqualsDisjoint :
    (withBytes 0x400 (chars "QQ")).mem.holds 0x400 (chars "QQ") ∧ decMax 2 ≤ 65534 ∧
    admitted cfg.memSize 0x500 (decMax 2) = true ∧ overlaps 0x400 2 0x500 (decMax 2) = false ∧
    ∃ t, exec (.b64Dec 0x400 2 0x400) (withBytes 0x400 (chars "QQ")) = .next t ∧ t.ret ≠ 0x0000FFFF :=
  ⟨holds_withBytes _ _, by decide, by decide, by decide, _, rfl, by decide⟩

theorem witness_DecOfStandardTextIsTheBytes :
    (stdBase64 [0x41]).length = 4 ∧ 4 ≤ 87376 ∧
    (withBytes 0x400 (stdBase64 [0x41])).mem.holds 0x400 (stdBase64 [0x41]) ∧
    admitted cfg.memSize 0x400 4 = true ∧ admitted cfg.memSize 0x500 (decMax 4) = true ∧
    decOverlapForbidden 0x400 4 0x500 = false :=
  ⟨by decide, by decide, holds_withBytes _ _, by decide, by decide, by decide⟩

/-- The last byte of memory is in range, the next one is not, and an empty range always is. -/
theorem witness_RangesOutsideMemoryAreRefused :
    abc.session? 0 = some (live .one 16 16 0 0xFFFFFFF8) ∧ abc.params.hasEncb = true ∧
    ¬ abc.params.memSize < (0xFFF : Word).toNat + (1 : Word).toNat ∧
    ((2 : Word).toNat ≠ 0 ∧ abc.params.memSize < (0xFFF : Word).toNat + (2 : Word).toNat) ∧ ¬ (0 : Word).toNat ≠ 0 := by decide

theorem witness_OverlapsAreRefusedButInPlace :
    admitted abc.params.memSize 0x100 4 = true ∧ admitted abc.params.memSize 0x101 (decMax 4) = true ∧
    abc.params.hasEncb = true ∧ admitted abc.params.memSize 0x104 (encLen 4) = true ∧
    decOverlapForbidden 0x100 4 0x101 = true ∧ encOverlapForbidden 0x100 4 0x104 = false := by decide

theorem witness_BlockCodecDependsOnItsInputOnly :
    abc.params = ({ abc with sessions := [], fxout := 7 } : State).params ∧
    (∀ k, k < 2 → abc.mem.read (0x100 + k) = ({ abc with sessions := [], fxout := 7 } : State).mem.read (0x100 + k)) ∧
    (∃ t, exec (.b64Dec 0x100 2 0x200) abc = .next t) ∧ ∃ t, exec (.b64Encb 0x100 2 0x200) abc = .next t :=
  ⟨rfl, fun _ _ => rfl, ⟨_, rfl⟩, ⟨_, rfl⟩⟩

theorem witness_FailedDecodeFailsAgain :
    (∃ t, exec (.b64Dec 0x400 2 0x500) (withBytes 0x400 (chars "Q|")) = .next t ∧ t.ret = 0x0000FFFF) ∧
    overlaps 0x400 2 0x500 (decMax 2) = false := ⟨⟨_, rfl, by decide⟩, by decide⟩

/-- 32 and 31 fractional bits; X13 and X14 on either side of 2^32. -/
theorem witness_CoreComputesTheRoundedProduct :
    31 < (32 : Word).toNat ∧ (31 : Word).toNat ≤ 31 ∧
    0xFFFFFFFF < ((2 : Word).toNat * (0xFFFFFFFF : Word).toNat + (2 ^ (31 - 31) - 1)) / 2 ^ (31 - 31) ∧
    ((1 : Word).toNat * (0xFFFFFFFF : Word).toNat + (2 ^ (31 - 31) - 1)) / 2 ^ (31 - 31) ≤ 0xFFFFFFFF := by decide

/-- -2^31, both with a result and with a failure (X29, X38). -/
theorem witness_SignedWrapperUsesTheMagnitude :
    (-2 ^ 31 : Int) ≤ -2 ^ 31 ∧ (-2 ^ 31 : Int) ≤ 2 ^ 31 - 1 ∧
    fxCore (BitVec.ofNat 32 (-2 ^ 31 : Int).natAbs) 0x80000000 0 = .ok 0x80000000 ∧
    fxCore (BitVec.ofNat 32 (-2 ^ 31 : Int).natAbs) 2 31 = .failed .magnitudeOverflow := by decide

/-- The exact result by the core's own division, for the witnesses below. -/
theorem fxExact_eq (r sc f : Nat) : fxExact r sc f = (r * sc + (2 ^ (31 - f) - 1)) / 2 ^ (31 - f) := by
  rw [ceil_div_pow, fxExact]
  push_cast
  rfl

/-- X15 at 16 bits and X13 at 32, the largest results. -/
theorem witness_UnsignedConversionResult :
    (31 : Word).toNat ≤ 31 ∧ fxExact (0xFFFF : BitVec 16).toNat (0x00010001 : Word).toNat 31 < 2 ^ 32 ∧
    fxExact (1 : Word).toNat (0xFFFFFFFF : Word).toNat 31 < 2 ^ 32 := by
  refine ⟨by decide, ?_, ?_⟩ <;> rw [fxExact_eq] <;> decide

/-- X24 and X35. -/
theorem witness_SignedConversionResult :
    (31 : Word).toNat ≤ 31 ∧ fxExact (0x8000 : BitVec 16).toInt.natAbs (0x40000000 : Word).toNat 15 < 2 ^ 32 ∧
    fxExact (0xFFFFFFFF : Word).toInt.natAbs (0xFFFFFFFF : Word).toNat 31 < 2 ^ 32 := by
  refine ⟨by decide, ?_, ?_⟩ <;> rw [fxExact_eq] <;> decide

theorem witness_FracOutOfRangeComesFirst : 31 < (32 : Word).toNat := by decide

/-- S8 at 16 bits, X14 and X38 at 32. -/
theorem witness_MagnitudeOverflowFails :
    (31 : Word).toNat ≤ 31 ∧ 2 ^ 32 ≤ fxExact (0xFFFF : BitVec 16).toNat (0xFFFFFFFF : Word).toNat 31 ∧
    2 ^ 32 ≤ fxExact (0x7FFF : BitVec 16).toInt.natAbs (0xFFFFFFFF : Word).toNat 31 ∧
    2 ^ 32 ≤ fxExact (2 : Word).toNat (0xFFFFFFFF : Word).toNat 31 ∧
    2 ^ 32 ≤ fxExact (0x80000000 : Word).toInt.natAbs (2 : Word).toNat 31 := by
  refine ⟨by decide, ?_, ?_, ?_, ?_⟩ <;> rw [fxExact_eq] <;> decide

theorem witness_OneTimesOneIsOne :
    (31 : Word).toNat ≤ 31 ∧ (0 : Word).toNat ≤ 31 ∧ Instr.fxpCvtS16 1 1 31 = .fxpCvtS16 1 1 31 := by decide

/-- X21 and its mirror X22, X26 and its mirror X27. -/
theorem witness_NegatedSampleNegatesTheResult :
    ((0xFFFD : BitVec 16) ≠ 0x8000 ∧ (∃ t, exec (.fxpCvtS16 0xFFFD 0x40000000 0) abc = .next t ∧ t.ret = 0) ∧
      ∃ u, exec (.fxpCvtS16 (-0xFFFD) 0x40000000 0) abc = .next u) ∧
    ((0xFFFFFC18 : Word) ≠ 0x80000000 ∧ (∃ t, exec (.fxpCvtS32 0xFFFFFC18 0x0CCCCCCD 8) abc = .next t ∧ t.ret = 0) ∧
      ∃ u, exec (.fxpCvtS32 (-0xFFFFFC18) 0x0CCCCCCD 8) abc = .next u) :=
  ⟨⟨by decide, ⟨_, rfl, by decide⟩, ⟨_, rfl⟩⟩, ⟨by decide, ⟨_, rfl, by decide⟩, ⟨_, rfl⟩⟩⟩

/-- The largest scale at both samples' ends, from one number of fractional bits to the next. -/
theorem witness_OverflowIsMonotoneInFrac :
    ((30 : Word).toNat ≤ (31 : Word).toNat ∧ (31 : Word).toNat ≤ 31) ∧
    exec (.fxpCvtU16 0xFFFF 0xFFFFFFFF 30) abc = .next { abc with ret := 2, retWritten := true } ∧
    exec (.fxpCvtS16 0x8000 0xFFFFFFFF 30) abc = .next { abc with ret := 2, retWritten := true } ∧
    exec (.fxpCvtU32 0xFFFFFFFF 0x80000000 30) abc = .next { abc with ret := 2, retWritten := true } ∧
    exec (.fxpCvtS32 0x80000000 0x80000000 30) abc = .next { abc with ret := 2, retWritten := true } :=
  ⟨by decide, rfl, rfl, rfl, rfl⟩

/-- One pair of samples for each clause, at the ends of its range; a negative sample with scale 0. -/
theorem witness_ConversionsAgree :
    (0xFFFF : Word).toNat = (0xFFFF : BitVec 16).toNat ∧ (0xFFFF8000 : Word).toInt = (0x8000 : BitVec 16).toInt ∧
    (0x7FFFFFFF : Word).toNat ≤ 0x7FFFFFFF ∧ ((31 : Word).toNat ≤ 31 ∧ ((0 : BitVec 16) = 0 ∨ (5 : Word) = 0)) ∧
    ((0 : Word).toNat ≤ 31 ∧ ((0x80000000 : Word) = 0 ∨ (0 : Word) = 0)) := by decide

/-- X30, X33, R126 and X31: a magnitude below 2^31, one of 2^32 - 2 with a sample that is not negative, one of exactly 2^31 and
one of 2^31 + 1 with a negative one; and FXP.CVT.S16 for each clause. -/
theorem witness_SignedResultAsANumber :
    ((∃ t, exec (.fxpCvtS32 0x80000000 0x7FFFFFFF 0) abc = .next t ∧ t.ret = 0) ∧
      fxExact (0x80000000 : Word).toInt.natAbs (0x7FFFFFFF : Word).toNat 0 < 2 ^ 31) ∧
    ((∃ t, exec (.fxpCvtS32 0x7FFFFFFF 0xFFFFFFFF 0) abc = .next t ∧ t.ret = 0) ∧
      2 ^ 31 ≤ fxExact (0x7FFFFFFF : Word).toInt.natAbs (0xFFFFFFFF : Word).toNat 0 ∧ 0 ≤ (0x7FFFFFFF : Word).toInt) ∧
    ((∃ t, exec (.fxpCvtS32 0x80000000 0x80000000 0) abc = .next t ∧ t.ret = 0) ∧
      fxExact (0x80000000 : Word).toInt.natAbs (0x80000000 : Word).toNat 0 = 2 ^ 31 ∧ (0x80000000 : Word).toInt < 0) ∧
    ((∃ t, exec (.fxpCvtS32 0x80000000 0x80000001 0) abc = .next t ∧ t.ret = 0) ∧
      2 ^ 31 < fxExact (0x80000000 : Word).toInt.natAbs (0x80000001 : Word).toNat 0 ∧ (0x80000000 : Word).toInt < 0) ∧
    ((∃ t, exec (.fxpCvtS16 0x8000 0x40000000 15) abc = .next t ∧ t.ret = 0) ∧
      fxExact (0x8000 : BitVec 16).toInt.natAbs (0x40000000 : Word).toNat 15 < 2 ^ 31) ∧
    ((∃ t, exec (.fxpCvtS16 1 0x80000000 31) abc = .next t ∧ t.ret = 0) ∧
      2 ^ 31 ≤ fxExact (1 : BitVec 16).toInt.natAbs (0x80000000 : Word).toNat 31 ∧ 0 ≤ (1 : BitVec 16).toInt) ∧
    ((∃ t, exec (.fxpCvtS16 0xFFFF 0x80000000 31) abc = .next t ∧ t.ret = 0) ∧
      fxExact (0xFFFF : BitVec 16).toInt.natAbs (0x80000000 : Word).toNat 31 = 2 ^ 31 ∧ (0xFFFF : BitVec 16).toInt < 0) ∧
    ((∃ t, exec (.fxpCvtS16 0xFFFF 0x80000001 31) abc = .next t ∧ t.ret = 0) ∧
      2 ^ 31 < fxExact (0xFFFF : BitVec 16).toInt.natAbs (0x80000001 : Word).toNat 31 ∧ (0xFFFF : BitVec 16).toInt < 0) := by
  simp only [fxExact_eq]
  exact ⟨⟨⟨_, rfl, by decide⟩, by decide⟩, ⟨⟨_, rfl, by decide⟩, by decide⟩, ⟨⟨_, rfl, by decide⟩, by decide⟩,
    ⟨⟨_, rfl, by decide⟩, by decide⟩, ⟨⟨_, rfl, by decide⟩, by decide⟩, ⟨⟨_, rfl, by decide⟩, by decide⟩,
    ⟨⟨_, rfl, by decide⟩, by decide⟩, ⟨⟨_, rfl, by decide⟩, by decide⟩⟩

/-- One success for each command; X21 and X30 for the signed ones, their magnitudes below 2^31. -/
theorem witness_ResultIsTheScaledSampleRoundedUp :
    (∃ t, exec (.fxpCvtU16 3 0x40000000 0) abc = .next t ∧ t.ret = 0) ∧
    (∃ t, exec (.fxpCvtU32 3 0x40000000 0) abc = .next t ∧ t.ret = 0) ∧
    ((∃ t, exec (.fxpCvtS16 0xFFFD 0x40000000 0) abc = .next t ∧ t.ret = 0) ∧
      fxExact (0xFFFD : BitVec 16).toInt.natAbs (0x40000000 : Word).toNat 0 < 2 ^ 31) ∧
    ((∃ t, exec (.fxpCvtS32 0x80000000 0x7FFFFFFF 0) abc = .next t ∧ t.ret = 0) ∧
      fxExact (0x80000000 : Word).toInt.natAbs (0x7FFFFFFF : Word).toNat 0 < 2 ^ 31) := by
  simp only [fxExact_eq]
  exact ⟨⟨_, rfl, by decide⟩, ⟨_, rfl, by decide⟩, ⟨⟨_, rfl, by decide⟩, by decide⟩, ⟨⟨_, rfl, by decide⟩, by decide⟩⟩

/-- A legal filler, and a character of a text. -/
theorem witness_AlphabetAndLayoutAreInvertible :
    cfg.legal = true ∧ enc6 63 ∈ quantum 0xFF 0xFF 0xFF := by decide

/-- The first and the last byte of an input range, nothing written at all and all but the last written. -/
theorem witness_UnwrittenInputByteFaults :
    (admitted abc.params.memSize 0x100 4 = true ∧ 3 < (4 : Word).toNat ∧
      (∀ k, k < 3 → (abc.mem.read (0x100 + k)).isSome = true) ∧ abc.mem.read (0x100 + 3) = none) ∧
    (admitted abc.params.memSize 0x200 1 = true ∧ 0 < (1 : Word).toNat ∧ abc.mem.read (0x200 + 0) = none) ∧
    (abc.session? 0 = some (live .one 16 16 0 0xFFFFFFF8) ∧
      (0xFFFFFFF8 : Word).toNat + 4 * ((EncState.one.count + (4 : Word).toNat) / 3) ≤ 2 ^ 32 - 1) ∧
    (abc.params.hasEncb = true ∧ admitted abc.params.memSize 0x300 (encLen 4) = true ∧
      encOverlapForbidden 0x100 4 0x300 = false ∧ encLen 4 ≤ 2 ^ 32 - 1) := by decide

/-- Nothing written at positions 1, 2, 3 and 4 of a quartet, and the second of a pair missing behind `=` and behind `|`. -/
theorem witness_UnwrittenCharacterFaults :
    (∀ n, n < 4 → (withBytes 0x400 (List.replicate n 0x51)).mem.groupsAt 0x400 n (fun _ => 16) ∧ decMax n ≤ 65534 ∧
      (withBytes 0x400 (List.replicate n 0x51)).mem.read (0x400 + n) = none) ∧
    ((withBytes 0x400 (chars "QQ=")).mem.groupsAt 0x400 2 (fun _ => 16) ∧ 2 % 2 = 0 ∧
      ((withBytes 0x400 (chars "QQ=")).mem.read (0x400 + 2)).isSome = true ∧
      (withBytes 0x400 (chars "QQ=")).mem.read (0x400 + 2 + 1) = none) ∧
    ((withBytes 0x400 (chars "|")).mem.groupsAt 0x400 0 (fun _ => 16) ∧
      ((withBytes 0x400 (chars "|")).mem.read (0x400 + 0)).isSome = true ∧
      (withBytes 0x400 (chars "|")).mem.read (0x400 + 0 + 1) = none) ∧ fits 4 = true := by
  unfold Memory.groupsAt; decide

end Sys2Proof.Tests
end

section
/-! The length law of the block encoder (41_base64_block.md R79). -/

namespace Sys2Proof.Machine

theorem exec_b64Encb (inp len out : Word) (s : State) : exec (.b64Encb inp len out) s = execB64Encb inp len out s := rfl

/-- The model's integer formula is R79's ceiling over the rationals: both have the same upper bounds. -/
theorem encLen_eq_ceil (n : Nat) : encLen n = 4 * ⌈(n : ℚ) / 3⌉₊ := by
  have h : (n + 2) / 3 = ⌈(n : ℚ) / 3⌉₊ := by
    refine eq_of_forall_ge_iff fun c => ?_
    have hc : ⌈(n : ℚ) / 3⌉₊ ≤ c ↔ n ≤ c * 3 := by
      rw [Nat.ceil_le, div_le_iff₀ (by norm_num)]
      norm_cast
    rw [hc]
    omega
  rw [encLen, h]

/-- RET is the text's length; it fits a word because the encoder refuses a longer text (R76). -/
theorem execB64Encb_ret {inp len out : Word} {s t : State} (h : execB64Encb inp len out s = .next t) :
    t.ret.toNat = encLen len.toNat := by
  obtain ⟨bs, -, -, -, -, hfit, hlen, -, rfl⟩ := execB64Encb_next.mp h
  rw [State.complete_ret, length_encodeBlock, hlen, BitVec.toNat_ofNat, Nat.mod_eq_of_lt]
  rw [maxWord] at hfit
  omega

/-- Settles O30: RET is `encLen len`, four times R79's ceiling. -/
theorem encbLengthLaw : Obligations.EncbLengthLaw := by
  intro s t inp len out h
  rw [exec_b64Encb] at h
  rw [execB64Encb_ret h]
  refine ⟨encLen_eq_ceil _, Nat.mul_mod_right 4 _, fun hzero => ?_⟩
  rw [hzero, encLen]

end Sys2Proof.Machine
end

section
/-! The converter core and its signed wrapper over integers (43_fixed_point.md R116, R120). -/

namespace Sys2Proof.Machine

/-- The first test (R116). -/
theorem fxCore_of_frac_gt {raw scale frac : Word} (hfrac : 31 < frac.toNat) :
    fxCore raw scale frac = .failed .fracBitsOutOfRange := if_pos hfrac

/-- The second test (R116). -/
theorem fxCore_of_overflow {raw scale frac : Word} (hfrac : frac.toNat ≤ 31)
    (hover : 0xFFFFFFFF < (fxQuotient raw scale frac).toNat) :
    fxCore raw scale frac = .failed .magnitudeOverflow := by
  rw [fxCore, if_neg (by omega), if_pos hover]

/-- Both tests passed: the truncation to 32 bits loses nothing (R116, R119). -/
theorem fxCore_of_fits {raw scale frac : Word} (hfrac : frac.toNat ≤ 31)
    (hfits : (fxQuotient raw scale frac).toNat ≤ 0xFFFFFFFF) :
    ∃ r : Word, fxCore raw scale frac = .ok r ∧ r.toNat = (fxQuotient raw scale frac).toNat := by
  refine ⟨(fxQuotient raw scale frac).setWidth 32, ?_, ?_⟩
  · rw [fxCore, if_neg (by omega), if_neg (by omega)]
  · rw [BitVec.toNat_setWidth, Nat.mod_eq_of_lt (by omega)]

/-- Settles O45: the core's two tests on its quotient, which is the rounded product because no step wraps. -/
theorem coreComputesTheRoundedProduct : Obligations.CoreComputesTheRoundedProduct := by
  intro raw scale frac
  have hquotient := toNat_fxQuotient raw scale frac
  rw [fxShift] at hquotient
  rw [← hquotient]
  exact ⟨fxCore_of_frac_gt, fun hfrac => ⟨fxCore_of_overflow hfrac, fxCore_of_fits hfrac⟩⟩

/-- A sample of the signed range is the value of its 32 bits. -/
theorem toInt_ofInt_sample {x : Int} (hlo : -2 ^ 31 ≤ x) (hhi : x ≤ 2 ^ 31 - 1) : (BitVec.ofInt 32 x).toInt = x :=
  BitVec.toInt_ofInt_eq_self (by decide) hlo (by omega)

/-- The magnitude of a sample's bits is its absolute value, that of -2^31 included (R120, R126). -/
theorem fxMagnitude_ofInt {x : Int} (hlo : -2 ^ 31 ≤ x) (hhi : x ≤ 2 ^ 31 - 1) :
    fxMagnitude (BitVec.ofInt 32 x) = BitVec.ofNat 32 x.natAbs := by
  apply BitVec.eq_of_toNat_eq
  rw [toNat_fxMagnitude, toInt_ofInt_sample hlo hhi, BitVec.toNat_ofNat, Nat.mod_eq_of_lt (by omega)]

/-- Bit 31 is the sample's sign. -/
theorem getLsbD_ofInt_sample {x : Int} (hlo : -2 ^ 31 ≤ x) (hhi : x ≤ 2 ^ 31 - 1) :
    (BitVec.ofInt 32 x).getLsbD 31 = decide (x < 0) :=
  calc (BitVec.ofInt 32 x).getLsbD 31
    _ = (BitVec.ofInt 32 x).msb := (BitVec.msb_eq_getLsbD_last _).symm
    _ = decide (x < 0) := by rw [BitVec.msb_eq_toInt, toInt_ofInt_sample hlo hhi]

/-- Negation at 32 bits is negation of the result as a number, modulo 2^32 (R120). -/
theorem fxNegate_eq_ofInt (r : Word) : fxNegate r = BitVec.ofInt 32 (-(r.toNat : Int)) := by
  rw [fxNegate_eq_neg, BitVec.ofInt_neg, BitVec.ofInt_natCast, BitVec.ofNat_toNat, BitVec.setWidth_eq]

/-- The wrapper passes the core's failure on (R120). -/
theorem fxSigned_of_core_failed {u scale frac : Word} {e : FxFailure}
    (hcore : fxCore (fxMagnitude u) scale frac = .failed e) : fxSigned u scale frac = .failed e := by
  rw [fxSigned, hcore]

/-- The wrapper puts the sign back on the core's result and has no failure of its own (R120). -/
theorem fxSigned_of_core_ok {u scale frac r : Word} (hcore : fxCore (fxMagnitude u) scale frac = .ok r) :
    fxSigned u scale frac = .ok (if u.getLsbD 31 then fxNegate r else r) := by
  rw [fxSigned, hcore]

/-- Settles O46: the wrapper's magnitude and sign bit are the sample's absolute value and sign. -/
theorem signedWrapperUsesTheMagnitude : Obligations.SignedWrapperUsesTheMagnitude := by
  intro x scale frac hlo hhi
  rw [← fxMagnitude_ofInt hlo hhi]
  refine ⟨fun e => fxSigned_of_core_failed, fun r hcore => ?_⟩
  rw [fxSigned_of_core_ok hcore, getLsbD_ofInt_sample hlo hhi, fxNegate_eq_ofInt]
  simp only [decide_eq_true_eq]

end Sys2Proof.Machine
end

section
/-! The decoder against the encoder and against the opcode map (30_encoding.md R46 to R58). -/

namespace Sys2Proof

open Descriptor

/-- Settles O2: the fields of the assembled words are the operands, and the bits that must be zero are. -/
theorem decodeOfEncodeIsTheCommand : Obligations.DecodeOfEncodeIsTheCommand := by
  intro i
  cases i with
  | b64sStart sid sink ctx => simp [encode, decodeNamed, whenZero, okS]
  | b64sMore sid addr len => simp [encode, decodeNamed, whenZero, okM]
  | b64sFinish sid pad => cases pad <;> simp [encode, decodeNamed, whenZero, okF]
  | b64Dec inp len out => simp [encode, decodeNamed, whenZero, okB]
  | b64Encb inp len out => simp [encode, decodeNamed, whenZero, okB]
  | fxpCvtU16 raw scale frac => simp [encode, decodeNamed, whenZero, okX16]
  | fxpCvtS16 raw scale frac => simp [encode, decodeNamed, whenZero, okX16]
  | fxpCvtU32 raw scale frac => simp [encode, decodeNamed, whenZero, okX32]
  | fxpCvtS32 raw scale frac => simp [encode, decodeNamed, whenZero, okX32]

/-! A descriptor whose required bits are zero is assembled from its own fields, one lemma for each format (R47). -/

theorem ofWords_of_okS {d : Descriptor} (h : d.okS = true) : ofWords 0 d.w2 d.w1 (word0 d.sid 0 d.opc) = d := by
  simp only [okS, Bool.and_eq_true, beq_iff_eq] at h
  obtain ⟨⟨hz, hp⟩, h3⟩ := h
  rw [← hp, w0_eq_word0 hz, ← h3, ofWords_words]

theorem ofWords_of_okF {d : Descriptor} (h : d.okF = true) : ofWords 0 0 0 (word0 d.sid d.padBit d.opc) = d := by
  simp only [okF, Bool.and_eq_true, beq_iff_eq] at h
  obtain ⟨⟨⟨hz, h1⟩, h2⟩, h3⟩ := h
  have key := ofWords_words d
  rwa [h1, h2, h3, ← w0_eq_word0 hz] at key

theorem ofWords_of_okB {d : Descriptor} (h : d.okB = true) : ofWords d.w3 d.w2 d.w1 (word0 0 0 d.opc) = d := by
  simp only [okB, Bool.and_eq_true, beq_iff_eq] at h
  obtain ⟨⟨hz, hp⟩, hs⟩ := h
  have key := w0_eq_word0 hz
  rw [hp, hs] at key
  rw [key, ofWords_words]

theorem ofWords_of_okX16 {d : Descriptor} (h : d.okX16 = true) :
    ofWords d.w3 d.w2 (0#16 ++ d.raw16) (word0 0 0 d.opc) = d := by
  simp only [okX16, Bool.and_eq_true, beq_iff_eq] at h
  obtain ⟨hB, h1⟩ := h
  rw [w1_eq_raw16 h1]
  exact ofWords_of_okB (by simpa [okB, and_assoc] using hB)

/-- The PAD operand is the PAD bit (R50). -/
theorem ofBool_padBit (d : Descriptor) : BitVec.ofBool (d.padBit == 1) = d.padBit := by
  generalize d.padBit = p
  revert p; decide

/-- Settles O3: each arm of the decoder takes its operands from the fields that its format does not require to be zero. -/
theorem encodeOfDecodeIsTheDescriptor : Obligations.EncodeOfDecodeIsTheDescriptor := by
  intro d i h
  unfold decodeNamed at h
  split_ifs at h with h1 h2 h3 h4 h5 h6 h7 h8 h9
  all_goals obtain ⟨hok, rfl⟩ := whenZero_eq_ok.mp h
  · rw [encode, ← h1, ofWords_of_okS hok]
  · rw [encode, ← h2, ofWords_of_okS hok]
  · rw [encode, ofBool_padBit, ← h3, ofWords_of_okF hok]
  · rw [encode, ← h4, ofWords_of_okB hok]
  · rw [encode, ← h5, ofWords_of_okB hok]
  · rw [encode, ← h6, ofWords_of_okX16 hok]
  · rw [encode, ← h7, ofWords_of_okX16 hok]
  · rw [encode, ← h8, ofWords_of_okB hok]
  · rw [encode, ← h9, ofWords_of_okB hok]

/-- A row's test as a Bool, from what its mask says. -/
theorem and_beq_eq {d mask value : Descriptor} {opc : BitVec 8} {ok : Bool}
    (h : d &&& mask = value ↔ d.opc = opc ∧ ok = true) : (d &&& mask == value) = (d.opc == opc && ok) := by
  rw [Bool.eq_iff_iff, beq_iff_eq, h, Bool.and_eq_true, beq_iff_eq]

/-- What each row of the opcode map selects: its opcode, with the bits zero that its format requires (R47, R55). -/
theorem opcodeRows_selects (d : Descriptor) :
    opcodeRows.map (fun r => (r.mnemonic, r.selects d)) =
      [("B64S.START", d.opc == 0x10 && d.okS), ("B64S.MORE", d.opc == 0x11 && d.okM),
       ("B64S.FINISH", d.opc == 0x12 && d.okF), ("B64.DEC", d.opc == 0x20 && d.okB),
       ("B64.ENCB", d.opc == 0x21 && d.okB), ("FXP.CVT.U16", d.opc == 0x30 && d.okX16),
       ("FXP.CVT.S16", d.opc == 0x31 && d.okX16), ("FXP.CVT.U32", d.opc == 0x32 && d.okX32),
       ("FXP.CVT.S32", d.opc == 0x33 && d.okX32)] := by
  have hS := mask_S d
  have hB := mask_B d
  have hX := mask_X16 d
  simp only [opcodeRows, List.map_cons, List.map_nil, OpcodeRow.selects, List.cons.injEq, Prod.mk.injEq, true_and,
    and_true]
  exact ⟨and_beq_eq (hS _ (by simp)), and_beq_eq (hS _ (by simp)), and_beq_eq (mask_F d), and_beq_eq (hB _ (by simp)),
    and_beq_eq (hB _ (by simp)), and_beq_eq (hX _ (by simp)), and_beq_eq (hX _ (by simp)), and_beq_eq (hB _ (by simp)),
    and_beq_eq (hB _ (by simp))⟩

/-- The first selected row and the number of selected rows, from the rows' mnemonics and selections alone. -/
theorem find?_selects (d : Descriptor) (rows : List OpcodeRow) :
    (rows.find? fun r => r.selects d).map OpcodeRow.mnemonic =
        ((rows.map fun r => (r.mnemonic, r.selects d)).find? Prod.snd).map Prod.fst ∧
      (rows.filter fun r => r.selects d).length = (rows.map fun r => (r.mnemonic, r.selects d)).countP Prod.snd := by
  constructor
  · rw [List.find?_map, Option.map_map]; rfl
  · rw [List.countP_map, ← List.countP_eq_length_filter]; rfl

/-- Settles O4: the decoder's arms and the rows of the map both test one opcode and the zero bits of its format. -/
theorem decoderMatchesOpcodeMap : Obligations.DecoderMatchesOpcodeMap := by
  intro d
  obtain ⟨hfind, hcount⟩ := find?_selects d opcodeRows
  rw [hfind, hcount, opcodeRows_selects, decode, decodeNamed]
  split_ifs with h1 h2 h3 h4 h5 h6 h7 h8 h9
  · cases d.okS <;> simp [h1, whenZero, Except.toOption, Instr.mnemonic]
  · cases d.okM <;> simp [h2, whenZero, Except.toOption, Instr.mnemonic]
  · cases d.okF <;> simp [h3, whenZero, Except.toOption, Instr.mnemonic]
  · cases d.okB <;> simp [h4, whenZero, Except.toOption, Instr.mnemonic]
  · cases d.okB <;> simp [h5, whenZero, Except.toOption, Instr.mnemonic]
  · cases d.okX16 <;> simp [h6, whenZero, Except.toOption, Instr.mnemonic]
  · cases d.okX16 <;> simp [h7, whenZero, Except.toOption, Instr.mnemonic]
  · cases d.okX32 <;> simp [h8, whenZero, Except.toOption, Instr.mnemonic]
  · cases d.okX32 <;> simp [h9, whenZero, Except.toOption, Instr.mnemonic]
  · simp only [BitVec.ofNat_eq_ofNat] at h1 h2 h3 h4 h5 h6 h7 h8 h9
    simp [h1, h2, h3, h4, h5, h6, h7, h8, h9, Except.toOption]

/-- Settles O1: the decoder and the assembler run on the words. -/
theorem writtenOutWordsDecode : Obligations.WrittenOutWordsDecode := by
  unfold Obligations.WrittenOutWordsDecode
  decide

end Sys2Proof
end

section
/-! What a command and a step can do, each said once (30_encoding.md R55, R59; 70_reset_and_hazards.md R166, R167). -/

namespace Sys2Proof.Machine

/-! The arms of `exec` (that of B64.ENCB stands above). -/

theorem exec_b64sStart (sid : BitVec 8) (sink ctx : Word) (s : State) :
    exec (.b64sStart sid sink ctx) s = execB64sStart sid sink ctx s := rfl

theorem exec_b64sMore (sid : BitVec 8) (addr len : Word) (s : State) :
    exec (.b64sMore sid addr len) s = execB64sMore sid addr len s := rfl

theorem exec_b64sFinish (sid : BitVec 8) (pad : Bool) (s : State) :
    exec (.b64sFinish sid pad) s = execB64sFinish sid pad s := rfl

theorem exec_b64Dec (inp len out : Word) (s : State) : exec (.b64Dec inp len out) s = execB64Dec inp len out s := rfl

/-- What a conversion command reports (43_fixed_point.md R121 to R124); the other commands convert nothing. -/
def conversion : Instr → Option FxValue
  | .fxpCvtU16 raw scale frac => some (fxCore (rawU16 raw) scale frac)
  | .fxpCvtS16 raw scale frac => some (fxSigned (rawS16 raw) scale frac)
  | .fxpCvtU32 raw scale frac => some (fxCore raw scale frac)
  | .fxpCvtS32 raw scale frac => some (fxSigned raw scale frac)
  | .b64sStart _ _ _ | .b64sMore _ _ _ | .b64sFinish _ _ | .b64Dec _ _ _ | .b64Encb _ _ _ => none

/-- The four conversions share one meaning, on the value they report. -/
theorem exec_conversion {i : Instr} {v : FxValue} (h : conversion i = some v) (s : State) :
    exec i s = .next (s.convert v) := by
  cases i <;> simp only [conversion, reduceCtorEq, Option.some.injEq] at h <;> subst h <;> rfl

/-- A conversion names no session. -/
theorem sid?_of_conversion {i : Instr} {v : FxValue} (h : conversion i = some v) : i.sid? = none := by
  cases i <;> simp only [conversion, reduceCtorEq] at h <;> rfl

/-- How each command completes: under which conditions, and with what effect. -/
inductive ExecEffect (s : State) : Instr → State → Prop where
  | started {sid : BitVec 8} {sink ctx : Word} {x : Session} (hx : s.session? sid = some x) :
      ExecEffect s (.b64sStart sid sink ctx) ((s.setSession sid (x.started sink ctx)).complete 0)
  | fed {sid : BitVec 8} {addr len : Word} {x : Session} {bs : List Byte} (hx : s.session? sid = some x)
      (hactive : x.active = true) :
      ExecEffect s (.b64sMore sid addr len)
        (((s.setSession sid (x.feed bs).1).emit x (x.feed bs).2).complete (BitVec.ofNat 32 (x.feed bs).2.length))
  | finished {sid : BitVec 8} {pad : Bool} {x : Session} (hx : s.session? sid = some x) (hactive : x.active = true) :
      ExecEffect s (.b64sFinish sid pad)
        ((((s.setSession sid (x.finished pad s.free)).emit x (x.flush pad)).draw 3).complete
          (x.finished pad s.free).total)
  | decoded {inp len out : Word} {bs : List Byte}
      (hready : decReady s.params.memSize inp.toNat len.toNat out.toNat = true) (hlen : bs.length ≤ decMax len.toNat)
      (hcount : bs.length < decCountLimit) :
      ExecEffect s (.b64Dec inp len out)
        ((s.setMem (s.mem.writeBytes out.toNat bs)).complete (BitVec.ofNat 32 bs.length))
  | decodeFailed {inp len out : Word}
      (hready : decReady s.params.memSize inp.toNat len.toNat out.toNat = true) :
      ExecEffect s (.b64Dec inp len out) (s.decodeFailed out.toNat (decMax len.toNat))
  | encoded {inp len out : Word} {text : List Byte} (hout : admitted s.params.memSize out.toNat text.length = true)
      (hlen : text.length = encLen len.toNat) :
      ExecEffect s (.b64Encb inp len out)
        ((s.setMem (s.mem.writeBytes out.toNat text)).complete (BitVec.ofNat 32 text.length))
  | converted {i : Instr} {v : FxValue} (hv : conversion i = some v) : ExecEffect s i (s.convert v)

/-- A command that completes has one of these effects. -/
theorem exec_effect {i : Instr} {s t : State} (h : exec i s = .next t) : ExecEffect s i t := by
  have conv : ∀ {v : FxValue}, conversion i = some v → ExecEffect s i t := fun hv => by
    rw [exec_conversion hv] at h
    cases h
    exact .converted hv
  cases i with
  | b64sStart sid sink ctx =>
    obtain ⟨x, hx, rfl⟩ := execB64sStart_next.mp h
    exact .started hx
  | b64sMore sid addr len =>
    obtain ⟨x, bs, hx, -, hactive, -, -, -, rfl⟩ := execB64sMore_next.mp h
    exact .fed hx hactive
  | b64sFinish sid pad =>
    obtain ⟨x, hx, hactive, -, rfl⟩ := execB64sFinish_next.mp h
    exact .finished hx hactive
  | b64Dec inp len out =>
    obtain ⟨hready, rfl | ⟨-, bs, hlen, hcount, -, rfl⟩⟩ := execB64Dec_next h
    · exact .decodeFailed hready
    · exact .decoded hready hlen hcount
  | b64Encb inp len out =>
    obtain ⟨bs, -, -, hout, -, -, hlen, -, rfl⟩ := execB64Encb_next.mp h
    have hl : (encodeBlock s.params.blkFill bs).length = encLen len.toNat := by rw [length_encodeBlock, hlen]
    exact .encoded (hl ▸ hout) hl
  | fxpCvtU16 raw scale frac => exact conv rfl
  | fxpCvtS16 raw scale frac => exact conv rfl
  | fxpCvtU32 raw scale frac => exact conv rfl
  | fxpCvtS32 raw scale frac => exact conv rfl

/-! One equation for each row of the host's table (70_reset_and_hazards.md R167). -/

section
variable {s : State} {rest : List HostEvent}

theorem step_idle (h : s.inputs = []) : step s = .next s := by
  rw [step, h]

theorem step_present {d : Descriptor} (h : s.inputs = .present d :: rest) :
    step s = stepCommand d { s with inputs := rest } := by
  rw [step, h]

theorem step_readRet (h : s.inputs = .readRet :: rest) : step s = hostReadRet { s with inputs := rest } := by
  rw [step, h]

theorem step_readFxout (h : s.inputs = .readFxout :: rest) : step s = hostReadFxout { s with inputs := rest } := by
  rw [step, h]

theorem step_writeByte {addr : Word} {v : Byte} (h : s.inputs = .writeByte addr v :: rest) :
    step s = hostWriteByte addr v { s with inputs := rest } := by
  rw [step, h]

theorem step_readByte {addr : Word} (h : s.inputs = .readByte addr :: rest) :
    step s = hostReadByte addr { s with inputs := rest } := by
  rw [step, h]

theorem step_reset (h : s.inputs = .reset :: rest) : step s = hostReset { s with inputs := rest } := by
  rw [step, h]

end

/-- A presented descriptor that decodes is executed. -/
theorem stepCommand_of_decode {d : Descriptor} {i : Instr} (h : decode d = some i) (s : State) :
    stepCommand d s = exec i s := by
  rw [decode] at h
  rw [stepCommand]
  cases hd : decodeNamed d with
  | error why => simp [hd, Except.toOption] at h
  | ok j => simp only [hd, Except.toOption, Option.some.injEq] at h; rw [h]

/-- A presented descriptor that decodes to nothing is refused as reserved. -/
theorem stepCommand_of_decode_none {d : Descriptor} (h : decode d = none) (s : State) :
    ∃ why, stepCommand d s = .refused (.reserved why) := by
  rw [decode] at h
  cases hd : decodeNamed d with
  | error why => exact ⟨why, by rw [stepCommand, hd]⟩
  | ok j => simp [hd, Except.toOption] at h

/-- How a step ends in a next state: the block waits, or takes the head of the host's list, with one of the effects of
R167. -/
inductive StepEffect (s : State) : State → Prop where
  | idle : StepEffect s s
  | command {rest : List HostEvent} {i : Instr} {t : State} (h : exec i { s with inputs := rest } = .next t) :
      StepEffect s t
  | observed {rest : List HostEvent} (v : HostView) : StepEffect s (State.observe { s with inputs := rest } v)
  | written {rest : List HostEvent} {a : Nat} (v : Byte) (ha : a < s.params.memSize) :
      StepEffect s (State.setMem { s with inputs := rest } (s.mem.write a v))
  | reset {rest : List HostEvent} :
      StepEffect s { State.resetOf s.nEnc s.params with inputs := rest, views := s.views, free := s.free }

theorem step_effect {s t : State} (h : step s = .next t) : StepEffect s t := by
  cases hi : s.inputs with
  | nil =>
    rw [step_idle hi] at h
    cases h
    exact .idle
  | cons e rest =>
  cases e with
  | present d =>
    rw [step_present hi] at h
    cases hd : decode d with
    | none =>
      obtain ⟨why, hr⟩ := stepCommand_of_decode_none hd { s with inputs := rest }
      rw [hr] at h
      cases h
    | some i =>
      rw [stepCommand_of_decode hd] at h
      exact .command h
  | readRet =>
    rw [step_readRet hi, hostReadRet] at h
    split at h
    · cases h; exact .observed _
    · cases h
  | readFxout =>
    rw [step_readFxout hi, hostReadFxout] at h
    split at h
    · cases h; exact .observed _
    · cases h
  | writeByte addr v =>
    rw [step_writeByte hi, hostWriteByte] at h
    split at h
    · next ha => cases h; exact .written v ha
    · cases h
  | readByte addr =>
    rw [step_readByte hi, hostReadByte] at h
    split at h
    · split at h
      · cases h; exact .observed _
      · cases h
    · cases h
  | reset =>
    rw [step_reset hi, hostReset] at h
    cases h
    exact .reset

end Sys2Proof.Machine
end

section
/-! What every step keeps, and the state after reset (10_state.md R15, R18, R22 to R25). -/

namespace Sys2Proof.Machine

/-! Each operation on the state keeps it sound. -/

theorem State.Inv.setSession {s : State} (h : s.Inv) (sid : BitVec 8) {x : Session} (hx : x.Inv) :
    (s.setSession sid x).Inv where
  params_legal := h.params_legal
  sessions_some := by rw [State.nEnc_setSession]; exact h.sessions_some
  sessions_max := by rw [State.nEnc_setSession]; exact h.sessions_max
  mem_wf := h.mem_wf
  mem_inside := h.mem_inside
  sessions_inv := fun _ hy => (State.mem_sessions_setSession hy).elim (fun e => e ▸ hx) (h.sessions_inv _)
  emissions_text := h.emissions_text
  written := h.written

theorem State.Inv.complete {s : State} (h : s.Inv) (v : Word) : (s.complete v).Inv :=
  { h with written := fun _ => rfl }

theorem State.Inv.setMem {s : State} (h : s.Inv) {m : Memory} (hwf : m.wf = true)
    (hin : ∀ c ∈ m, c.1 < s.params.memSize) : (s.setMem m).Inv :=
  { h with mem_wf := hwf, mem_inside := hin }

theorem State.Inv.emit {s : State} (h : s.Inv) (x : Session) {cs : List Byte}
    (hcs : ∀ ch ∈ cs, ch = PAD ∨ ∃ v, ch = enc6 v) : (s.emit x cs).Inv :=
  { h with
    emissions_text := fun e he => by
      rw [State.emit_emissions, List.mem_append, List.mem_map] at he
      obtain he | ⟨ch, hch, rfl⟩ := he
      · exact h.emissions_text e he
      · exact hcs ch hch }

theorem State.Inv.draw {s : State} (h : s.Inv) (n : Nat) : (s.draw n).Inv := { h with }

theorem State.Inv.observe {s : State} (h : s.Inv) (v : HostView) : (s.observe v).Inv := { h with }

theorem State.Inv.withInputs {s : State} (h : s.Inv) (rest : List HostEvent) : State.Inv { s with inputs := rest } :=
  { h with }

theorem State.Inv.convert {s : State} (h : s.Inv) (v : FxValue) : (s.convert v).Inv := by
  cases v with
  | ok r => exact { h with written := fun _ => rfl }
  | failed e => exact h.complete e.code

/-- A range admitted is empty or inside memory (20_memory.md R33). -/
theorem admitted_iff {memSize a n : Nat} : admitted memSize a n = true ↔ n = 0 ∨ a + n ≤ memSize := by
  simp [admitted]

/-- A shorter range at the same start is admitted too. -/
theorem admitted_mono {memSize a n k : Nat} (h : admitted memSize a n = true) (hk : k ≤ n) :
    admitted memSize a k = true := by
  rw [admitted_iff] at h ⊢
  omega

theorem decReady_iff {memSize inp len out : Nat} : decReady memSize inp len out = true ↔
    admitted memSize inp len = true ∧ admitted memSize out (decMax len) = true ∧
      decOverlapForbidden inp len out = false := by
  simp [decReady, and_assoc]

/-- The output range of a ready B64.DEC. -/
theorem decReady_out {memSize inp len out : Nat} (h : decReady memSize inp len out = true) :
    admitted memSize out (decMax len) = true := by
  obtain ⟨-, hout, -⟩ := decReady_iff.mp h
  exact hout

theorem State.Inv.writeBytes {s : State} (h : s.Inv) {a : Nat} {bs : List Byte}
    (ha : admitted s.params.memSize a bs.length = true) : (s.setMem (s.mem.writeBytes a bs)).Inv :=
  h.setMem (Memory.wf_writeBytes bs a h.mem_wf)
    (Memory.inside_writeBytes bs h.mem_inside ((admitted_iff.mp ha).imp_left List.length_eq_zero_iff.mp))

theorem State.Inv.decodeFailed {s : State} (h : s.Inv) {out n : Nat} (ha : admitted s.params.memSize out n = true) :
    (s.decodeFailed out n).Inv :=
  ((h.setMem (Memory.wf_writeFree n out s.free h.mem_wf)
    (Memory.inside_writeFree n h.mem_inside (admitted_iff.mp ha))).draw n).complete decErr

theorem State.session_inv {s : State} (h : s.Inv) {sid : BitVec 8} {x : Session} (hx : s.session? sid = some x) : x.Inv :=
  h.sessions_inv x (List.mem_of_getElem? hx)

theorem Session.reset_inv : Session.reset.Inv :=
  ⟨fun h => by simp [Session.reset] at h, fun h => by simp [Session.reset] at h, fun h => by simp [Session.reset] at h⟩

/-- Every command keeps the state sound. -/
theorem exec_inv {i : Instr} {s t : State} (hs : s.Inv) (h : exec i s = .next t) : t.Inv := by
  cases exec_effect h with
  | started hx => exact (hs.setSession _ (Session.started_inv _ _ _)).complete _
  | fed hx _ =>
    exact ((hs.setSession _ (Session.feed_inv _ (State.session_inv hs hx))).emit _
      (fun ch hch => .inr (Session.feed_alphabet _ _ ch hch))).complete _
  | finished hx _ =>
    exact (((hs.setSession _ (Session.finished_inv _ _ _)).emit _ (Session.flush_text _ _)).draw 3).complete _
  | decoded hready hlen _ => exact (hs.writeBytes (admitted_mono (decReady_out hready) hlen)).complete _
  | decodeFailed hready => exact hs.decodeFailed (decReady_out hready)
  | encoded hout _ => exact (hs.writeBytes hout).complete _
  | converted _ => exact hs.convert _

theorem State.resetOf_inv {n : Nat} {p : Params} (h1 : 1 ≤ n) (h2 : n ≤ 256) (hp : p.legal = true) :
    (State.resetOf n p).Inv where
  params_legal := hp
  sessions_some := by simpa [State.resetOf, State.nEnc] using h1
  sessions_max := by simpa [State.resetOf, State.nEnc] using h2
  mem_wf := rfl
  mem_inside := by simp [State.resetOf]
  sessions_inv := fun x hx => by rw [List.eq_of_mem_replicate hx]; exact Session.reset_inv
  emissions_text := by simp [State.resetOf]
  written := by simp [State.resetOf]

/-- Settles O11: the command's effect, the host's read, write and reset each keep every clause. -/
theorem stepKeepsTheStateSound : Obligations.StepKeepsTheStateSound := by
  intro s t hs h
  cases step_effect h with
  | idle => exact hs
  | command h => exact exec_inv (hs.withInputs _) h
  | observed v => exact (hs.withInputs _).observe v
  | written v ha =>
    exact (hs.withInputs _).setMem (Memory.wf_write _ v hs.mem_wf) (Memory.inside_write v hs.mem_inside ha)
  | reset => exact { State.resetOf_inv hs.sessions_some hs.sessions_max hs.params_legal with }

theorem Config.params_legal : Config.params.legal = true := by
  simp [Params.legal, Config.params, fillLegal_blkFill]

/-- Settles O10: nothing is active, written or emitted after reset. -/
theorem resetIsSound : Obligations.ResetIsSound :=
  ⟨fun _ _ h1 h2 hp => State.resetOf_inv h1 h2 hp, State.resetOf_inv (by decide) (by decide) Config.params_legal⟩

/-- Every command keeps the parameters and the number of sessions. -/
theorem exec_params {i : Instr} {s t : State} (h : exec i s = .next t) : t.params = s.params ∧ t.nEnc = s.nEnc := by
  cases exec_effect h with
  | started => exact ⟨rfl, State.nEnc_setSession ..⟩
  | fed => exact ⟨rfl, State.nEnc_setSession ..⟩
  | finished => exact ⟨rfl, State.nEnc_setSession ..⟩
  | decoded => exact ⟨rfl, rfl⟩
  | decodeFailed => exact ⟨rfl, rfl⟩
  | encoded => exact ⟨rfl, rfl⟩
  | @converted _ v _ => cases v <;> exact ⟨rfl, rfl⟩

/-- Settles O12: no operation writes the parameters, and a session is only ever replaced. -/
theorem parametersAreNeverWritten : Obligations.ParametersAreNeverWritten := by
  intro s t h
  cases step_effect h with
  | idle => exact ⟨rfl, rfl⟩
  | command h => obtain ⟨hp, hn⟩ := exec_params h; exact ⟨hp, hn⟩
  | observed v => exact ⟨rfl, rfl⟩
  | written v _ => exact ⟨rfl, rfl⟩
  | reset => exact ⟨rfl, List.length_replicate⟩

end Sys2Proof.Machine
end

section
/-! The refusals and faults of each command, each said once: the grounds in the order of 30_encoding.md R59, as functions of
the operands and of what the command looks at (60_exceptions.md R138; 70_reset_and_hazards.md R153). -/

namespace Sys2Proof.Machine

/-- The first ground on which B64S.MORE is refused on an existing session (42_base64_stream.md R100, R106). -/
def Session.moreRefusal (x : Session) (memSize addr len : Nat) : Option Refusal :=
  if !admitted memSize addr len then some .rangeNotAdmitted
  else if !x.active then some .sessionNotActive
  else if !x.totalFits (x.moreCount len) then some .totalBound
  else none

/-- The first ground on which B64S.FINISH is refused on an existing session (R104, R106). -/
def Session.finishRefusal (x : Session) (pad : Bool) : Option Refusal :=
  if !x.active then some .sessionNotActive
  else if !x.totalFits (x.flushCount pad) then some .totalBound
  else none

/-- The first ground on which B64.ENCB is refused (41_base64_block.md R76). -/
def encbRefusal (p : Params) (inp len out : Nat) : Option Refusal :=
  if !p.hasEncb then some (.reserved .noEncb)
  else if !admitted p.memSize inp len then some .rangeNotAdmitted
  else if !admitted p.memSize out (encLen len) then some .rangeNotAdmitted
  else if encOverlapForbidden inp len out then some .overlap
  else if maxWord < encLen len then some .encodeCount
  else none

/-- The first ground on which B64.DEC is refused before its scan (41_base64_block.md R82). -/
def decRefusal (memSize inp len out : Nat) : Option Refusal :=
  if !admitted memSize inp len then some .rangeNotAdmitted
  else if !admitted memSize out (decMax len) then some .rangeNotAdmitted
  else if decOverlapForbidden inp len out then some .overlap
  else none

/-! The streaming commands on a session that does not exist (10_state.md R12). -/

section
variable {s : State} {sid : BitVec 8}

theorem execB64sStart_none (hx : s.session? sid = none) (sink ctx : Word) :
    execB64sStart sid sink ctx s = .refused (.reserved .session) := by
  rw [execB64sStart, hx]

theorem execB64sMore_none (hx : s.session? sid = none) (addr len : Word) :
    execB64sMore sid addr len s = .refused (.reserved .session) := by
  rw [execB64sMore, hx]

theorem execB64sFinish_none (hx : s.session? sid = none) (pad : Bool) :
    execB64sFinish sid pad s = .refused (.reserved .session) := by
  rw [execB64sFinish, hx]

/-! The streaming commands on a session that exists. -/

variable {x : Session}

theorem execB64sMore_refused (hx : s.session? sid = some x) {addr len : Word} {r : Refusal} :
    execB64sMore sid addr len s = .refused r ↔ x.moreRefusal s.params.memSize addr.toNat len.toNat = some r := by
  simp only [execB64sMore, hx, Session.moreRefusal]
  split_ifs
  · simp
  · simp
  · simp
  · cases s.mem.readBytes addr.toNat len.toNat <;> simp

theorem execB64sMore_fault (hx : s.session? sid = some x) {addr len : Word} {f : Fault}
    (hr : x.moreRefusal s.params.memSize addr.toNat len.toNat = none) :
    execB64sMore sid addr len s = .fault f ↔ s.mem.readBytes addr.toNat len.toNat = .error f := by
  simp only [Session.moreRefusal] at hr
  simp only [execB64sMore, hx]
  split_ifs at hr ⊢
  cases s.mem.readBytes addr.toNat len.toNat <;> simp

theorem execB64sFinish_refused (hx : s.session? sid = some x) {pad : Bool} {r : Refusal} :
    execB64sFinish sid pad s = .refused r ↔ x.finishRefusal pad = some r := by
  simp only [execB64sFinish, hx, Session.finishRefusal]
  split_ifs <;> simp

end

/-! The block commands. -/

section
variable {s : State} {inp len out : Word}

theorem execB64Encb_refused {r : Refusal} :
    execB64Encb inp len out s = .refused r ↔ encbRefusal s.params inp.toNat len.toNat out.toNat = some r := by
  simp only [execB64Encb, encbRefusal]
  split_ifs
  · simp
  · simp
  · simp
  · simp
  · simp
  · cases s.mem.readBytes inp.toNat len.toNat <;> simp

theorem execB64Encb_fault {f : Fault} (hr : encbRefusal s.params inp.toNat len.toNat out.toNat = none) :
    execB64Encb inp len out s = .fault f ↔ s.mem.readBytes inp.toNat len.toNat = .error f := by
  simp only [encbRefusal] at hr
  simp only [execB64Encb]
  split_ifs at hr ⊢
  cases s.mem.readBytes inp.toNat len.toNat <;> simp

theorem decRefusal_eq_none {memSize inp len out : Nat} :
    decRefusal memSize inp len out = none ↔ decReady memSize inp len out = true := by
  simp only [decRefusal, decReady]
  split_ifs <;> simp_all

theorem execB64Dec_of_decRefusal {r : Refusal} (h : decRefusal s.params.memSize inp.toNat len.toNat out.toNat = some r) :
    execB64Dec inp len out s = .refused r := by
  simp only [decRefusal] at h
  simp only [execB64Dec]
  split_ifs at h ⊢ <;> cases h <;> rfl

/-- The scan itself refuses on two grounds (R91, R92). -/
theorem decScan_refuse {fuel p rem o : Nat} {m : Memory} {out : Nat} {r : Refusal} (heven : rem % 2 = 0)
    (hsep : out + o ≤ p ∨ p + rem ≤ out + o) (h : decScan fuel p rem out o m = .refuse r) :
    r = .padMisplaced ∨ r = .decodeCount := by
  obtain ⟨f, hshape, hscan⟩ := decScan_shape fuel p rem out o m heven hsep
  rw [hscan m (fun _ _ => rfl)] at h
  cases hshape with
  | done bs => cases h
  | fail => cases h
  | pad => cases h; exact .inl rfl
  | count => cases h; exact .inr rfl
  | unwritten a => cases h

theorem execB64Dec_refused {r : Refusal} (h : execB64Dec inp len out s = .refused r) :
    decRefusal s.params.memSize inp.toNat len.toNat out.toNat = some r ∨ r = .padMisplaced ∨ r = .decodeCount := by
  cases hr : decRefusal s.params.memSize inp.toNat len.toNat out.toNat with
  | some r' =>
    rw [execB64Dec_of_decRefusal hr] at h
    cases h
    exact .inl rfl
  | none =>
    have hready := decRefusal_eq_none.mp hr
    rw [execB64Dec_ready hready] at h
    split at h
    · cases h
    next hodd =>
    cases hscan : decScan (len.toNat / 4 + 1) inp.toNat len.toNat out.toNat 0 s.mem with
    | more o m => rw [hscan] at h; cases h
    | done o m => rw [hscan] at h; cases h
    | fail => rw [hscan] at h; cases h
    | refuse r' =>
      rw [hscan] at h
      cases h
      exact .inr (decScan_refuse (by omega) (decReady_sep hready) hscan)
    | fault f => rw [hscan] at h; cases h

end

/-! Which ground is which. -/

/-- A range that is not admitted reaches beyond memory (20_memory.md R33). -/
theorem admitted_eq_false {memSize a n : Nat} : admitted memSize a n = false ↔ n ≠ 0 ∧ memSize < a + n := by
  simp [admitted]

theorem Session.moreRefusal_range {x : Session} {memSize addr len : Nat} :
    x.moreRefusal memSize addr len = some .rangeNotAdmitted ↔ admitted memSize addr len = false := by
  unfold Session.moreRefusal
  split_ifs <;> simp_all

theorem Session.moreRefusal_inactive {x : Session} {memSize addr len : Nat} (hx : x.active = false)
    (ha : admitted memSize addr len = true) : x.moreRefusal memSize addr len = some .sessionNotActive := by
  simp [Session.moreRefusal, ha, hx]

theorem Session.finishRefusal_inactive {x : Session} (hx : x.active = false) (pad : Bool) :
    x.finishRefusal pad = some .sessionNotActive := by
  simp [Session.finishRefusal, hx]

/-- The bound on TOTAL, as an inequality (42_base64_stream.md R106). -/
theorem Session.totalFits_iff {x : Session} {n : Nat} : x.totalFits n = true ↔ x.total.toNat + n ≤ 2 ^ 32 - 1 :=
  decide_eq_true_iff

theorem Session.totalFits_eq_false {x : Session} {n : Nat} :
    x.totalFits n = false ↔ 2 ^ 32 - 1 < x.total.toNat + n := by
  rw [← Nat.not_le, ← Session.totalFits_iff, Bool.not_eq_true]

theorem Session.moreRefusal_total {x : Session} {memSize addr len : Nat} (hx : x.active = true)
    (ha : admitted memSize addr len = true) :
    x.moreRefusal memSize addr len = some .totalBound ↔ x.totalFits (x.moreCount len) = false := by
  unfold Session.moreRefusal
  split_ifs <;> simp_all

theorem Session.finishRefusal_total {x : Session} {pad : Bool} (hx : x.active = true) :
    x.finishRefusal pad = some .totalBound ↔ x.totalFits (x.flushCount pad) = false := by
  unfold Session.finishRefusal
  split_ifs <;> simp_all

theorem Session.moreRefusal_eq_none {x : Session} {memSize addr len : Nat} :
    x.moreRefusal memSize addr len = none ↔
      admitted memSize addr len = true ∧ x.active = true ∧ x.totalFits (x.moreCount len) = true := by
  unfold Session.moreRefusal
  split_ifs <;> simp_all

theorem encbRefusal_range {p : Params} {inp len out : Nat} (he : p.hasEncb = true) :
    encbRefusal p inp len out = some .rangeNotAdmitted ↔
      admitted p.memSize inp len = false ∨ admitted p.memSize out (encLen len) = false := by
  unfold encbRefusal
  split_ifs <;> simp_all

theorem encbRefusal_overlap {p : Params} {inp len out : Nat} (he : p.hasEncb = true)
    (hi : admitted p.memSize inp len = true) (ho : admitted p.memSize out (encLen len) = true) :
    encbRefusal p inp len out = some .overlap ↔ encOverlapForbidden inp len out = true := by
  unfold encbRefusal
  split_ifs <;> simp_all

theorem encbRefusal_reserved {p : Params} {inp len out : Nat} :
    (∃ why, encbRefusal p inp len out = some (.reserved why)) ↔ p.hasEncb = false := by
  unfold encbRefusal
  split_ifs <;> simp_all

theorem encbRefusal_eq_none {p : Params} {inp len out : Nat} (he : p.hasEncb = true)
    (hi : admitted p.memSize inp len = true) (ho : admitted p.memSize out (encLen len) = true)
    (hov : encOverlapForbidden inp len out = false) (hmax : encLen len ≤ maxWord) : encbRefusal p inp len out = none := by
  simp [encbRefusal, he, hi, ho, hov, hmax]

theorem decRefusal_range {memSize inp len out : Nat} :
    decRefusal memSize inp len out = some .rangeNotAdmitted ↔
      admitted memSize inp len = false ∨ admitted memSize out (decMax len) = false := by
  unfold decRefusal
  split_ifs <;> simp_all

theorem decRefusal_overlap {memSize inp len out : Nat} (hi : admitted memSize inp len = true)
    (ho : admitted memSize out (decMax len) = true) :
    decRefusal memSize inp len out = some .overlap ↔ decOverlapForbidden inp len out = true := by
  unfold decRefusal
  split_ifs <;> simp_all

/-! None of the grounds behind the existence of the session is that the descriptor is reserved. -/

theorem Session.moreRefusal_ne_reserved (x : Session) (memSize addr len : Nat) (why : Reserved) :
    x.moreRefusal memSize addr len ≠ some (.reserved why) := by
  unfold Session.moreRefusal
  split_ifs <;> simp

theorem Session.finishRefusal_ne_reserved (x : Session) (pad : Bool) (why : Reserved) :
    x.finishRefusal pad ≠ some (.reserved why) := by
  unfold Session.finishRefusal
  split_ifs <;> simp

theorem decRefusal_ne_reserved (memSize inp len out : Nat) (why : Reserved) :
    decRefusal memSize inp len out ≠ some (.reserved why) := by
  unfold decRefusal
  split_ifs <;> simp

theorem execB64Dec_ne_reserved (inp len out : Word) (s : State) (why : Reserved) :
    execB64Dec inp len out s ≠ .refused (.reserved why) := fun h => by
  obtain h | h | h := execB64Dec_refused h
  · exact decRefusal_ne_reserved _ _ _ _ _ h
  · cases h
  · cases h

end Sys2Proof.Machine
end

section
/-! The obligations on the step and on refusals: reserved descriptors (30_encoding.md R56), the host's interactions
(70_reset_and_hazards.md R167), buffer ranges (20_memory.md R33, R44), inactive sessions and the bound on TOTAL
(42_base64_stream.md R100, R104, R106). -/

namespace Sys2Proof.Machine

/-- Settles O5: a presentation is taken from the list and its command executed. -/
theorem stepRunsTheDecodedCommand : Obligations.StepRunsTheDecodedCommand := by
  refine ⟨fun s d rest i hin hd => ?_, fun s nbits w i hd => ?_⟩
  · rw [step_present hin, stepCommand_of_decode hd]
  · have hin : (s.withFetchWord nbits w).inputs = .present (BitVec.ofNat 128 (w % 2 ^ nbits)) :: s.inputs := rfl
    rw [step_present hin, stepCommand_of_decode hd]
    rfl

/-- A decoded command is refused as reserved on the two grounds that depend on the block's parameters (R56). -/
theorem exec_reserved_iff (i : Instr) (s : State) :
    (∃ why, exec i s = .refused (.reserved why)) ↔
      (∃ sid, i.sid? = some sid ∧ s.nEnc ≤ sid.toNat) ∨ (i.mnemonic = "B64.ENCB" ∧ s.params.hasEncb = false) := by
  have conv : ∀ v, conversion i = some v → ¬ ∃ why, exec i s = .refused (.reserved why) := fun v hv h => by
    obtain ⟨why, h⟩ := h
    rw [exec_conversion hv] at h
    cases h
  cases i with
  | b64sStart sid sink ctx =>
    simp only [exec_b64sStart, Instr.sid?, Instr.mnemonic, Option.some.injEq, exists_eq_left', ← State.session?_none,
      String.reduceEq, false_and, or_false]
    cases hx : s.session? sid with
    | none => simp [execB64sStart_none hx]
    | some x => simp [execB64sStart, hx]
  | b64sMore sid addr len =>
    simp only [exec_b64sMore, Instr.sid?, Instr.mnemonic, Option.some.injEq, exists_eq_left', ← State.session?_none,
      String.reduceEq, false_and, or_false]
    cases hx : s.session? sid with
    | none => simp [execB64sMore_none hx]
    | some x => simp [execB64sMore_refused hx, Session.moreRefusal_ne_reserved]
  | b64sFinish sid pad =>
    simp only [exec_b64sFinish, Instr.sid?, Instr.mnemonic, Option.some.injEq, exists_eq_left', ← State.session?_none,
      String.reduceEq, false_and, or_false]
    cases hx : s.session? sid with
    | none => simp [execB64sFinish_none hx]
    | some x => simp [execB64sFinish_refused hx, Session.finishRefusal_ne_reserved]
  | b64Dec inp len out => simp [exec_b64Dec, execB64Dec_ne_reserved, Instr.sid?, Instr.mnemonic]
  | b64Encb inp len out =>
    simp only [exec_b64Encb, execB64Encb_refused, encbRefusal_reserved]
    simp [Instr.sid?, Instr.mnemonic]
  | fxpCvtU16 raw scale frac => simp [conv _ rfl, Instr.sid?, Instr.mnemonic]
  | fxpCvtS16 raw scale frac => simp [conv _ rfl, Instr.sid?, Instr.mnemonic]
  | fxpCvtU32 raw scale frac => simp [conv _ rfl, Instr.sid?, Instr.mnemonic]
  | fxpCvtS32 raw scale frac => simp [conv _ rfl, Instr.sid?, Instr.mnemonic]

/-- Settles O6: the decoder's own grounds, then those of the decoded command. -/
theorem reservedDescriptorsAreRefused : Obligations.ReservedDescriptorsAreRefused := by
  intro s d rest hin
  rw [step_present hin]
  cases hd : decode d with
  | none => simpa using stepCommand_of_decode_none hd _
  | some i =>
    rw [stepCommand_of_decode hd, exec_reserved_iff]
    simp [State.nEnc]

/-- Settles O7: one clause of R167 after the other. -/
theorem hostInteractions : Obligations.HostInteractions := by
  intro s rest addr v
  refine ⟨step_idle, fun hin hw => ?_, fun hin hw => ?_, fun hin hw => ?_, fun hin hw => ?_, fun hin ha hv => ?_,
    fun hin ha hv => ?_, fun hin ha => ?_, fun hin ha => ?_⟩
  · simp [step_readRet hin, hostReadRet, hw, State.observe]
  · simp [step_readRet hin, hostReadRet, hw]
  · simp [step_readFxout hin, hostReadFxout, hw, State.observe]
  · simp [step_readFxout hin, hostReadFxout, hw]
  · simp [step_readByte hin, hostReadByte, ha, Memory.readByte, hv, State.observe]
  · simp [step_readByte hin, hostReadByte, ha, Memory.readByte, hv]
  · simp [step_readByte hin, hostReadByte, Nat.not_lt.mpr ha]
  · simp [step_writeByte hin, hostWriteByte, Nat.not_lt.mpr ha]

/-- Settles O8: a read after one write. -/
theorem hostWriteIsReadBack : Obligations.HostWriteIsReadBack := by
  intro s rest addr v hin ha
  refine ⟨s.mem.write addr.toNat v, ?_, Memory.read_write_self .., fun a => Memory.read_write_ne s.mem v⟩
  rw [step_writeByte hin, hostWriteByte, if_pos ha]
  rfl

/-- Settles O9: every session is `Session.reset`, and the host's reset is that state. -/
theorem resetLeavesTheBlockQuiet : Obligations.ResetLeavesTheBlockQuiet := by
  refine ⟨fun n p => ⟨List.length_replicate, rfl, rfl, fun x hx => ?_, fun a => rfl⟩, ⟨rfl, rfl, rfl⟩,
    fun s rest hin => step_reset hin⟩
  rw [List.eq_of_mem_replicate hx]
  rfl

/-- Settles O18: ACTIVE is tested right behind the range. -/
theorem inactiveSessionIsRefused : Obligations.InactiveSessionIsRefused := by
  intro s sid x hx hactive
  refine ⟨fun addr len ha => ?_, fun pad => ?_⟩
  · exact (execB64sMore_refused hx).mpr (Session.moreRefusal_inactive hactive ha)
  · exact (execB64sFinish_refused hx).mpr (Session.finishRefusal_inactive hactive pad)

/-- Settles O20: the bound is the last ground, and the others are excluded. -/
theorem totalBoundRefusesExactly : Obligations.TotalBoundRefusesExactly := by
  intro s sid x hx hactive
  refine ⟨fun addr len ha => ?_, fun pad => ?_⟩
  · rw [exec_b64sMore, execB64sMore_refused hx, Session.moreRefusal_total hactive ha, Session.totalFits_eq_false]
    rfl
  · rw [exec_b64sFinish, execB64sFinish_refused hx, Session.finishRefusal_total hactive, Session.totalFits_eq_false,
      Session.flushCount]
    cases x.cnt <;> cases pad <;> rfl

/-- Settles O41: a range that is not admitted is the first ground behind those of a reserved descriptor. -/
theorem rangesOutsideMemoryAreRefused : Obligations.RangesOutsideMemoryAreRefused := by
  intro s sid x inp len out
  refine ⟨fun hx => ?_, ?_, fun he => ?_⟩
  · rw [exec_b64sMore, execB64sMore_refused hx, Session.moreRefusal_range, admitted_eq_false]
  · rw [exec_b64Dec, ← admitted_eq_false, ← admitted_eq_false, ← decRefusal_range]
    refine ⟨fun h => ?_, execB64Dec_of_decRefusal⟩
    simpa using execB64Dec_refused h
  · rw [exec_b64Encb, execB64Encb_refused, encbRefusal_range he, admitted_eq_false, admitted_eq_false]

/-- Two ranges overlap when some address is in both (20_memory.md R44). -/
theorem overlaps_iff {a n b m : Nat} :
    overlaps a n b m = true ↔ ∃ k, a ≤ k ∧ k < a + n ∧ b ≤ k ∧ k < b + m := by
  simp only [overlaps, Bool.and_eq_true, bne_iff_ne, ne_eq, decide_eq_true_eq]
  constructor
  · rintro ⟨⟨⟨hn, hm⟩, hab⟩, hba⟩
    exact ⟨max a b, by omega, by omega, by omega, by omega⟩
  · rintro ⟨k, h1, h2, h3, h4⟩
    omega

/-- Settles O42: with the ranges admitted, overlap is the next ground. -/
theorem overlapsAreRefusedButInPlace : Obligations.OverlapsAreRefusedButInPlace := by
  intro s inp len out hi
  refine ⟨fun ho => ?_, fun he ho => ?_⟩
  · have hdec : exec (.b64Dec inp len out) s = .refused .overlap ↔
        decRefusal s.params.memSize inp.toNat len.toNat out.toNat = some .overlap :=
      ⟨fun h => by simpa using execB64Dec_refused h, execB64Dec_of_decRefusal⟩
    rw [hdec, decRefusal_overlap hi ho, decOverlapForbidden, Bool.and_eq_true, overlaps_iff, bne_iff_ne, ne_eq, ne_eq,
      BitVec.toNat_inj]
  · rw [exec_b64Encb, execB64Encb_refused, encbRefusal_overlap he hi ho, encOverlapForbidden, overlaps_iff]

/-- Settles O58: nothing refuses the command, so it answers what the read of its input range answers. -/
theorem unwrittenInputByteFaults : Obligations.UnwrittenInputByteFaults := by
  intro s sid x inp len out n hi hn hbefore hnone
  have hread : s.mem.readBytes inp.toNat len.toNat = .error (.unwrittenByte (inp.toNat + n)) :=
    Memory.readBytes_eq_error.mpr ⟨n, hn, hbefore, hnone, rfl⟩
  refine ⟨fun hx hactive htotal => ?_, fun he ho hov hmax => ?_⟩
  · have hr := Session.moreRefusal_eq_none.mpr ⟨hi, hactive, Session.totalFits_iff.mpr htotal⟩
    exact (execB64sMore_fault hx hr).mpr hread
  · exact (execB64Encb_fault (encbRefusal_eq_none he hi ho hov hmax)).mpr hread

end Sys2Proof.Machine
end

section
/-! The streaming encoder (42_base64_stream.md R95 to R108): one command, and runs of commands on one session. -/

namespace Sys2Proof.Machine

/-! The state after each of the three commands on the session `x`. -/

/-- After B64S.START (R99). -/
def State.started (s : State) (sid : BitVec 8) (x : Session) (sink ctx : Word) : State :=
  (s.setSession sid (x.started sink ctx)).complete 0

/-- After a B64S.MORE that feeds `bs` (R100). -/
def State.fed (s : State) (sid : BitVec 8) (x : Session) (bs : List Byte) : State :=
  ((s.setSession sid (x.feed bs).1).emit x (x.feed bs).2).complete (BitVec.ofNat 32 (x.moreCount bs.length))

/-- After B64S.FINISH (R105). -/
def State.finished (s : State) (sid : BitVec 8) (x : Session) (pad : Bool) : State :=
  (((s.setSession sid (x.finished pad s.free)).emit x (x.flush pad)).draw 3).complete (x.finished pad s.free).total

theorem State.session?_started {s : State} {sid : BitVec 8} {x : Session} (hx : s.session? sid = some x)
    (sink ctx : Word) : (s.started sid x sink ctx).session? sid = some (x.started sink ctx) :=
  State.session?_setSession_self (State.session?_lt hx) _

theorem State.session?_finished {s : State} {sid : BitVec 8} {x : Session} (hx : s.session? sid = some x)
    (pad : Bool) : (s.finished sid x pad).session? sid = some (x.finished pad s.free) :=
  State.session?_setSession_self (State.session?_lt hx) _

theorem State.session?_fed {s : State} {sid : BitVec 8} {x : Session} (hx : s.session? sid = some x) (bs : List Byte) :
    (s.fed sid x bs).session? sid = some (x.feed bs).1 :=
  State.session?_setSession_self (State.session?_lt hx) _

@[simp] theorem State.fed_ret (s : State) (sid : BitVec 8) (x : Session) (bs : List Byte) :
    (s.fed sid x bs).ret = BitVec.ofNat 32 (x.moreCount bs.length) := rfl
@[simp] theorem State.fed_emissions (s : State) (sid : BitVec 8) (x : Session) (bs : List Byte) :
    (s.fed sid x bs).emissions = s.emissions ++ (x.feed bs).2.map (fun c => ⟨x.sink, x.ctx, c⟩) := rfl

@[simp] theorem State.started_emissions (s : State) (sid : BitVec 8) (x : Session) (sink ctx : Word) :
    (s.started sid x sink ctx).emissions = s.emissions := rfl
@[simp] theorem State.finished_emissions (s : State) (sid : BitVec 8) (x : Session) (pad : Bool) :
    (s.finished sid x pad).emissions = s.emissions ++ (x.flush pad).map (fun c => ⟨x.sink, x.ctx, c⟩) := rfl
@[simp] theorem State.finished_ret (s : State) (sid : BitVec 8) (x : Session) (pad : Bool) :
    (s.finished sid x pad).ret = x.total + BitVec.ofNat 32 (x.flushCount pad) := rfl

/-- Settles O13: B64S.START writes the whole session but for its groups, so a second one leaves nothing of the first. -/
theorem startOpensASession : Obligations.StartOpensASession := by
  intro s sid sink ctx x hx
  have hstart : exec (.b64sStart sid sink ctx) s = .next (s.started sid x sink ctx) :=
    execB64sStart_next.mpr ⟨x, hx, rfl⟩
  refine ⟨hstart, fun sink' ctx' t ht => ?_⟩
  obtain ⟨y, hy, rfl⟩ := execB64sStart_next.mp ht
  cases Option.some.inj (hx.symm.trans hy)
  have hagain : exec (.b64sStart sid sink ctx) (s.started sid x sink' ctx') = .next _ :=
    execB64sStart_next.mpr ⟨_, State.session?_started hx sink' ctx', rfl⟩
  refine hagain.trans (Eq.trans ?_ hstart.symm)
  simp [State.started, State.setSession, State.complete, Session.started]

/-- B64S.MORE on bytes that memory holds: its conditions are those on the operands, the session and TOTAL (R100, R106). -/
theorem exec_b64sMore_bytes {s t : State} {sid : BitVec 8} {addr len : Word} {x : Session} {bs : List Byte}
    (hx : s.session? sid = some x) (hlen : bs.length = len.toNat) (hbs : s.mem.holds addr.toNat bs) :
    exec (.b64sMore sid addr len) s = .next t ↔
      admitted s.params.memSize addr.toNat len.toNat = true ∧ x.active = true ∧
        x.total.toNat + x.moreCount bs.length ≤ 2 ^ 32 - 1 ∧ t = s.fed sid x bs := by
  rw [exec_b64sMore, execB64sMore_next, ← Session.totalFits_iff, State.fed, hlen]
  constructor
  · rintro ⟨y, bs', hy, ha, hactive, htotal, hlen', hbs', rfl⟩
    cases Option.some.inj (hx.symm.trans hy)
    cases Memory.holds_unique hbs hbs' (hlen.trans hlen'.symm)
    exact ⟨ha, hactive, htotal, by rw [Session.length_feed, hlen]⟩
  · rintro ⟨ha, hactive, htotal, rfl⟩
    exact ⟨x, bs, hx, ha, hactive, htotal, hlen, hbs, by rw [Session.length_feed, hlen]⟩

/-- TOTAL as a number, where the bound holds (R106). -/
theorem Session.toNat_feed_total {x : Session} {bs : List Byte} (h : x.total.toNat + x.moreCount bs.length ≤ 2 ^ 32 - 1) :
    (x.feed bs).1.total.toNat = x.total.toNat + x.moreCount bs.length := by
  rw [Session.feed_total, Session.length_feed, BitVec.toNat_add, BitVec.toNat_ofNat]
  omega

/-- The characters of two pieces are those of the first and then those of the second (R102). -/
theorem Session.moreCount_add (x : Session) (xs : List Byte) (n : Nat) :
    x.moreCount (xs.length + n) = x.moreCount xs.length + (x.feed xs).1.moreCount n := by
  simp only [Session.moreCount, Session.feed_count]
  omega

/-- One byte fed is one byte step (R101). -/
theorem State.fed_singleton (s : State) (sid : BitVec 8) (x : Session) (b : Byte) :
    s.fed sid x [b] = { s with
      sessions := s.sessions.set sid.toNat (x.byteStep b).1
      emissions := s.emissions ++ (x.byteStep b).2.map (fun c => ⟨x.sink, x.ctx, c⟩)
      ret := BitVec.ofNat 32 (x.moreCount 1)
      retWritten := true } := by
  simp [State.fed, Session.feed_cons, State.setSession, State.emit, State.complete]

/-- Settles O14: the byte step of the session's state, on a range of one byte. -/
theorem oneByteTakesOneTransition : Obligations.OneByteTakesOneTransition := by
  intro s sid addr x b hx hactive haddr hb
  have hbs : s.mem.holds addr.toNat [b] := Memory.holds_cons.mpr ⟨hb, fun k hk => by simp at hk⟩
  have ha : admitted s.params.memSize addr.toNat (1 : Word).toNat = true := admitted_iff.mpr (.inr haddr)
  have run : x.total.toNat + x.moreCount 1 ≤ 2 ^ 32 - 1 → exec (.b64sMore sid addr 1) s = .next (s.fed sid x [b]) :=
    fun ht => (exec_b64sMore_bytes hx rfl hbs).mpr ⟨ha, hactive, ht, rfl⟩
  have hword : x.total.toNat ≤ 2 ^ 32 - 1 := by have := x.total.isLt; omega
  refine ⟨fun hc => ?_, fun hc => ?_, fun hc ht => ?_⟩
  · have h0 : x.moreCount 1 = 0 := by simp [Session.moreCount, hc, EncState.count]
    rw [run (by omega), State.fed_singleton, h0]
    simp [Session.byteStep, hc, group0, partial1]
  · have h0 : x.moreCount 1 = 0 := by simp [Session.moreCount, hc, EncState.count]
    rw [run (by omega), State.fed_singleton, h0]
    simp [Session.byteStep, hc, complete1, partial2]
  · have h4 : x.moreCount 1 = 4 := by simp [Session.moreCount, hc, EncState.count]
    rw [run (by omega), State.fed_singleton, h4]
    simp [Session.byteStep, hc, complete2, group3]

/-- The quanta of a sequence are the standard text of the bytes they cover (R107). -/
theorem quanta_eq_stdUnpadded (xs : List Byte) : quanta xs = stdUnpadded (xs.take (3 * (xs.length / 3))) := by
  have hl : (xs.take (3 * (xs.length / 3))).length = 3 * (xs.length / 3) := by rw [List.length_take]; omega
  have hleft : leftover (xs.take (3 * (xs.length / 3))) = [] :=
    List.length_eq_zero_iff.mp (by rw [length_leftover, hl]; omega)
  have hdrop : quanta (xs.drop (3 * (xs.length / 3))) = [] :=
    List.length_eq_zero_iff.mp (by rw [length_quanta, List.length_drop]; omega)
  calc quanta xs
    _ = quanta (xs.take (3 * (xs.length / 3)) ++ xs.drop (3 * (xs.length / 3))) := by rw [List.take_append_drop]
    _ = quanta (xs.take (3 * (xs.length / 3))) := by
      rw [quanta_append_leftover, hleft, List.nil_append, hdrop, List.append_nil]
    _ = stdUnpadded (xs.take (3 * (xs.length / 3))) := by rw [stdUnpadded_eq, hleft]; simp [tailText]

/-- Settles O15: what feeding emits, holds back and counts. -/
theorem moreEmitsTheCompleteQuanta : Obligations.MoreEmitsTheCompleteQuanta := by
  intro s sid addr len x bs hx hactive ha hlen hbs htotal
  have hcount : x.moreCount bs.length = 4 * ((x.cnt.count + len.toNat) / 3) := by rw [hlen, Session.moreCount]
  have hn : (x.pending ++ bs).length = x.cnt.count + len.toNat := by
    rw [List.length_append, Session.length_pending, hlen]
  rw [← hcount] at htotal ⊢
  obtain ⟨hemit, hpending⟩ := x.feed_pending bs
  refine ⟨(x.feed bs).1, (x.feed bs).2, (exec_b64sMore_bytes hx hlen hbs).mpr ⟨ha, hactive, htotal, rfl⟩, ?_, ?_, ?_,
    Session.toNat_feed_total htotal, ?_, Session.feed_sink x bs, Session.feed_ctx x bs⟩
  · rw [hemit, quanta_eq_stdUnpadded, hn]
  · rw [hpending, leftover_eq_drop, hn]
  · rw [Session.feed_count, hlen]
  · rw [Session.feed_active, hactive]

/-- Settles O16: feeding the two halves is feeding the whole, and the second half starts where the first ends. -/
theorem splittingAMoreChangesNothing : Obligations.SplittingAMoreChangesNothing := by
  intro s t sid addr n₁ n₂ hmem hn h
  have hsum : (n₁ + n₂).toNat = n₁.toNat + n₂.toNat := by rw [BitVec.toNat_add]; omega
  obtain ⟨x, bs, hx, ha, hactive, htotal, hlen, hbs, rfl⟩ := execB64sMore_next.mp h
  rw [admitted_iff] at ha
  obtain ⟨xs, ys, rfl, hxs⟩ : ∃ xs ys, bs = xs ++ ys ∧ xs.length = n₁.toNat :=
    ⟨bs.take n₁.toNat, bs.drop n₁.toNat, (List.take_append_drop _ _).symm, by rw [List.length_take]; omega⟩
  have hys : ys.length = n₂.toNat := by rw [List.length_append] at hlen; omega
  obtain ⟨hbs₁, hbs₂⟩ := Memory.holds_append.mp hbs
  have hbs₂ : s.mem.holds (addr + n₁).toNat ys := by
    obtain hzero | hpos := Nat.eq_zero_or_pos n₂.toNat
    · intro k hk; omega
    · rwa [BitVec.toNat_add, Nat.mod_eq_of_lt (by omega), ← hxs]
  rw [Session.totalFits_iff, hsum, ← hxs, Session.moreCount_add] at htotal
  have htotal₁ : x.total.toNat + x.moreCount xs.length ≤ 2 ^ 32 - 1 := by omega
  have ha₂ : admitted s.params.memSize (addr + n₁).toNat n₂.toNat = true := by
    rw [admitted_iff]
    obtain hzero | hpos := Nat.eq_zero_or_pos n₂.toNat
    · exact .inl hzero
    · right
      rw [BitVec.toNat_add, Nat.mod_eq_of_lt (by omega)]
      omega
  have h₁ := (exec_b64sMore_bytes hx hxs hbs₁).mpr ⟨admitted_iff.mpr (by omega), hactive, htotal₁, rfl⟩
  have h₂ := (exec_b64sMore_bytes (State.session?_fed hx xs) hys hbs₂).mpr
    ⟨ha₂, by rw [Session.feed_active, hactive], by rw [Session.toNat_feed_total htotal₁, hys]; omega, rfl⟩
  refine ⟨_, _, h₁, h₂, ?_, ?_⟩
  · simp [State.fed, State.setSession, State.emit, State.complete, Session.feed_append]
  · simp only [State.fed_ret, State.complete_ret, Session.length_feed, List.length_append, Session.moreCount_add,
      BitVec.toNat_ofNat, hys]
    omega

/-- Settles O17: the flush, by the session's state; the session it leaves is not active. -/
theorem finishFlushesTheSession : Obligations.FinishFlushesTheSession := by
  intro s sid pad x cs hx hactive hcs htotal
  have hflush : x.flush pad = cs := by
    rw [hcs, Session.flush]
    cases x.cnt <;> cases pad <;> rfl
  have hcount : x.flushCount pad = cs.length := by rw [← Session.length_flush, hflush]
  have hfits : x.totalFits (x.flushCount pad) = true := by rwa [Session.totalFits_iff, hcount]
  have hself := State.session?_finished hx pad
  refine ⟨Config.freeCnt s.free, Config.freeGroup s.free, Config.freeGroup (s.free + 1), Config.freeGroup (s.free + 2),
    s.free + 3, s.finished sid x pad, execB64sFinish_next.mpr ⟨x, hx, hactive, hfits, rfl⟩, ?_, fun pad' => ?_,
    fun addr len ha => ?_⟩
  · simp [State.finished, hflush, Session.finished, hcount, State.setSession, State.emit, State.draw, State.complete]
  · exact (execB64sFinish_refused hself).mpr (Session.finishRefusal_inactive rfl pad')
  · exact (execB64sMore_refused hself).mpr (Session.moreRefusal_inactive rfl ha)

/-! The session a command names, and the others (10_state.md R12). -/

/-- A session that a command does not name stays as it was. -/
theorem exec_session_of_not_named {i : Instr} {s t : State} {k : BitVec 8} (h : exec i s = .next t)
    (hk : i.sid? ≠ some k) : t.session? k = s.session? k := by
  have ne : ∀ {sid : BitVec 8}, some sid ≠ some k → k ≠ sid := fun hne e => hne (congrArg some e.symm)
  cases exec_effect h with
  | started => exact State.session?_setSession_ne (ne hk) _
  | fed => exact State.session?_setSession_ne (ne hk) _
  | finished => exact State.session?_setSession_ne (ne hk) _
  | decoded => rfl
  | decodeFailed => rfl
  | encoded => rfl
  | @converted _ v _ => cases v <;> rfl

/-- What a command does to the ACTIVE of the session it names: B64S.START sets it, B64S.MORE finds it set and keeps it,
B64S.FINISH finds it set and clears it (R99, R100, R104). -/
theorem exec_session_of_named {i : Instr} {s t : State} {sid : BitVec 8} {x : Session} (h : exec i s = .next t)
    (hi : i.sid? = some sid) (hx : s.session? sid = some x) :
    ∃ y, t.session? sid = some y ∧
      ((∃ sink ctx, i = .b64sStart sid sink ctx) ∧ y.active = true ∨
        x.active = true ∧ y.active = true ∨
        (∃ pad, i = .b64sFinish sid pad) ∧ x.active = true ∧ y.active = false) := by
  have self := fun y => State.session?_setSession_self (State.session?_lt hx) y
  cases exec_effect h with
  | started hx' =>
    cases Option.some.inj hi
    exact ⟨_, self _, .inl ⟨⟨_, _, rfl⟩, rfl⟩⟩
  | fed hx' hactive =>
    cases Option.some.inj hi
    cases Option.some.inj (hx.symm.trans hx')
    exact ⟨_, self _, .inr (.inl ⟨hactive, by rw [Session.feed_active, hactive]⟩)⟩
  | finished hx' hactive =>
    cases Option.some.inj hi
    cases Option.some.inj (hx.symm.trans hx')
    exact ⟨_, self _, .inr (.inr ⟨⟨_, rfl⟩, hactive, rfl⟩)⟩
  | decoded => cases hi
  | decodeFailed => cases hi
  | encoded => cases hi
  | converted hv => rw [sid?_of_conversion hv] at hi; cases hi

/-- Settles O24: a session not named stays, and a named one changes its ACTIVE as START, MORE and FINISH say. -/
theorem onlyStartAndFinishChangeActive : Obligations.OnlyStartAndFinishChangeActive := by
  intro i s t sid x h hx
  by_cases hi : i.sid? = some sid
  · obtain ⟨y, hy, hact⟩ := exec_session_of_named h hi hx
    refine ⟨y, hy, fun hne => absurd hi hne, fun hxf hyt => ?_, fun hxt hyf => ?_⟩
    · obtain ⟨hstart, -⟩ | ⟨hxt, -⟩ | ⟨-, hxt, -⟩ := hact
      · exact hstart
      · simp [hxt] at hxf
      · simp [hxt] at hxf
    · obtain ⟨-, hyt⟩ | ⟨-, hyt⟩ | ⟨hfinish, -⟩ := hact
      · simp [hyt] at hyf
      · simp [hyt] at hyf
      · exact hfinish
  · refine ⟨x, by rw [exec_session_of_not_named h hi, hx], fun _ => rfl, fun hxf hxt => ?_, fun hxt hxf => ?_⟩
    · simp [hxf] at hxt
    · simp [hxf] at hxt

/-! Runs of commands. -/

theorem runCommands_cons {i : Instr} {is : List Instr} {s t : State} :
    runCommands (i :: is) s = .next t ↔ ∃ s', exec i s = .next s' ∧ runCommands is s' = .next t := by
  rw [runCommands]
  cases exec i s <;> simp

theorem runCommands_append {is js : List Instr} {s t : State} :
    runCommands (is ++ js) s = .next t ↔ ∃ s', runCommands is s = .next s' ∧ runCommands js s' = .next t := by
  induction is generalizing s with
  | nil => simp [runCommands]
  | cons i is ih =>
    simp only [List.cons_append, runCommands_cons, ih]
    constructor
    · rintro ⟨s₁, h₁, s₂, h₂, h₃⟩; exact ⟨s₂, ⟨s₁, h₁, h₂⟩, h₃⟩
    · rintro ⟨s₂, ⟨s₁, h₁, h₂⟩, h₃⟩; exact ⟨s₁, h₁, s₂, h₂, h₃⟩

/-- Settles O19: the first command that names the session would have to be a B64S.START. -/
theorem onlyStartReopensASession : Obligations.OnlyStartReopensASession := by
  intro is
  induction is with
  | nil =>
    intro s t sid x hx _ _ h
    cases h
    exact ⟨hx, by simp⟩
  | cons i is ih =>
    intro s t sid x hx hactive hno h
    obtain ⟨s', hi, his⟩ := runCommands_cons.mp h
    have hname : i.sid? ≠ some sid := fun hsid => by
      obtain ⟨y, -, ⟨⟨sink, ctx, rfl⟩, -⟩ | ⟨hxt, -⟩ | ⟨-, hxt, -⟩⟩ := exec_session_of_named hi hsid hx
      · exact hno _ List.mem_cons_self sink ctx rfl
      · simp [hxt] at hactive
      · simp [hxt] at hactive
    have hx' : s'.session? sid = some x := by rw [exec_session_of_not_named hi hname, hx]
    obtain ⟨ht, hrest⟩ := ih s' t sid x hx' hactive (fun j hj => hno j (List.mem_cons_of_mem _ hj)) his
    exact ⟨ht, List.forall_mem_cons.mpr ⟨hname, hrest⟩⟩

/-- A streaming command changes its own session, the history, RET and the count of free values only (R96, R103, R108). -/
theorem exec_streaming_frame {i : Instr} {s t : State} {sid : BitVec 8} (h : exec i s = .next t)
    (hi : i.sid? = some sid) :
    t.mem = s.mem ∧ t.fxout = s.fxout ∧ t.params = s.params ∧ ∀ k, k ≠ sid → t.session? k = s.session? k := by
  have others : ∀ k, k ≠ sid → t.session? k = s.session? k := fun k hk =>
    exec_session_of_not_named h (fun e => hk (Option.some.inj (e.symm.trans hi)))
  cases exec_effect h with
  | started => exact ⟨rfl, rfl, rfl, others⟩
  | fed => exact ⟨rfl, rfl, rfl, others⟩
  | finished => exact ⟨rfl, rfl, rfl, others⟩
  | decoded => cases hi
  | decodeFailed => cases hi
  | encoded => cases hi
  | converted hv => rw [sid?_of_conversion hv] at hi; cases hi

theorem runCommands_streaming_frame {is : List Instr} {s t : State} {sid : BitVec 8} (h : runCommands is s = .next t)
    (hi : ∀ i ∈ is, i.sid? = some sid) :
    t.mem = s.mem ∧ t.fxout = s.fxout ∧ t.params = s.params ∧ ∀ k, k ≠ sid → t.session? k = s.session? k := by
  induction is generalizing s with
  | nil => cases h; exact ⟨rfl, rfl, rfl, fun _ _ => rfl⟩
  | cons i is ih =>
    obtain ⟨s', h1, h2⟩ := runCommands_cons.mp h
    obtain ⟨m1, f1, p1, o1⟩ := exec_streaming_frame h1 (hi i List.mem_cons_self)
    obtain ⟨m2, f2, p2, o2⟩ := ih h2 (fun j hj => hi j (List.mem_cons_of_mem _ hj))
    exact ⟨m2.trans m1, f2.trans f1, p2.trans p1, fun k hk => (o2 k hk).trans (o1 k hk)⟩

/-- The operand that stands for a piece's length. -/
theorem toNat_length {bs : List Byte} (h : bs.length < 2 ^ 32) : bs.length = (BitVec.ofNat 32 bs.length).toNat := by
  rw [BitVec.toNat_ofNat, Nat.mod_eq_of_lt h]

/-- A run of B64S.MORE that is accepted feeds the session all its bytes, within the bound on TOTAL. -/
theorem runCommands_morePieces {sid : BitVec 8} (pieces : List (Word × List Byte)) {s t : State} {x : Session}
    (h : runCommands (morePieces sid pieces) s = .next t) (hx : s.session? sid = some x)
    (hp : ∀ p ∈ pieces, p.2.length < 2 ^ 32 ∧ s.mem.holds p.1.toNat p.2) :
    t.session? sid = some (x.feed (pieces.flatMap fun p => p.2)).1 ∧
      t.emissions = s.emissions ++ (x.feed (pieces.flatMap fun p => p.2)).2.map (fun c => ⟨x.sink, x.ctx, c⟩) ∧
      x.total.toNat + x.moreCount (pieces.flatMap fun p => p.2).length ≤ 2 ^ 32 - 1 := by
  induction pieces generalizing s x with
  | nil =>
    cases h
    have hzero : x.moreCount 0 = 0 := by
      have := EncState.count_le x.cnt
      rw [Session.moreCount]; omega
    have hword := x.total.isLt
    exact ⟨hx, by simp, by simp only [List.flatMap_nil, List.length_nil, hzero]; omega⟩
  | cons p pieces ih =>
    obtain ⟨⟨hlen, hbs⟩, hrest⟩ := List.forall_mem_cons.mp hp
    obtain ⟨s', h1, h2⟩ := runCommands_cons.mp h
    obtain ⟨-, -, htotal, rfl⟩ := (exec_b64sMore_bytes hx (toNat_length hlen) hbs).mp h1
    obtain ⟨hx', hem, htotal'⟩ := ih h2 (State.session?_fed hx _) hrest
    rw [Session.toNat_feed_total htotal] at htotal'
    refine ⟨?_, ?_, ?_⟩
    · rw [hx', List.flatMap_cons, Session.feed_append]
    · rw [hem, List.flatMap_cons, Session.feed_append]
      simp
    · rw [List.flatMap_cons, List.length_append, Session.moreCount_add]
      omega

/-- A run of B64S.MORE on admitted, written ranges is accepted as long as TOTAL stays within its bound. -/
theorem runCommands_morePieces_accepted {sid : BitVec 8} (pieces : List (Word × List Byte)) {s : State} {x : Session}
    (hx : s.session? sid = some x) (hactive : x.active = true)
    (hp : ∀ p ∈ pieces, p.2.length < 2 ^ 32 ∧ admitted s.params.memSize p.1.toNat p.2.length = true ∧
      s.mem.holds p.1.toNat p.2)
    (htotal : x.total.toNat + x.moreCount (pieces.flatMap fun p => p.2).length ≤ 2 ^ 32 - 1) :
    ∃ t, runCommands (morePieces sid pieces) s = .next t := by
  induction pieces generalizing s x with
  | nil => exact ⟨s, rfl⟩
  | cons p pieces ih =>
    obtain ⟨⟨hlen, ha, hbs⟩, hrest⟩ := List.forall_mem_cons.mp hp
    rw [List.flatMap_cons, List.length_append, Session.moreCount_add] at htotal
    have htotal₁ : x.total.toNat + x.moreCount p.2.length ≤ 2 ^ 32 - 1 := by omega
    have h1 := (exec_b64sMore_bytes hx (toNat_length hlen) hbs).mpr
      ⟨by rwa [← toNat_length hlen], hactive, htotal₁, rfl⟩
    obtain ⟨t, h2⟩ := ih (State.session?_fed hx p.2) (by rw [Session.feed_active, hactive]) hrest
      (by rw [Session.toNat_feed_total htotal₁]; omega)
    exact ⟨t, runCommands_cons.mpr ⟨_, h1, h2⟩⟩

/-- A session just started has nothing pending. -/
theorem Session.pending_started (x : Session) (sink ctx : Word) : (x.started sink ctx).pending = [] := rfl

theorem Session.toNat_started_total (x : Session) (sink ctx : Word) : (x.started sink ctx).total.toNat = 0 := rfl

theorem Session.moreCount_started (x : Session) (sink ctx : Word) (n : Nat) :
    (x.started sink ctx).moreCount n = 4 * (n / 3) := by
  simp [Session.moreCount, EncState.count]

/-- Settles O22: feeding a session just started emits the quanta of the bytes and holds back the rest. -/
theorem acceptedBytesAreCounted : Obligations.AcceptedBytesAreCounted := by
  intro s t sid sink ctx pieces hp h
  obtain ⟨s', h1, h2⟩ := runCommands_cons.mp h
  obtain ⟨x, hx, rfl⟩ := execB64sStart_next.mp h1
  obtain ⟨ht, -, htotal⟩ :=
    runCommands_morePieces pieces h2 (State.session?_started hx sink ctx) hp
  generalize pieces.flatMap (fun p => p.2) = bs at *
  have hnat := Session.toNat_feed_total htotal
  rw [Session.moreCount_started, Session.toNat_started_total, Nat.zero_add] at hnat
  refine ⟨_, ht, by rw [Session.feed_active]; rfl, by omega, ?_, ?_⟩
  · rw [hnat, Session.feed_count, Session.started_cnt, EncState.count]; omega
  · rw [hnat, (Session.feed_pending _ bs).2, Session.pending_started, List.nil_append, leftover_eq_drop]
    congr 1; omega

/-- The length of a session's text: `4 * ceil(n / 3)`, or without the `=` (R107). -/
theorem length_streamText (pad : Bool) (bs : List Byte) :
    (streamText pad bs).length = (if pad then 4 * ((bs.length + 2) / 3)
      else 4 * (bs.length / 3) + (if bs.length % 3 = 0 then 0 else bs.length % 3 + 1)) := by
  cases pad
  · simp only [streamText, Bool.false_eq_true, if_false, length_stdUnpadded]
    split_ifs <;> omega
  · simp only [streamText, if_true, length_stdBase64, encLen]

/-- The text of a session is what feeding it emits and then what the flush adds (R105, R107). -/
theorem streamText_eq (x : Session) (sink ctx : Word) (pad : Bool) (bs : List Byte) :
    streamText pad bs = ((x.started sink ctx).feed bs).2 ++ ((x.started sink ctx).feed bs).1.flush pad := by
  obtain ⟨hemit, hpending⟩ := Session.feed_pending (x.started sink ctx) bs
  rw [Session.pending_started, List.nil_append] at hemit hpending
  have hpad : stdPadCount (leftover bs).length = stdPadCount bs.length := by
    simp [stdPadCount_eq, length_leftover]
  rw [Session.flush_eq pad (Session.feed_inv bs (Session.started_inv x sink ctx)) (by simp), hemit, hpending, hpad]
  cases pad <;> simp [streamText, stdBase64, stdUnpadded_eq]

/-- START, MORE and FINISH on one session name that session. -/
theorem sid?_streaming (sid : BitVec 8) (sink ctx : Word) (pieces : List (Word × List Byte)) (pad : Bool) :
    ∀ i ∈ .b64sStart sid sink ctx :: morePieces sid pieces ++ [.b64sFinish sid pad], i.sid? = some sid := by
  intro i hi
  simp only [morePieces, List.cons_append, List.mem_cons, List.mem_append, List.mem_map, List.not_mem_nil, or_false] at hi
  obtain rfl | ⟨p, -, rfl⟩ | rfl := hi
  · rfl
  · rfl
  · rfl

/-- Settles O21: START empties the session, the pieces feed it all the bytes, and FINISH flushes what they leave. -/
theorem streamIsStandardBase64 : Obligations.StreamIsStandardBase64 := by
  intro s sid sink ctx pieces pad bs hsid hbs hfit hp
  obtain ⟨x, hx⟩ := Option.isSome_iff_exists.mp ((State.session?_isSome s sid).mpr hsid)
  have hlen := length_streamText pad bs
  have hstart : exec (.b64sStart sid sink ctx) s = .next (s.started sid x sink ctx) :=
    execB64sStart_next.mpr ⟨x, hx, rfl⟩
  have hself := State.session?_started hx sink ctx
  have htotal : (x.started sink ctx).total.toNat + (x.started sink ctx).moreCount bs.length ≤ 2 ^ 32 - 1 := by
    rw [Session.moreCount_started, Session.toNat_started_total]
    split_ifs at hlen <;> omega
  obtain ⟨u, hmore⟩ := runCommands_morePieces_accepted pieces hself rfl hp (hbs ▸ htotal)
  obtain ⟨hu, hem, -⟩ := runCommands_morePieces pieces hmore hself (fun p hm => (hp p hm).imp_right And.right)
  rw [← hbs] at hu hem
  set y := ((x.started sink ctx).feed bs).1 with hy
  have htext : (streamText pad bs).length = y.total.toNat + y.flushCount pad := by
    rw [streamText_eq x sink ctx, List.length_append, Session.length_flush, Session.length_feed,
      Session.toNat_feed_total htotal, Session.toNat_started_total, Nat.zero_add]
  have hfinish : exec (.b64sFinish sid pad) u = .next (u.finished sid y pad) := execB64sFinish_next.mpr
    ⟨y, hu, by rw [hy, Session.feed_active]; rfl, Session.totalFits_iff.mpr (htext ▸ hfit), rfl⟩
  have hrun : runCommands (.b64sStart sid sink ctx :: morePieces sid pieces ++ [.b64sFinish sid pad]) s =
      .next (u.finished sid y pad) :=
    runCommands_cons.mpr ⟨_, hstart, runCommands_append.mpr ⟨u, hmore, runCommands_cons.mpr ⟨_, hfinish, rfl⟩⟩⟩
  obtain ⟨fmem, ffx, -, fothers⟩ := runCommands_streaming_frame hrun (sid?_streaming sid sink ctx pieces pad)
  refine ⟨_, hrun, ?_, ?_, hlen, fmem, ffx, fothers⟩
  · simp [hem, streamText_eq x sink ctx, hy]
  · rw [State.finished_ret, BitVec.toNat_add, BitVec.toNat_ofNat, htext]
    omega

/-- Settles O23: what a streaming command answers is made of its session, of memory and of the count of free values. -/
theorem sessionsDoNotInterfere : Obligations.SessionsDoNotInterfere := by
  intro s₁ s₂ t₁ i sid hi hsession hmem hparams hfree h
  obtain ⟨-, -, -, others₁⟩ := exec_streaming_frame h hi
  suffices key : ∃ t₂ es, exec i s₂ = .next t₂ ∧ t₁.ret = t₂.ret ∧ t₁.emissions = s₁.emissions ++ es ∧
      t₂.emissions = s₂.emissions ++ es ∧ t₁.session? sid = t₂.session? sid by
    obtain ⟨t₂, es, h₂, hret, he₁, he₂, hs⟩ := key
    obtain ⟨-, -, -, others₂⟩ := exec_streaming_frame h₂ hi
    exact ⟨t₂, es, h₂, hret, he₁, he₂, hs, fun k hk => ⟨others₁ k hk, others₂ k hk⟩⟩
  have self₁ := fun {x} (hx : s₁.session? sid = some x) y => State.session?_setSession_self (State.session?_lt hx) y
  have self₂ := fun {x} (hx : s₂.session? sid = some x) y => State.session?_setSession_self (State.session?_lt hx) y
  cases i with
  | b64sStart sid' sink ctx =>
    cases Option.some.inj hi
    obtain ⟨x, hx, rfl⟩ := execB64sStart_next.mp h
    have hx₂ := hsession.symm.trans hx
    exact ⟨_, [], execB64sStart_next.mpr ⟨x, hx₂, rfl⟩, rfl, by simp, by simp, (self₁ hx _).trans (self₂ hx₂ _).symm⟩
  | b64sMore sid' addr len =>
    cases Option.some.inj hi
    obtain ⟨x, bs, hx, ha, hactive, htotal, hlen, hbs, rfl⟩ := execB64sMore_next.mp h
    have hx₂ := hsession.symm.trans hx
    exact ⟨_, _, execB64sMore_next.mpr ⟨x, bs, hx₂, hparams ▸ ha, hactive, htotal, hlen, hmem ▸ hbs, rfl⟩, rfl, rfl, rfl,
      (self₁ hx _).trans (self₂ hx₂ _).symm⟩
  | b64sFinish sid' pad =>
    cases Option.some.inj hi
    obtain ⟨x, hx, hactive, htotal, rfl⟩ := execB64sFinish_next.mp h
    have hx₂ := hsession.symm.trans hx
    exact ⟨_, _, execB64sFinish_next.mpr ⟨x, hx₂, hactive, htotal, rfl⟩, by rw [hfree]; rfl, rfl, rfl,
      (self₁ hx _).trans (hfree ▸ (self₂ hx₂ _).symm)⟩
  | b64Dec inp len out => cases hi
  | b64Encb inp len out => cases hi
  | fxpCvtU16 raw scale frac => cases hi
  | fxpCvtS16 raw scale frac => cases hi
  | fxpCvtU32 raw scale frac => cases hi
  | fxpCvtS32 raw scale frac => cases hi

end Sys2Proof.Machine
end

section
/-! What every command leaves unchanged: the history (10_state.md R23), buffer memory (R22) and FXOUT (R21). -/

namespace Sys2Proof.Machine

/-- A text of alphabet characters is the image of groups. -/
theorem exists_groups {cs : List Byte} (h : ∀ ch ∈ cs, ∃ v, ch = enc6 v) : ∃ gs : List Group, cs = gs.map enc6 := by
  have hmem : cs ∈ Set.range (List.map enc6) := by
    rw [Set.range_list_map]
    exact fun ch hch => (h ch hch).imp fun _ e => e.symm
  obtain ⟨gs, hgs⟩ := hmem
  exact ⟨gs, hgs.symm⟩

/-- The flush is alphabet characters and then, with `pad` only, at most two `=` (R105). -/
theorem Session.flush_shape (x : Session) (pad : Bool) :
    ∃ (gs : List Group) (k : Nat), x.flush pad = gs.map enc6 ++ List.replicate k PAD ∧ k ≤ 2 ∧ (pad = false → k = 0) := by
  unfold Session.flush
  cases x.cnt with
  | empty => exact ⟨[], 0, rfl, by omega, fun _ => rfl⟩
  | one =>
    cases pad
    · exact ⟨[x.g0, x.g1], 0, rfl, by omega, fun _ => rfl⟩
    · exact ⟨[x.g0, x.g1], 2, rfl, le_rfl, fun h => by cases h⟩
  | two =>
    cases pad
    · exact ⟨[x.g0, x.g1, x.g2], 0, rfl, by omega, fun _ => rfl⟩
    · exact ⟨[x.g0, x.g1, x.g2], 1, rfl, by omega, fun h => by cases h⟩

@[simp] theorem State.convert_emissions (s : State) (v : FxValue) : (s.convert v).emissions = s.emissions := by
  cases v <;> rfl
@[simp] theorem State.convert_mem (s : State) (v : FxValue) : (s.convert v).mem = s.mem := by
  cases v <;> rfl

/-- Settles O25: feeding emits quanta, the flush alphabet characters and then its `=`. -/
theorem emissionsAreOnlyAppended : Obligations.EmissionsAreOnlyAppended := by
  intro i s t h
  cases exec_effect h with
  | started => exact .inl rfl
  | @fed sid addr len x bs hx _ =>
    obtain ⟨gs, hgs⟩ := exists_groups (x.feed_alphabet bs)
    exact .inr ⟨sid, x, gs, 0, hx, .inl ⟨addr, len, rfl, rfl⟩, by simp [hgs]⟩
  | @finished sid pad x hx _ =>
    obtain ⟨gs, k, hflush, hk, hpad⟩ := x.flush_shape pad
    refine .inr ⟨sid, x, gs, k, hx, .inr ?_, by rw [← PAD, ← hflush]; rfl⟩
    cases pad
    · exact .inl ⟨rfl, hpad rfl⟩
    · exact .inr ⟨rfl, hk⟩
  | decoded => exact .inl rfl
  | decodeFailed => exact .inl rfl
  | encoded => exact .inl rfl
  | converted => exact .inl (State.convert_emissions _ _)

/-- A shorter range disturbed is the longer range disturbed. -/
theorem Memory.sameOutside.mono {m m' : Memory} {a n k : Nat} (h : m.sameOutside m' a n) (hk : n ≤ k) :
    m.sameOutside m' a k := fun b hb => h b (by omega)

/-- Settles O26: the two codec commands write one sequence each, at `out`. -/
theorem onlyTheBlockCodecWritesMemory : Obligations.OnlyTheBlockCodecWritesMemory := by
  intro i s t h
  cases exec_effect h with
  | started => exact .inl rfl
  | fed => exact .inl rfl
  | finished => exact .inl rfl
  | @decoded inp len out bs _ hlen _ =>
    exact .inr (.inl ⟨inp, len, out, rfl, (Memory.sameOutside_writeBytes s.mem out.toNat bs).mono hlen⟩)
  | @decodeFailed inp len out _ => exact .inr (.inl ⟨inp, len, out, rfl, Memory.sameOutside_writeFree _ _ _ _⟩)
  | @encoded inp len out text _ hlen =>
    exact .inr (.inr ⟨inp, len, out, rfl, hlen ▸ Memory.sameOutside_writeBytes s.mem out.toNat text⟩)
  | converted => exact .inl (State.convert_mem _ _)

/-- The conversions are the four commands that O27 names. -/
theorem conversion_isSome_iff (i : Instr) :
    ((∃ raw scale frac, i = .fxpCvtU16 raw scale frac ∨ i = .fxpCvtS16 raw scale frac) ∨
      (∃ raw scale frac, i = .fxpCvtU32 raw scale frac ∨ i = .fxpCvtS32 raw scale frac)) ↔
      (conversion i).isSome = true := by
  cases i <;> simp [conversion]

/-- A conversion writes FXOUT and RET only, and a failed one, which returns a nonzero code, leaves FXOUT (R121, R125). -/
theorem State.convert_frame (s : State) (v : FxValue) :
    s.convert v = { s with
      fxout := (s.convert v).fxout
      fxoutWritten := (s.convert v).fxoutWritten
      ret := (s.convert v).ret
      retWritten := true } ∧
    ((s.convert v).ret ≠ 0 → (s.convert v).fxout = s.fxout ∧ (s.convert v).fxoutWritten = s.fxoutWritten) := by
  cases v with
  | ok r => exact ⟨rfl, fun h => absurd rfl h⟩
  | failed e => exact ⟨rfl, fun _ => ⟨rfl, rfl⟩⟩

/-- Settles O27: a conversion is `State.convert`, and no other command writes FXOUT. -/
theorem failedConversionKeepsFxout : Obligations.FailedConversionKeepsFxout := by
  intro i s t h
  rw [conversion_isSome_iff, Bool.not_eq_true, Option.isSome_eq_false_iff, Option.isNone_iff_eq_none]
  refine ⟨fun hsome => ?_, fun hnone => ?_⟩
  · obtain ⟨v, hv⟩ := Option.isSome_iff_exists.mp hsome
    rw [exec_conversion hv] at h
    cases h
    exact s.convert_frame v
  · cases exec_effect h with
    | started => exact ⟨rfl, rfl⟩
    | fed => exact ⟨rfl, rfl⟩
    | finished => exact ⟨rfl, rfl⟩
    | decoded => exact ⟨rfl, rfl⟩
    | decodeFailed => exact ⟨rfl, rfl⟩
    | encoded => exact ⟨rfl, rfl⟩
    | converted hv => rw [hnone] at hv; cases hv

end Sys2Proof.Machine
end

section
/-! The four conversions over integers and rational numbers (43_fixed_point.md R115 to R128). -/

namespace Sys2Proof.Machine

/-! What a conversion does with the value it reports (R121, R125). -/

theorem State.convert_ok (s : State) (r : Word) :
    s.convert (.ok r) = { s with fxout := r, fxoutWritten := true, ret := 0, retWritten := true } := rfl

theorem State.convert_frac (s : State) :
    s.convert (.failed .fracBitsOutOfRange) = { s with ret := 1, retWritten := true } := rfl

theorem State.convert_overflow (s : State) :
    s.convert (.failed .magnitudeOverflow) = { s with ret := 2, retWritten := true } := rfl

/-- RET tells the overflow from the other two answers (R125). -/
theorem State.convert_eq_overflow (s : State) (v : FxValue) :
    s.convert v = { s with ret := 2, retWritten := true } ↔ v = .failed .magnitudeOverflow := by
  refine ⟨fun h => ?_, fun h => by rw [h, State.convert_overflow]⟩
  have hret : (s.convert v).ret = 2 := by rw [h]
  cases v with
  | ok r => cases hret
  | failed e =>
    cases e with
    | fracBitsOutOfRange => cases hret
    | magnitudeOverflow => rfl

/-- RET is 0 on success only (R125). -/
theorem State.convert_ret_zero {s : State} {v : FxValue} (h : (s.convert v).ret = 0) :
    ∃ r, v = .ok r ∧ (s.convert v).fxout = r := by
  cases v with
  | ok r => exact ⟨r, rfl, rfl⟩
  | failed e => cases e <;> cases h

/-! The values of the core and of the signed wrapper, by the range of the exact result (R116, R118, R120). -/

section
variable {u scale frac : Word}

theorem fxCore_ok (hf : frac.toNat ≤ 31) (h : fxExact u.toNat scale.toNat frac.toNat < 2 ^ 32) :
    fxCore u scale frac = .ok (BitVec.ofNat 32 (fxExact u.toNat scale.toNat frac.toNat)) := by
  rw [fxCore_eq, if_neg (by omega), if_neg (by omega)]

theorem fxSigned_ok (hf : frac.toNat ≤ 31) (h : fxExact u.toInt.natAbs scale.toNat frac.toNat < 2 ^ 32) :
    fxSigned u scale frac = .ok (BitVec.ofInt 32 (u.toInt.sign * fxExact u.toInt.natAbs scale.toNat frac.toNat)) := by
  rw [fxSigned_eq, if_neg (by omega), if_neg (by omega)]

/-- Which outcome of the two tests is the overflow (R118). -/
theorem fxTests_overflow_iff {f E : Nat} {r : Word} :
    (if 31 < f then FxValue.failed .fracBitsOutOfRange
      else if 2 ^ 32 ≤ E then .failed .magnitudeOverflow else .ok r) = .failed .magnitudeOverflow ↔
      f ≤ 31 ∧ 2 ^ 32 ≤ E := by
  split_ifs with h1 h2
  · simp only [FxValue.failed.injEq, reduceCtorEq, false_iff]
    omega
  · exact ⟨fun _ => ⟨by omega, h2⟩, fun _ => rfl⟩
  · simp only [false_iff]
    exact fun h => h2 h.2

theorem fxCore_overflow_iff :
    fxCore u scale frac = .failed .magnitudeOverflow ↔
      frac.toNat ≤ 31 ∧ 2 ^ 32 ≤ fxExact u.toNat scale.toNat frac.toNat := by
  rw [fxCore_eq, fxTests_overflow_iff]

theorem fxSigned_overflow_iff :
    fxSigned u scale frac = .failed .magnitudeOverflow ↔
      frac.toNat ≤ 31 ∧ 2 ^ 32 ≤ fxExact u.toInt.natAbs scale.toNat frac.toNat := by
  rw [fxSigned_eq, fxTests_overflow_iff]

/-- The wrapper passes the core's first failure on (R120). -/
theorem fxSigned_of_frac_gt (hf : 31 < frac.toNat) : fxSigned u scale frac = .failed .fracBitsOutOfRange :=
  fxSigned_of_core_failed (fxCore_of_frac_gt hf)

/-- A success, taken apart: both tests passed, and the result is the exact one at 32 bits. -/
theorem fxCore_eq_ok {r : Word} (h : fxCore u scale frac = .ok r) :
    frac.toNat ≤ 31 ∧ r.toNat = fxExact u.toNat scale.toNat frac.toNat := by
  rw [fxCore_eq] at h
  split_ifs at h with h1 h2
  cases h
  exact ⟨by omega, by rw [BitVec.toNat_ofNat, Nat.mod_eq_of_lt (by omega)]⟩

theorem fxSigned_eq_ok {r : Word} (h : fxSigned u scale frac = .ok r) :
    frac.toNat ≤ 31 ∧ fxExact u.toInt.natAbs scale.toNat frac.toNat < 2 ^ 32 ∧
      r = BitVec.ofInt 32 (u.toInt.sign * fxExact u.toInt.natAbs scale.toNat frac.toNat) := by
  rw [fxSigned_eq] at h
  split_ifs at h with h1 h2
  cases h
  exact ⟨by omega, by omega, rfl⟩

end

/-- Settles O47: the core on the sample, which widening leaves as it was. -/
theorem unsignedConversionResult : Obligations.UnsignedConversionResult := by
  intro s raw16 raw32 scale frac hf
  refine ⟨fun h => ?_, fun h => ?_⟩
  · rw [← toNat_rawU16 raw16] at h ⊢
    rw [exec_conversion rfl, fxCore_ok hf h, State.convert_ok]
  · rw [exec_conversion rfl, fxCore_ok hf h, State.convert_ok]

/-- Settles O48: the wrapper on the sample, which widening leaves as it was. -/
theorem signedConversionResult : Obligations.SignedConversionResult := by
  intro s raw16 raw32 scale frac hf
  refine ⟨fun h => ?_, fun h => ?_⟩
  · rw [← toInt_rawS16 raw16] at h ⊢
    rw [exec_conversion rfl, fxSigned_ok hf h, State.convert_ok]
  · rw [exec_conversion rfl, fxSigned_ok hf h, State.convert_ok]

/-- Settles O49: the core's first test. -/
theorem fracOutOfRangeComesFirst : Obligations.FracOutOfRangeComesFirst := by
  intro s raw16 raw32 scale frac hf
  refine ⟨?_, ?_, ?_, ?_⟩
  · rw [exec_conversion rfl, fxCore_of_frac_gt hf, State.convert_frac]
  · rw [exec_conversion rfl, fxSigned_of_frac_gt hf, State.convert_frac]
  · rw [exec_conversion rfl, fxCore_of_frac_gt hf, State.convert_frac]
  · rw [exec_conversion rfl, fxSigned_of_frac_gt hf, State.convert_frac]

/-- When each command overflows: its exact result reaches 2^32 (R118). -/
theorem exec_overflow_iff (s : State) (raw16 : BitVec 16) (raw32 scale frac : Word) :
    (exec (.fxpCvtU16 raw16 scale frac) s = .next { s with ret := 2, retWritten := true } ↔
      frac.toNat ≤ 31 ∧ 2 ^ 32 ≤ fxExact raw16.toNat scale.toNat frac.toNat) ∧
    (exec (.fxpCvtS16 raw16 scale frac) s = .next { s with ret := 2, retWritten := true } ↔
      frac.toNat ≤ 31 ∧ 2 ^ 32 ≤ fxExact raw16.toInt.natAbs scale.toNat frac.toNat) ∧
    (exec (.fxpCvtU32 raw32 scale frac) s = .next { s with ret := 2, retWritten := true } ↔
      frac.toNat ≤ 31 ∧ 2 ^ 32 ≤ fxExact raw32.toNat scale.toNat frac.toNat) ∧
    (exec (.fxpCvtS32 raw32 scale frac) s = .next { s with ret := 2, retWritten := true } ↔
      frac.toNat ≤ 31 ∧ 2 ^ 32 ≤ fxExact raw32.toInt.natAbs scale.toNat frac.toNat) := by
  rw [← toNat_rawU16 raw16, ← toInt_rawS16 raw16]
  simp only [← fxCore_overflow_iff, ← fxSigned_overflow_iff, ← State.convert_eq_overflow s]
  refine ⟨?_, ?_, ?_, ?_⟩ <;> rw [exec_conversion rfl, Host.Outcome.next.injEq]

/-- Settles O50: the overflow's condition, met. -/
theorem magnitudeOverflowFails : Obligations.MagnitudeOverflowFails := by
  intro s raw16 raw32 scale frac hf
  obtain ⟨hU16, hS16, hU32, hS32⟩ := exec_overflow_iff s raw16 raw32 scale frac
  exact ⟨fun h => hU16.mpr ⟨hf, h⟩, fun h => hS16.mpr ⟨hf, h⟩, fun h => hU32.mpr ⟨hf, h⟩, fun h => hS32.mpr ⟨hf, h⟩⟩

/-- More fractional bits, no smaller a result (R128 (c)). -/
theorem fxExact_mono (raw scale : Nat) {f f' : Nat} (h : f ≤ f') : fxExact raw scale f ≤ fxExact raw scale f' := by
  unfold fxExact
  gcongr
  norm_num

/-- Settles O53: the overflow's condition is monotone in `frac`. -/
theorem overflowIsMonotoneInFrac : Obligations.OverflowIsMonotoneInFrac := by
  intro s raw16 raw32 scale frac frac' hle hf
  obtain ⟨hU16, hS16, hU32, hS32⟩ := exec_overflow_iff s raw16 raw32 scale frac
  obtain ⟨hU16', hS16', hU32', hS32'⟩ := exec_overflow_iff s raw16 raw32 scale frac'
  have mono := fun raw => fxExact_mono raw scale.toNat hle
  refine ⟨fun h => ?_, fun h => ?_, fun h => ?_, fun h => ?_⟩
  · exact hU16'.mpr ⟨hf, (hU16.mp h).2.trans (mono _)⟩
  · exact hS16'.mpr ⟨hf, (hS16.mp h).2.trans (mono _)⟩
  · exact hU32'.mpr ⟨hf, (hU32.mp h).2.trans (mono _)⟩
  · exact hS32'.mpr ⟨hf, (hS32.mp h).2.trans (mono _)⟩

/-- 1 times 1 is above 0 and at most 1, whatever the shift (R128 (a)). -/
theorem fxExact_one_one (f : Nat) : fxExact 1 1 f = 1 := by
  rw [fxExact, Nat.ceil_eq_iff one_ne_zero]
  have hpow : (1 : ℚ) ≤ 2 ^ (31 - f) := one_le_pow₀ (by norm_num)
  refine ⟨by simp, ?_⟩
  rw [div_le_iff₀ (by positivity)]
  simpa using hpow

theorem fxExact_zero_left (scale f : Nat) : fxExact 0 scale f = 0 := by simp [fxExact]
theorem fxExact_zero_right (raw f : Nat) : fxExact raw 0 f = 0 := by simp [fxExact]

/-- Settles O51: the exact result is 1, and so is the sign. -/
theorem oneTimesOneIsOne : Obligations.OneTimesOneIsOne := by
  intro s frac i hf hi
  have hU : ∀ u : Word, u.toNat = 1 → fxCore u 1 frac = .ok 1 := fun u hu => by
    have h := fxExact_one_one frac.toNat
    rw [fxCore_ok hf (by simp [hu, h])]
    simp [hu, h]
  have hS : ∀ u : Word, u.toInt = 1 → fxSigned u 1 frac = .ok 1 := fun u hu => by
    have h := fxExact_one_one frac.toNat
    rw [fxSigned_ok hf (by simp [hu, h])]
    simp [hu, h]
  obtain rfl | rfl | rfl | rfl := hi
  · rw [exec_conversion rfl, hU _ (by decide), State.convert_ok]
  · rw [exec_conversion rfl, hS _ (by decide), State.convert_ok]
  · rw [exec_conversion rfl, hU _ (by decide), State.convert_ok]
  · rw [exec_conversion rfl, hS _ (by decide), State.convert_ok]

/-! Negation (R128 (b)). -/

/-- The value with its result negated at 32 bits; a failure stays. -/
def FxValue.negated : FxValue → FxValue
  | .ok r => .ok (-r)
  | .failed e => .failed e

theorem State.convert_negated (s : State) (v : FxValue) :
    (s.convert v.negated).ret = (s.convert v).ret ∧
      ((s.convert v).ret = 0 → (s.convert v.negated).fxout = -(s.convert v).fxout) := by
  cases v with
  | ok r => exact ⟨rfl, fun _ => rfl⟩
  | failed e => exact ⟨rfl, fun h => by cases e <;> cases h⟩

/-- Samples of opposite sign have one magnitude. -/
theorem fxSigned_negated {u v : Word} (scale frac : Word) (h : v.toInt = -u.toInt) :
    fxSigned v scale frac = (fxSigned u scale frac).negated := by
  rw [fxSigned_eq, fxSigned_eq, h, Int.natAbs_neg, Int.sign_neg, neg_mul, BitVec.ofInt_neg]
  split_ifs <;> rfl

/-- Settles O52: the sign is the only part of the result that the sample's sign reaches. -/
theorem negatedSampleNegatesTheResult : Obligations.NegatedSampleNegatesTheResult := by
  intro s t u raw16 raw32 scale frac
  refine ⟨fun hne ht hu => ?_, fun hne ht hu => ?_⟩
  · have hneg : (rawS16 (-raw16)).toInt = -(rawS16 raw16).toInt := by
      rw [toInt_rawS16, toInt_rawS16, BitVec.toInt_neg_of_ne_intMin hne]
    rw [exec_conversion rfl] at ht hu
    cases ht
    cases hu
    rw [fxSigned_negated scale frac hneg]
    exact s.convert_negated _
  · have hneg : (-raw32).toInt = -raw32.toInt := BitVec.toInt_neg_of_ne_intMin hne
    rw [exec_conversion rfl] at ht hu
    cases ht
    cases hu
    rw [fxSigned_negated scale frac hneg]
    exact s.convert_negated _

/-! Agreement of the four commands (R128 (d), (e), (f)). -/

/-- A sample that is not negative converts alike signed and unsigned. -/
theorem fxSigned_eq_fxCore {u : Word} (scale frac : Word) (h : u.toNat ≤ 0x7FFFFFFF) :
    fxSigned u scale frac = fxCore u scale frac := by
  have hbit : u.getLsbD 31 = false := by
    rw [← BitVec.msb_eq_getLsbD_last, BitVec.msb_eq_decide]
    simp; omega
  rw [fxSigned, fxMagnitude, hbit]
  cases hcore : fxCore u scale frac <;> simp [hcore]

/-- The core and the wrapper on a zero operand. -/
theorem fxCore_zero {u scale frac : Word} (hf : frac.toNat ≤ 31) (h : u.toNat = 0 ∨ scale = 0) :
    fxCore u scale frac = .ok 0 := by
  have hzero : fxExact u.toNat scale.toNat frac.toNat = 0 := by
    obtain h | rfl := h
    · rw [h, fxExact_zero_left]
    · exact fxExact_zero_right _ _
  rw [fxCore_ok hf (by omega), hzero]
  rfl

theorem fxSigned_zero {u scale frac : Word} (hf : frac.toNat ≤ 31) (h : u.toInt = 0 ∨ scale = 0) :
    fxSigned u scale frac = .ok 0 := by
  have hzero : fxExact u.toInt.natAbs scale.toNat frac.toNat = 0 := by
    obtain h | rfl := h
    · rw [h]; exact fxExact_zero_left _ _
    · exact fxExact_zero_right _ _
  rw [fxSigned_ok hf (by omega), hzero]
  simp

/-- Settles O54: equal samples, and the exact result of zero. -/
theorem conversionsAgree : Obligations.ConversionsAgree := by
  intro s raw16 raw32 scale frac
  refine ⟨fun h => ?_, fun h => ?_, fun h => ?_, fun hf h => ⟨?_, ?_⟩, fun hf h => ⟨?_, ?_⟩⟩
  · have hraw : rawU16 raw16 = raw32 := BitVec.eq_of_toNat_eq (by rw [toNat_rawU16, h])
    rw [exec_conversion rfl, exec_conversion rfl, hraw]
  · have hraw : rawS16 raw16 = raw32 := BitVec.eq_of_toInt_eq (by rw [toInt_rawS16, h])
    rw [exec_conversion rfl, exec_conversion rfl, hraw]
  · rw [exec_conversion rfl, exec_conversion rfl, fxSigned_eq_fxCore scale frac h]
  · have hraw : raw16 = 0 → (rawU16 raw16).toNat = 0 := fun e => by rw [e]; rfl
    rw [exec_conversion rfl, fxCore_zero hf (h.imp_left hraw), State.convert_ok]
  · have hraw : raw16 = 0 → (rawS16 raw16).toInt = 0 := fun e => by rw [e]; rfl
    rw [exec_conversion rfl, fxSigned_zero hf (h.imp_left hraw), State.convert_ok]
  · have hraw : raw32 = 0 → raw32.toNat = 0 := fun e => by rw [e]; rfl
    rw [exec_conversion rfl, fxCore_zero hf (h.imp_left hraw), State.convert_ok]
  · have hraw : raw32 = 0 → raw32.toInt = 0 := fun e => by rw [e]; rfl
    rw [exec_conversion rfl, fxSigned_zero hf (h.imp_left hraw), State.convert_ok]

/-! Results as numbers (R115, R117, R126, R127). -/

/-- A conversion that returns 0 reported the success whose result FXOUT holds. -/
theorem exec_conversion_ok {i : Instr} {v : FxValue} {s t : State} (hv : conversion i = some v)
    (h : exec i s = .next t) (hret : t.ret = 0) : v = .ok t.fxout := by
  rw [exec_conversion hv] at h
  cases h
  obtain ⟨r, hr, hfx⟩ := State.convert_ret_zero hret
  rw [hfx, hr]

/-- The result's magnitude with its sign, read as a signed number at 32 bits (R126, R127). -/
theorem toInt_signed_result {x : Int} {E : Nat} (hE : E < 2 ^ 32) (hzero : x = 0 → E = 0) :
    (E < 2 ^ 31 → (BitVec.ofInt 32 (x.sign * E)).toInt = x.sign * E) ∧
    (2 ^ 31 ≤ E → 0 ≤ x → (BitVec.ofInt 32 (x.sign * E)).toInt < 0) ∧
    (E = 2 ^ 31 → x < 0 → (BitVec.ofInt 32 (x.sign * E)).toInt = -2 ^ 31) ∧
    (2 ^ 31 < E → x < 0 → 0 < (BitVec.ofInt 32 (x.sign * E)).toInt) := by
  rw [BitVec.toInt_ofInt, Int.bmod_def]
  obtain hneg | rfl | hpos := lt_trichotomy x 0
  · rw [Int.sign_eq_neg_one_of_neg hneg]
    split_ifs <;> omega
  · simp [hzero rfl]
  · rw [Int.sign_eq_one_of_pos hpos]
    split_ifs <;> omega

/-- Settles O55: both signed commands put the magnitude with the sample's sign into 32 bits. -/
theorem signedResultAsANumber : Obligations.SignedResultAsANumber := by
  intro s t i raw16 raw32 scale frac x hi h hret
  obtain ⟨u, hu, rfl⟩ : ∃ u : Word, conversion i = some (fxSigned u scale frac) ∧ u.toInt = x := by
    obtain ⟨rfl, rfl⟩ | ⟨rfl, rfl⟩ := hi
    · exact ⟨rawS16 raw16, rfl, toInt_rawS16 raw16⟩
    · exact ⟨raw32, rfl, rfl⟩
  obtain ⟨-, hfits, hfx⟩ := fxSigned_eq_ok (exec_conversion_ok hu h hret)
  rw [hfx]
  exact toInt_signed_result hfits fun hx => by rw [hx]; exact fxExact_zero_left _ _

/-- The exact result as a number with `frac` fractional bits: rounded up by less than one unit (R115, R117). -/
theorem fxExact_bounds (mag scale : Nat) {f : Nat} (hf : f ≤ 31) :
    (mag * scale : ℚ) / 2 ^ 31 ≤ (fxExact mag scale f : ℚ) / 2 ^ f ∧
      (fxExact mag scale f : ℚ) / 2 ^ f < (mag * scale : ℚ) / 2 ^ 31 + 1 / 2 ^ f := by
  have hsplit : (mag * scale : ℚ) / 2 ^ 31 = (mag * scale : ℚ) / 2 ^ (31 - f) / 2 ^ f := by
    rw [div_div, ← pow_add, Nat.sub_add_cancel hf]
  have hpow : (0 : ℚ) < 2 ^ f := by positivity
  rw [hsplit, ← add_div, fxExact]
  constructor
  · gcongr
    exact Nat.le_ceil _
  · gcongr
    exact Nat.ceil_lt_add_one (by positivity)

/-- Settles O56: on success the magnitude is the exact result. -/
theorem resultIsTheScaledSampleRoundedUp : Obligations.ResultIsTheScaledSampleRoundedUp := by
  intro s t i raw16 raw32 scale frac mag res hi h hret
  have unsigned : ∀ u : Word, conversion i = some (fxCore u scale frac) → u.toNat = mag → t.fxout.toNat = res →
      frac.toNat ≤ 31 ∧ res = fxExact mag scale.toNat frac.toNat := fun u hu hmag hres => by
    obtain ⟨hf, hr⟩ := fxCore_eq_ok (exec_conversion_ok hu h hret)
    exact ⟨hf, by rw [← hres, hr, hmag]⟩
  have signed : ∀ u : Word, conversion i = some (fxSigned u scale frac) → u.toInt.natAbs = mag →
      t.fxout.toInt.natAbs = res → fxExact mag scale.toNat frac.toNat < 2 ^ 31 →
      frac.toNat ≤ 31 ∧ res = fxExact mag scale.toNat frac.toNat := fun u hu hmag hres hsmall => by
    obtain ⟨hf, hfits, hr⟩ := fxSigned_eq_ok (exec_conversion_ok hu h hret)
    have hzero : u.toInt = 0 → fxExact u.toInt.natAbs scale.toNat frac.toNat = 0 := fun hx => by
      rw [hx]; exact fxExact_zero_left _ _
    refine ⟨hf, ?_⟩
    rw [← hres, hr, (toInt_signed_result hfits hzero).1 (hmag ▸ hsmall), Int.natAbs_mul, Int.natAbs_natCast, ← hmag]
    by_cases hx : u.toInt = 0
    · rw [hzero hx, Nat.mul_zero]
    · rw [Int.natAbs_sign_of_ne_zero hx, Nat.one_mul]
  obtain ⟨hf, rfl⟩ : frac.toNat ≤ 31 ∧ res = fxExact mag scale.toNat frac.toNat := by
    obtain ⟨rfl, hmag, hres⟩ | ⟨rfl, hmag, hres⟩ | ⟨rfl, hmag, hres, hsmall⟩ | ⟨rfl, hmag, hres, hsmall⟩ := hi
    · exact unsigned _ rfl ((toNat_rawU16 raw16).trans hmag.symm) hres.symm
    · exact unsigned _ rfl hmag.symm hres.symm
    · exact signed _ rfl (by rw [toInt_rawS16, hmag]) hres.symm hsmall
    · exact signed _ rfl hmag.symm hres.symm hsmall
  exact fxExact_bounds mag scale.toNat hf

end Sys2Proof.Machine
end

section
/-! The alphabet and the layouts (40_base64_alphabet.md R67 to R74). -/

namespace Sys2Proof.Machine

/-- Settles O57: the order by running the alphabet, the rest by the laws of the alphabet and of the layouts. -/
theorem alphabetAndLayoutAreInvertible : Obligations.AlphabetAndLayoutAreInvertible := by
  have horder : (List.range 64).map (fun n => (enc6 (BitVec.ofNat 6 n)).toNat) =
      "ABCDEFGHIJKLMNOPQRSTUVWXYZabcdefghijklmnopqrstuvwxyz0123456789+/".toList.map Char.toNat := by decide
  refine ⟨horder, fun _ _ => dec8_eq_some, dec8_pad, fun b₀ b₁ b₂ => ⟨byte0_group .., byte1_group .., byte2_group ..⟩,
    fun c₀ c₁ c₂ c₃ => ⟨group0_byte .., group1_byte .., group2_byte .., group3_byte ..⟩, decodeLayout_encodeLayout,
    encodeLayout_decodeLayout, quantum_alphabet, enc6_ne_pad, fun p v hp => enc6_ne_fill ?_ v⟩
  exact (Bool.and_eq_true_iff.mp hp).2

end Sys2Proof.Machine
end

section
/-! The block encoder (41_base64_block.md R76 to R80). -/

namespace Sys2Proof.Machine

/-- A sequence held from some character on. -/
theorem Memory.holds.drop {m : Memory} {a : Nat} {xs : List Byte} (h : m.holds a xs) {k : Nat} (hk : k ≤ xs.length) :
    m.holds (a + k) (xs.drop k) := by
  rw [← List.take_append_drop k xs, Memory.holds_append, List.length_take, Nat.min_eq_left hk] at h
  exact h.2

/-- Behind `g` full groups the text is that of the bytes behind them (R77). -/
theorem drop_encodeBlock (fill : Byte) (g : Nat) {bs : List Byte} (h : 3 * g ≤ bs.length) :
    (encodeBlock fill bs).drop (4 * g) = encodeBlock fill (bs.drop (3 * g)) := by
  induction g generalizing bs with
  | zero => rfl
  | succ g ih =>
    match bs, h with
    | b0 :: b1 :: b2 :: rest, h =>
      have hrest : 3 * g ≤ rest.length := by simp only [List.length_cons] at h; omega
      exact ih hrest
    | [], h => simp at h
    | [_], h => simp only [List.length_cons, List.length_nil] at h; omega
    | [_, _], h => simp only [List.length_cons, List.length_nil] at h; omega

theorem getD_drop (bs : List Byte) (k j : Nat) : bs.getD (k + j) 0 = (bs.drop k).getD j 0 := by
  simp [List.getD_eq_getElem?_getD]

/-- B64.ENCB on bytes that memory holds, under conditions with no refusal. -/
theorem exec_b64Encb_bytes {s : State} {inp len out : Word} {bs : List Byte} (he : s.params.hasEncb = true)
    (hi : admitted s.params.memSize inp.toNat len.toNat = true)
    (ho : admitted s.params.memSize out.toNat (encLen len.toNat) = true)
    (hov : encOverlapForbidden inp.toNat len.toNat out.toNat = false) (hmax : encLen len.toNat ≤ 2 ^ 32 - 1)
    (hlen : bs.length = len.toNat) (hbs : s.mem.holds inp.toNat bs) :
    exec (.b64Encb inp len out) s = .next { s with
      mem := s.mem.writeBytes out.toNat (encodeBlock s.params.blkFill bs)
      ret := BitVec.ofNat 32 (encLen len.toNat)
      retWritten := true } := by
  rw [← hlen, ← length_encodeBlock s.params.blkFill bs]
  exact execB64Encb_next.mpr ⟨bs, he, hi, ho, hov, hmax, hlen, hbs, rfl⟩

/-- Settles O28: the text behind `g` full groups starts with the next group, or is the tail. -/
theorem encbWritesGroupsAndFiller : Obligations.EncbWritesGroupsAndFiller := by
  intro s inp len out bs he hi ho hov hmax hlen hbs
  have hheld := Memory.holds_writeBytes s.mem out.toNat (encodeBlock s.params.blkFill bs)
  have htext : (encodeBlock s.params.blkFill bs).length = encLen len.toNat := by rw [length_encodeBlock, hlen]
  have hbehind : ∀ g, 3 * g ≤ len.toNat →
      (s.mem.writeBytes out.toNat (encodeBlock s.params.blkFill bs)).holds (out.toNat + 4 * g)
        (encodeBlock s.params.blkFill (bs.drop (3 * g))) := fun g hg => by
    rw [← drop_encodeBlock _ g (by omega)]
    exact hheld.drop (by rw [htext, encLen]; omega)
  have hhead : ∀ g, bs.getD (3 * g) 0 = (bs.drop (3 * g)).getD 0 0 := fun g => getD_drop bs (3 * g) 0
  refine ⟨_, exec_b64Encb_bytes he hi ho hov hmax hlen hbs, htext ▸ Memory.sameOutside_writeBytes _ _ _, fun g hg => ?_,
    fun g hg => ?_, fun g hg => ?_⟩
  · have h := hbehind g (by omega)
    rw [hhead g, getD_drop bs (3 * g) 1, getD_drop bs (3 * g) 2]
    have hl : (bs.drop (3 * g)).length = len.toNat - 3 * g := by rw [List.length_drop, hlen]
    match bs.drop (3 * g), hl, h with
    | b0 :: b1 :: b2 :: rest, _, h => exact (Memory.holds_append.mp h).1
    | [], hl, _ => simp at hl; omega
    | [_], hl, _ => simp at hl; omega
    | [_, _], hl, _ => simp at hl; omega
  · have h := hbehind g (by omega)
    rw [hhead g]
    obtain ⟨b0, hb⟩ := List.length_eq_one_iff.mp (show (bs.drop (3 * g)).length = 1 by rw [List.length_drop]; omega)
    rw [hb] at h ⊢
    exact h
  · have h := hbehind g (by omega)
    rw [hhead g, getD_drop bs (3 * g) 1]
    obtain ⟨b0, b1, hb⟩ := List.length_eq_two.mp (show (bs.drop (3 * g)).length = 2 by rw [List.length_drop]; omega)
    rw [hb] at h ⊢
    exact h

/-- What memory holds after B64.ENCB: the text of the input bytes (R76 to R78). -/
theorem exec_b64Encb_text {s t : State} {inp len out : Word} (h : exec (.b64Encb inp len out) s = .next t) :
    ∃ bs, bs.length = len.toNat ∧ s.mem.holds inp.toNat bs ∧ t.mem.holds out.toNat (encodeBlock s.params.blkFill bs) := by
  obtain ⟨bs, -, -, -, -, -, hlen, hbs, rfl⟩ := execB64Encb_next.mp h
  exact ⟨bs, hlen, hbs, Memory.holds_writeBytes _ _ _⟩

/-- Settles O29: the encoder's text is the standard characters and the filler. -/
theorem encbTextIsStandardButForTheFiller : Obligations.EncbTextIsStandardButForTheFiller := by
  intro s t inp len out bs hlen hbs h
  obtain ⟨bs', hlen', hbs', htext⟩ := exec_b64Encb_text h
  cases Memory.holds_unique hbs hbs' (hlen.trans hlen'.symm)
  rw [encodeBlock_eq, fillText] at htext
  refine ⟨htext, fun hthree => ?_⟩
  have hnone : stdPadCount bs.length = 0 := by rw [stdPadCount_eq, hlen, if_pos hthree]
  rw [hnone] at htext
  rwa [stdBase64, hnone]

/-- The table of R93 fails at the first filler of a partial group, a foreign character (R80, R85). -/
theorem tableScan_encodeBlock_partial {fill : Byte} (hfill : fillLegal fill = true) (bs : List Byte)
    (h : bs.length % 3 ≠ 0) : tableScan .needFirst (encodeBlock fill bs) = .fail := by
  induction bs using tripleInduction with
  | h0 => simp at h
  | h1 a => simp [encodeBlock, tableScan, classify_fill hfill, TableEnd.after]
  | h2 a b => simp [encodeBlock, tableScan, classify_fill hfill, TableEnd.after]
  | h3 a b c rest ih =>
    have hrest := ih (by simp only [List.length_cons] at h; omega)
    simp [encodeBlock, quantum_eq, tableScan, TableEnd.after, hrest]

theorem decErr_eq : decErr = 0x0000FFFF := by decide

/-- A text of at most 87376 characters keeps the count below the limit of R92. -/
theorem decMax_lt_limit {n : Nat} (h : n ≤ 87376) : decMax n < decCountLimit := by
  rw [decMax, decCountLimit]
  split_ifs <;> omega

/-- Settles O31: the decoder runs the table, which fails on the filler. -/
theorem encbTailIsRejectedByDec : Obligations.EncbTailIsRejectedByDec := by
  intro s t inp len out dst hfill hpartial hmax h hdst hov
  have hret := execB64Encb_ret h
  obtain ⟨hparams, -⟩ := exec_params h
  obtain ⟨bs', -, -, hout, -, -, -, -, -⟩ := execB64Encb_next.mp h
  obtain ⟨bs, hlen, -, htext⟩ := exec_b64Encb_text h
  have hl : (encodeBlock s.params.blkFill bs).length = t.ret.toNat := by rw [length_encodeBlock, hlen, hret]
  have hready : decReady t.params.memSize out.toNat t.ret.toNat dst.toNat = true := by
    rw [hret]
    exact decReady_iff.mpr ⟨by rw [hparams]; exact hout, hdst, hov⟩
  have heven : ¬ t.ret.toNat % 2 = 1 := by rw [hret, encLen]; omega
  refine ⟨t.decodeFailed dst.toNat (decMax t.ret.toNat), ?_, decErr_eq⟩
  rw [exec_b64Dec, execB64Dec_text hl hready htext (decMax_lt_limit (hret ▸ hmax)), if_neg heven,
    tableScan_encodeBlock_partial hfill bs (hlen ▸ hpartial)]

end Sys2Proof.Machine
end

section
/-! The block decoder on a text that memory holds (41_base64_block.md R82 to R94). -/

namespace Sys2Proof.Machine

/-- The parity test and the failure behind it (R87, R88), as a next state written out. -/
theorem State.decodeFailed_eq (s : State) (out n : Nat) :
    s.decodeFailed out n = { s with
      mem := s.mem.writeFree out s.free n, ret := 0x0000FFFF, retWritten := true, free := s.free + n } := by
  rw [← decErr_eq]
  rfl

/-- Settles O32: success, failure and refusal are those of the table. -/
theorem decIsTheStateTable : Obligations.DecIsTheStateTable := by
  intro s inp len out text hi ho hov hl hm hc
  have hexec := execB64Dec_text hl (decReady_iff.mpr ⟨hi, ho, hov⟩) hm (Nat.lt_succ_of_le hc)
  rw [← exec_b64Dec] at hexec
  by_cases hodd : len.toNat % 2 = 1
  · rw [if_pos hodd, State.decodeFailed_eq] at hexec
    rw [if_pos hodd]
    exact ⟨_, _, hexec, Memory.sameOutside_writeFree _ _ _ _⟩
  · rw [if_neg hodd] at hexec
    rw [if_neg hodd]
    cases htable : tableScan .needFirst text with
    | succeed bs =>
      rw [htable] at hexec
      exact ⟨_, hexec, Memory.holds_writeBytes _ _ _, Memory.sameOutside_writeBytes _ _ _⟩
    | fail =>
      rw [htable] at hexec
      simp only [State.decodeFailed_eq] at hexec
      exact ⟨_, _, hexec, Memory.sameOutside_writeFree _ _ _ _⟩
    | refuse =>
      rw [htable] at hexec
      exact hexec

/-- Settles O37: the parity test comes before the scan. -/
theorem decFailsOnOddLength : Obligations.DecFailsOnOddLength := by
  intro s inp len out hi ho hov hodd
  have hexec := execB64Dec_ready (decReady_iff.mpr ⟨hi, ho, hov⟩)
  rw [← exec_b64Dec, if_pos hodd, State.decodeFailed_eq] at hexec
  exact ⟨_, _, hexec, Memory.sameOutside_writeFree _ _ _ _⟩

/-- A count below the limit of R92 is its own word. -/
theorem toNat_count {n : Nat} (h : n < decCountLimit) : (BitVec.ofNat 32 n).toNat = n := by
  rw [decCountLimit] at h
  rw [BitVec.toNat_ofNat, Nat.mod_eq_of_lt (by omega)]

/-- Settles O38: the two ways in which B64.DEC completes. -/
theorem decResultIsACountOrTheSentinel : Obligations.DecResultIsACountOrTheSentinel := by
  intro s t inp len out h
  refine ⟨decMax_le _, ?_⟩
  obtain ⟨-, rfl | ⟨-, bs, hle, hlt, -, rfl⟩⟩ := execB64Dec_next h
  · rw [State.decodeFailed_eq]
    exact .inl ⟨rfl, Memory.sameOutside_writeFree _ _ _ _, rfl⟩
  · have hret := toNat_count hlt
    right
    rw [State.complete_ret, hret]
    exact ⟨hle, Nat.le_of_lt_succ hlt, Memory.sameOutside_writeBytes _ _ _, rfl⟩

/-- B64.DEC on a text, where it completes: the sentinel, or the table's bytes written at `out` (R83, R93). -/
theorem exec_b64Dec_text_next {s t : State} {inp len out : Word} {text : List Byte} (hl : text.length = len.toNat)
    (hm : s.mem.holds inp.toNat text) (hc : decMax len.toNat ≤ 65534) (h : exec (.b64Dec inp len out) s = .next t) :
    (t.ret = 0x0000FFFF ∧ (len.toNat % 2 = 1 ∨ tableScan .needFirst text = .fail)) ∨
      (len.toNat % 2 = 0 ∧ ∃ bs, tableScan .needFirst text = .succeed bs ∧
        t = (s.setMem (s.mem.writeBytes out.toNat bs)).complete (BitVec.ofNat 32 bs.length)) := by
  rw [exec_b64Dec, execB64Dec_text hl (execB64Dec_next h).1 hm (Nat.lt_succ_of_le hc)] at h
  split at h
  · next hodd => cases h; exact .inl ⟨decErr_eq, .inl hodd⟩
  next hodd =>
  cases htable : tableScan .needFirst text with
  | succeed bs => rw [htable] at h; cases h; exact .inr ⟨by omega, bs, rfl, rfl⟩
  | fail => rw [htable] at h; cases h; exact .inl ⟨decErr_eq, .inr rfl⟩
  | refuse => rw [htable] at h; cases h

/-- Settles O39: both run the table on the same text. -/
theorem decInPlaceEqualsDisjoint : Obligations.DecInPlaceEqualsDisjoint := by
  intro s t inp len out text hl hm hc ho hov h
  obtain ⟨hi, -, -⟩ := decReady_iff.mp (execB64Dec_next h).1
  have hready : decReady s.params.memSize inp.toNat len.toNat out.toNat = true :=
    decReady_iff.mpr ⟨hi, ho, by rw [decOverlapForbidden, hov, Bool.and_false]⟩
  have hexec := execB64Dec_text hl hready hm (Nat.lt_succ_of_le hc)
  rw [← exec_b64Dec] at hexec
  obtain ⟨hret, hfail⟩ | ⟨heven, bs, htable, rfl⟩ := exec_b64Dec_text_next hl hm hc h
  · refine ⟨s.decodeFailed out.toNat (decMax len.toNat), ?_, hret ▸ decErr_eq, fun hne => absurd hret hne⟩
    obtain hodd | htable := hfail
    · rwa [if_pos hodd] at hexec
    · rw [htable] at hexec
      rw [hexec]
      exact ite_self _
  · rw [if_neg (by omega), htable] at hexec
    have hle := hl ▸ tableScan_length text bs htable
    have hret : (BitVec.ofNat 32 bs.length).toNat = bs.length := toNat_count (by rw [decCountLimit]; omega)
    refine ⟨_, hexec, rfl, fun _ => ⟨fun k hk => ?_, fun k hge _ => ?_⟩⟩
    · rw [State.complete_ret, hret] at hk
      exact (Memory.holds_writeBytes s.mem inp.toNat bs k hk).trans (Memory.holds_writeBytes s.mem out.toNat bs k hk).symm
    · rw [State.complete_ret, hret] at hge
      exact Memory.sameOutside_writeBytes s.mem inp.toNat bs _ (by omega)

/-- Settles O40: the table takes the standard text to the bytes, and its length is even. -/
theorem decOfStandardTextIsTheBytes : Obligations.DecOfStandardTextIsTheBytes := by
  intro s inp len out bs hl hmax hm hi ho hov
  have heven : ¬ len.toNat % 2 = 1 := by rw [← hl, length_stdBase64, encLen]; omega
  have hexec := execB64Dec_text hl (decReady_iff.mpr ⟨hi, ho, hov⟩) hm (decMax_lt_limit hmax)
  rw [← exec_b64Dec, if_neg heven, tableScan_stdBase64] at hexec
  exact ⟨_, hexec, Memory.holds_writeBytes _ _ _, Memory.sameOutside_writeBytes _ _ _⟩

/-- Settles O43: the scan's end is a function of the text, and so is the encoder's text. -/
theorem blockCodecDependsOnItsInputOnly : Obligations.BlockCodecDependsOnItsInputOnly := by
  intro s₁ s₂ t₁ inp len out hparams hagree
  refine ⟨fun h => ?_, fun h => ?_⟩
  · have hready₁ := (execB64Dec_next h).1
    have hready₂ : decReady s₂.params.memSize inp.toNat len.toNat out.toNat = true := hparams ▸ hready₁
    rw [exec_b64Dec, execB64Dec_ready hready₁] at h
    rw [exec_b64Dec, execB64Dec_ready hready₂]
    split at h
    · next hodd =>
      cases h
      exact ⟨_, if_pos hodd, rfl, fun hne => absurd decErr_eq hne⟩
    next hodd =>
    rw [if_neg hodd]
    obtain ⟨f, hshape, hscan⟩ := decScan_shape (len.toNat / 4 + 1) inp.toNat len.toNat out.toNat 0 s₁.mem (by omega)
      (decReady_sep hready₁)
    rw [hscan s₁.mem (fun _ _ => rfl)] at h
    rw [hscan s₂.mem (fun k hk => (hagree k hk).symm)]
    cases hshape with
    | done bs =>
      cases h
      refine ⟨_, rfl, rfl, fun _ k hk => ?_⟩
      have hk' : k < bs.length := by
        rw [State.complete_ret, Nat.zero_add, BitVec.toNat_ofNat] at hk
        exact hk.trans_le (Nat.mod_le _ _)
      exact (Memory.holds_writeBytes s₂.mem out.toNat bs k hk').trans
        (Memory.holds_writeBytes s₁.mem out.toNat bs k hk').symm
    | fail =>
      cases h
      exact ⟨_, rfl, rfl, fun hne => absurd decErr_eq hne⟩
    | pad => cases h
    | count => cases h
    | unwritten a => cases h
  · obtain ⟨bs, he, hi, ho, hov, hmax, hlen, hbs, rfl⟩ := execB64Encb_next.mp h
    have hbs₂ : s₂.mem.holds inp.toNat bs := (Memory.holds_congr fun k hk => (hagree k (hlen ▸ hk)).symm).mpr hbs
    rw [hparams] at he hi ho
    refine ⟨_, exec_b64Encb_bytes he hi ho hov hmax hlen hbs₂, ?_, fun k hk => ?_⟩
    · rw [State.complete_ret, length_encodeBlock, hlen]
    · have hk' : k < (encodeBlock s₂.params.blkFill bs).length := by rwa [length_encodeBlock, hlen]
      refine (Memory.holds_writeBytes s₂.mem out.toNat _ k hk').trans (Eq.symm ?_)
      rw [← hparams] at hk' ⊢
      exact Memory.holds_writeBytes s₁.mem out.toNat _ k hk'

/-- A B64.DEC that returned the sentinel: an odd length or a scan that failed, and the effect of R88. -/
theorem execB64Dec_failed {s t : State} {inp len out : Word} (h : execB64Dec inp len out s = .next t)
    (hret : t.ret = 0x0000FFFF) :
    t = s.decodeFailed out.toNat (decMax len.toNat) ∧
      (len.toNat % 2 = 1 ∨ decScan (len.toNat / 4 + 1) inp.toNat len.toNat out.toNat 0 s.mem = .fail) := by
  have hcount : ∀ {n : Nat}, n < decCountLimit → BitVec.ofNat 32 n ≠ 0x0000FFFF := fun hn e => by
    have htoNat := toNat_count hn
    rw [e] at htoNat
    rw [← htoNat] at hn
    exact absurd hn (by decide)
  rw [execB64Dec_ready (execB64Dec_next h).1] at h
  split at h
  · next hodd => cases h; exact ⟨rfl, .inl hodd⟩
  next hodd =>
  obtain ⟨hmore, hdone⟩ := decScan_done (fuel := len.toNat / 4 + 1) (p := inp.toNat) (rem := len.toNat)
    (out := out.toNat) (o := 0) (m := s.mem) (by omega) (by decide)
  cases hscan : decScan (len.toNat / 4 + 1) inp.toNat len.toNat out.toNat 0 s.mem with
  | more o m => exact absurd hscan (hmore o m)
  | done o m =>
    obtain ⟨-, -, -, -, hlt⟩ := hdone o m hscan
    rw [hscan] at h
    cases h
    exact absurd hret (hcount hlt)
  | fail => rw [hscan] at h; cases h; exact ⟨rfl, .inr rfl⟩
  | refuse r => rw [hscan] at h; cases h
  | fault f => rw [hscan] at h; cases h

/-- A scan that fails fails on every memory with the same text. -/
theorem decScan_fail_of_agreesOn {fuel p rem out o : Nat} {m m' : Memory} (heven : rem % 2 = 0)
    (hsep : out + o ≤ p ∨ p + rem ≤ out + o) (hagree : m.agreesOn m' p rem)
    (h : decScan fuel p rem out o m = .fail) : decScan fuel p rem out o m' = .fail := by
  obtain ⟨f, hshape, hf⟩ := decScan_shape fuel p rem out o m heven hsep
  rw [hf m (fun _ _ => rfl)] at h
  rw [hf m' hagree]
  cases hshape with
  | done bs => cases h
  | fail => rfl
  | pad => cases h
  | count => cases h
  | unwritten a => cases h

/-- Settles O44: the failure leaves the text as it was, so the scan fails again. -/
theorem failedDecodeFailsAgain : Obligations.FailedDecodeFailsAgain := by
  intro s t inp len out h hret hov
  have hready := (execB64Dec_next h).1
  obtain ⟨rfl, hfail⟩ := execB64Dec_failed h hret
  refine ⟨(s.decodeFailed out.toNat (decMax len.toNat)).decodeFailed out.toNat (decMax len.toNat), ?_, decErr_eq⟩
  rw [exec_b64Dec, execB64Dec_ready (s := s.decodeFailed out.toNat (decMax len.toNat)) hready]
  obtain hodd | hscan := hfail
  · exact if_pos hodd
  by_cases hodd : len.toNat % 2 = 1
  · exact if_pos hodd
  have hagree : s.mem.agreesOn (s.mem.writeFree out.toNat s.free (decMax len.toNat)) inp.toNat len.toNat := fun k hk => by
    refine Memory.sameOutside_writeFree _ _ _ _ _ ?_
    simp only [overlaps, Bool.and_eq_false_iff, bne_eq_false_iff_eq, decide_eq_false_iff_not] at hov
    omega
  rw [if_neg hodd, State.decodeFailed_mem, decScan_fail_of_agreesOn (by omega) (decReady_sep hready) hagree hscan]

end Sys2Proof.Machine
end

section
/-! The decoder's scan behind `n` alphabet characters (41_base64_block.md R82, R89 to R92; 70_reset_and_hazards.md R153):
where it stands, what memory holds there, and how the next character ends it. -/

namespace Sys2Proof.Machine

theorem groupBytes_succ (g : Nat → Group) (k : Nat) : groupBytes g (k + 1) = groupBytes g k ++ [groupByte g k] := by
  simp [groupBytes, List.range_succ]

/-- One more byte written behind the bytes of the groups. -/
theorem writeBytes_groupBytes_succ (m : Memory) (a : Nat) (g : Nat → Group) (k : Nat) :
    m.writeBytes a (groupBytes g (k + 1)) = (m.writeBytes a (groupBytes g k)).write (a + k) (groupByte g k) := by
  rw [groupBytes_succ, Memory.writeBytes_append, length_groupBytes]
  rfl

/-! The bytes of one quartet (R73). -/

theorem groupByte_first (g : Nat → Group) (q : Nat) : groupByte g (3 * q) = byte0 (g (4 * q)) (g (4 * q + 1)) := by
  rw [groupByte, if_pos (by omega), show 3 * q / 3 = q by omega]

theorem groupByte_second (g : Nat → Group) (q : Nat) :
    groupByte g (3 * q + 1) = byte1 (g (4 * q + 1)) (g (4 * q + 2)) := by
  rw [groupByte, if_neg (by omega), if_pos (by omega), show (3 * q + 1) / 3 = q by omega]

/-- The bytes of `n` alphabet characters, by the position of the next one in its quartet (R84). -/
theorem decMax_position (n : Nat) :
    (n % 4 < 2 → decMax n = 3 * (n / 4)) ∧ (n % 4 = 2 → decMax n = 3 * (n / 4) + 1) ∧
      (n % 4 = 3 → decMax n = 3 * (n / 4) + 2) := by
  refine ⟨fun h => ?_, fun h => ?_, fun h => ?_⟩
  · rw [decMax, if_neg (by omega), if_neg (by omega), Nat.add_zero]
  · rw [decMax, if_pos h]
  · rw [decMax, if_neg (by omega), if_pos h]

/-- The scan ends with a quartet that does not ask to go on. -/
theorem decScan_of_decQuartet {fuel p rem out o : Nat} {m : Memory} {e : DecEnd} (h : decQuartet p rem out o m = e)
    (he : ∀ o' m', e ≠ .more o' m') : decScan (fuel + 1) p rem out o m = e := by
  rw [decScan, h]
  cases e with
  | more o' m' => exact absurd rfl (he o' m')
  | done o' m' => rfl
  | fail => rfl
  | refuse r => rfl
  | fault f => rfl

section
variable {m : Memory} {inp len out n : Nat} {g : Nat → Group} {e : DecEnd}

/-- Behind the full quartets of `n` alphabet characters. -/
theorem decScan_behind_quartets (hsep : out ≤ inp ∨ inp + len ≤ out) (hn : n ≤ len)
    (hc : 3 * (n / 4) < decCountLimit) (hg : m.groupsAt inp n g) :
    decScan (len / 4 + 1) inp len out 0 m =
      decScan (len / 4 - n / 4 + 1) (inp + 4 * (n / 4)) (len - 4 * (n / 4)) out (3 * (n / 4))
        (m.writeBytes out (groupBytes g (3 * (n / 4)))) := by
  rw [show len / 4 + 1 = n / 4 + (len / 4 - n / 4 + 1) by omega,
    decScan_symbols (n / 4) _ inp len out 0 m g (by omega) (fun k hk => hg k (by omega)) (by omega) (by omega),
    Nat.zero_add, Nat.add_zero out]

/-- The first `k` bytes of the groups reach no pair of the text that starts at character `k` or later (R86). -/
theorem readPair_behind_groupBytes (hsep : out ≤ inp ∨ inp + len ≤ out) {k a : Nat} (ha : k ≤ a) (hlen : a + 2 ≤ len) :
    readPair (m.writeBytes out (groupBytes g k)) (inp + a) = readPair m (inp + a) :=
  readPair_congr fun i hi =>
    Memory.sameOutside_writeBytes m out (groupBytes g k) (inp + a + i) (by rw [length_groupBytes]; omega)

/-- The first pair of a quartet of the text, where `n` alphabet characters reach behind it. -/
theorem readPair_symbols (hg : m.groupsAt inp n g) {k : Nat} (hk : k + 2 ≤ n) :
    readPair m (inp + k) = .ok (enc6 (g k), enc6 (g (k + 1))) :=
  readPair_eq_ok.mpr ⟨hg k (by omega), hg (k + 1) (by omega)⟩

/-- A quartet whose first pair is alphabet characters writes its first byte and ends or goes on with its second pair. -/
theorem decQuartet_behind_pair (hsep : out ≤ inp ∨ inp + len ≤ out) (hn : n ≤ len)
    (hc : 3 * (n / 4) + 1 < decCountLimit) (hg : m.groupsAt inp n g) (hpos : 2 ≤ n % 4) :
    decQuartet (inp + 4 * (n / 4)) (len - 4 * (n / 4)) out (3 * (n / 4)) (m.writeBytes out (groupBytes g (3 * (n / 4)))) =
      if len - 4 * (n / 4) = 2 then .done (3 * (n / 4) + 1) (m.writeBytes out (groupBytes g (3 * (n / 4) + 1)))
      else decSecondPair (inp + 4 * (n / 4) + 2) out (3 * (n / 4) + 1) (g (4 * (n / 4) + 1))
        (m.writeBytes out (groupBytes g (3 * (n / 4) + 1))) := by
  rw [writeBytes_groupBytes_succ, groupByte_first]
  simp only [decQuartet, if_neg (show ¬ len - 4 * (n / 4) = 0 by omega),
    readPair_behind_groupBytes hsep (show 3 * (n / 4) ≤ 4 * (n / 4) by omega) (by omega),
    readPair_symbols hg (show 4 * (n / 4) + 2 ≤ n by omega), classify_enc6, decPut, if_pos hc]

/-- Behind `n` alphabet characters at position 1 or 2, the scan ends as the quartet there. -/
theorem decScan_first_pair (hsep : out ≤ inp ∨ inp + len ≤ out) (hn : n ≤ len) (hc : decMax n < decCountLimit)
    (hg : m.groupsAt inp n g) (hpos : n % 4 < 2)
    (h : decQuartet (inp + 2 * (n / 2)) (len - 2 * (n / 2)) out (decMax n) (m.writeBytes out (groupBytes g (decMax n))) = e)
    (he : ∀ o' m', e ≠ .more o' m') : decScan (len / 4 + 1) inp len out 0 m = e := by
  rw [(decMax_position n).1 hpos] at h hc
  rw [show 2 * (n / 2) = 4 * (n / 4) by omega] at h
  rw [decScan_behind_quartets hsep hn hc hg]
  exact decScan_of_decQuartet h he

/-- Behind `n` alphabet characters at position 3 or 4, the scan ends as the second pair there. -/
theorem decScan_second_pair (hsep : out ≤ inp ∨ inp + len ≤ out) (heven : len % 2 = 0) (hn : n < len)
    (hc : 3 * (n / 4) + 1 < decCountLimit) (hg : m.groupsAt inp n g) (hpos : 2 ≤ n % 4)
    (h : decSecondPair (inp + 2 * (n / 2)) out (3 * (n / 4) + 1) (g (4 * (n / 4) + 1))
      (m.writeBytes out (groupBytes g (3 * (n / 4) + 1))) = e)
    (he : ∀ o' m', e ≠ .more o' m') : decScan (len / 4 + 1) inp len out 0 m = e := by
  rw [show inp + 2 * (n / 2) = inp + 4 * (n / 4) + 2 by omega] at h
  rw [decScan_behind_quartets hsep (by omega) (by omega) hg]
  refine decScan_of_decQuartet ?_ he
  rw [decQuartet_behind_pair hsep (by omega) hc hg hpos, if_neg (by omega), h]

/-- The text ends behind its `n` alphabet characters (R90; decision D14). -/
theorem decScan_end (hsep : out ≤ inp ∨ inp + n ≤ out) (heven : n % 2 = 0) (hc : decMax n < decCountLimit)
    (hg : m.groupsAt inp n g) :
    decScan (n / 4 + 1) inp n out 0 m = .done (decMax n) (m.writeBytes out (groupBytes g (decMax n))) := by
  obtain ⟨hfirst, hthird, -⟩ := decMax_position n
  obtain hpos | hpos : n % 4 = 0 ∨ n % 4 = 2 := by omega
  · exact decScan_first_pair hsep le_rfl hc hg (by omega) (if_pos (by omega)) (fun _ _ => by simp)
  · rw [hthird hpos] at hc ⊢
    rw [decScan_behind_quartets hsep le_rfl (by omega) hg]
    refine decScan_of_decQuartet ?_ (fun _ _ => by simp)
    rw [decQuartet_behind_pair hsep le_rfl hc hg (by omega), if_pos (by omega)]

/-- A pair behind `n` alphabet characters that cannot be read ends the scan with its fault (R153). -/
theorem decScan_fault (hsep : out ≤ inp ∨ inp + len ≤ out) (heven : len % 2 = 0) (hn : n < len)
    (hc : decMax n < decCountLimit) (hg : m.groupsAt inp n g) {f : Fault}
    (hp : readPair m (inp + 2 * (n / 2)) = .error f) : decScan (len / 4 + 1) inp len out 0 m = .fault f := by
  obtain ⟨hfirst, hthird, hfourth⟩ := decMax_position n
  by_cases hpos : n % 4 < 2
  · refine decScan_first_pair hsep (by omega) hc hg hpos ?_ (fun _ _ => by simp)
    rw [decQuartet, if_neg (by omega), readPair_behind_groupBytes hsep (by omega) (by omega), hp]
  · refine decScan_second_pair hsep heven hn (by omega) hg (by omega) ?_ (fun _ _ => by simp)
    rw [decSecondPair, readPair_behind_groupBytes hsep (by omega) (by omega), hp]

end

/-! How a character that is no digit ends the scan. -/

/-- The end at the position behind `n` alphabet characters, `o` bytes written and `m` the memory: `=` at position 1 or 2 is
refused and terminates at 3 or 4, a foreign character fails (R88, R89, R91). -/
def stopEnd (n o : Nat) (m : Memory) : CharClass → Option DecEnd
  | .pad => some (if n % 4 < 2 then .refuse .padMisplaced else .done o m)
  | .foreign => some .fail
  | .symbol _ => none

section
variable {n p rem out o : Nat} {m : Memory} {e : DecEnd}

theorem stopEnd_eq_some {c : CharClass} (h : stopEnd n o m c = some e) :
    c = .pad ∧ e = (if n % 4 < 2 then .refuse .padMisplaced else .done o m) ∨ c = .foreign ∧ e = .fail := by
  cases c with
  | pad => exact .inl ⟨rfl, (Option.some.inj h).symm⟩
  | foreign => exact .inr ⟨rfl, (Option.some.inj h).symm⟩
  | symbol v => cases h

theorem stopEnd_ne_more {c : CharClass} (h : stopEnd n o m c = some e) (o' : Nat) (m' : Memory) : e ≠ .more o' m' := by
  obtain ⟨-, rfl⟩ | ⟨-, rfl⟩ := stopEnd_eq_some h
  · split <;> simp
  · simp

/-- At positions 1 and 2. -/
theorem decQuartet_stop {a b ch : Byte} (hrem : rem ≠ 0) (hp : readPair m p = .ok (a, b)) (hpos : n % 4 < 2)
    (hch : a = ch ∨ (∃ c0, a = enc6 c0) ∧ b = ch) (h : stopEnd n o m (classify ch) = some e) :
    decQuartet p rem out o m = e := by
  obtain rfl | ⟨⟨c0, rfl⟩, rfl⟩ := hch
  · obtain ⟨hc, rfl⟩ | ⟨hc, rfl⟩ := stopEnd_eq_some h <;> simp [decQuartet, hrem, hp, hc, hpos]
  · obtain ⟨hc, rfl⟩ | ⟨hc, rfl⟩ := stopEnd_eq_some h <;> simp [decQuartet, hrem, hp, hc, hpos]

/-- At position 3. -/
theorem decSecondPair_stop_third {c d : Byte} {c1 : Group} (hp : readPair m p = .ok (c, d)) (hpos : 2 ≤ n % 4)
    (h : stopEnd n o m (classify c) = some e) : decSecondPair p out o c1 m = e := by
  obtain ⟨hc, rfl⟩ | ⟨hc, rfl⟩ := stopEnd_eq_some h <;> simp [decSecondPair, hp, hc, Nat.not_lt.mpr hpos]

/-- At position 4, one more byte written. -/
theorem decSecondPair_stop_fourth {d : Byte} {c1 c2 : Group} (hp : readPair m p = .ok (enc6 c2, d)) (hpos : 2 ≤ n % 4)
    (hcount : o + 1 < decCountLimit) (h : stopEnd n (o + 1) (m.write (out + o) (byte1 c1 c2)) (classify d) = some e) :
    decSecondPair p out o c1 m = e := by
  obtain ⟨hc, rfl⟩ | ⟨hc, rfl⟩ := stopEnd_eq_some h <;>
    simp [decSecondPair, hp, hc, decPut, hcount, Nat.not_lt.mpr hpos]

end

section
variable {m : Memory} {inp len out n : Nat} {g : Nat → Group}

/-- The character behind `n` alphabet characters ends the scan, where it is no digit and its pair has been written. -/
theorem decScan_stop (hsep : out ≤ inp ∨ inp + len ≤ out) (heven : len % 2 = 0) (hn : n < len)
    (hc : decMax n < decCountLimit) (hg : m.groupsAt inp n g) {ch : Byte} (hch : m.read (inp + n) = some ch)
    (hpartner : n % 2 = 0 → (m.read (inp + n + 1)).isSome = true) {e : DecEnd}
    (h : stopEnd n (decMax n) (m.writeBytes out (groupBytes g (decMax n))) (classify ch) = some e) :
    decScan (len / 4 + 1) inp len out 0 m = e := by
  obtain ⟨hfirst, hthird, hfourth⟩ := decMax_position n
  have hmore := stopEnd_ne_more h
  have hfront : n % 2 = 0 → ∃ d, readPair m (inp + 2 * (n / 2)) = .ok (ch, d) := fun h2 => by
    obtain ⟨d, hd⟩ := Option.isSome_iff_exists.mp (hpartner h2)
    exact ⟨d, readPair_eq_ok.mpr ⟨by rwa [show 2 * (n / 2) = n by omega], by rwa [show 2 * (n / 2) = n by omega]⟩⟩
  have hback : n % 2 = 1 → readPair m (inp + 2 * (n / 2)) = .ok (enc6 (g (2 * (n / 2))), ch) := fun h2 =>
    readPair_eq_ok.mpr ⟨hg _ (by omega), by rwa [show inp + 2 * (n / 2) + 1 = inp + n by omega]⟩
  by_cases hpos : n % 4 < 2
  · refine decScan_first_pair hsep (by omega) hc hg hpos ?_ hmore
    have hbehind := readPair_behind_groupBytes (m := m) (g := g) hsep (show decMax n ≤ 2 * (n / 2) by omega) (by omega)
    obtain h2 | h2 := Nat.mod_two_eq_zero_or_one n
    · obtain ⟨d, hd⟩ := hfront h2
      exact decQuartet_stop (by omega) (hbehind.trans hd) hpos (.inl rfl) h
    · exact decQuartet_stop (by omega) (hbehind.trans (hback h2)) hpos (.inr ⟨⟨_, rfl⟩, rfl⟩) h
  · refine decScan_second_pair hsep heven hn (by omega) hg (by omega) ?_ hmore
    have hbehind := readPair_behind_groupBytes (m := m) (g := g) hsep
      (show 3 * (n / 4) + 1 ≤ 2 * (n / 2) by omega) (by omega)
    obtain h2 | h2 := Nat.mod_two_eq_zero_or_one n
    · obtain ⟨d, hd⟩ := hfront h2
      rw [hthird (by omega)] at h
      exact decSecondPair_stop_third (hbehind.trans hd) (by omega) h
    · rw [hfourth (by omega), writeBytes_groupBytes_succ, groupByte_second] at h
      refine decSecondPair_stop_fourth (n := n) (hbehind.trans (hback h2)) (by omega) (by omega) ?_
      rwa [show 2 * (n / 2) = 4 * (n / 4) + 2 by omega]

/-- The first 87380 alphabet characters would make 65535 bytes: the last one is not written (R92). -/
theorem decScan_count (hsep : out ≤ inp ∨ inp + len ≤ out) (heven : len % 2 = 0) (hn : 87380 ≤ len)
    (hg : m.groupsAt inp 87380 g) : decScan (len / 4 + 1) inp len out 0 m = .refuse .decodeCount := by
  have hg' : m.groupsAt inp 87379 g := fun k hk => hg k (by omega)
  refine decScan_second_pair hsep heven (by omega) (by decide) hg' (by omega) ?_ (fun _ _ => by simp)
  rw [decSecondPair, readPair_behind_groupBytes hsep (by omega) (by omega), readPair_symbols hg (by omega)]
  simp [decPut, decCountLimit]

end

/-! The obligations on a text that starts with `n` alphabet characters. -/

section
variable {s : State} {inp len out : Word}
  (hready : decReady s.params.memSize inp.toNat len.toNat out.toNat = true) (heven : len.toNat % 2 = 0)
include hready heven

/-! B64.DEC answers what its scan ends with. -/

theorem exec_b64Dec_of_done {o : Nat} {m : Memory}
    (hscan : decScan (len.toNat / 4 + 1) inp.toNat len.toNat out.toNat 0 s.mem = .done o m) :
    exec (.b64Dec inp len out) s = .next { s with mem := m, ret := BitVec.ofNat 32 o, retWritten := true } := by
  rw [exec_b64Dec, execB64Dec_ready hready, if_neg (by omega), hscan]
  rfl

theorem exec_b64Dec_of_fail (hscan : decScan (len.toNat / 4 + 1) inp.toNat len.toNat out.toNat 0 s.mem = .fail) :
    exec (.b64Dec inp len out) s = .next (s.decodeFailed out.toNat (decMax len.toNat)) := by
  rw [exec_b64Dec, execB64Dec_ready hready, if_neg (by omega), hscan]

theorem exec_b64Dec_of_refuse {r : Refusal}
    (hscan : decScan (len.toNat / 4 + 1) inp.toNat len.toNat out.toNat 0 s.mem = .refuse r) :
    exec (.b64Dec inp len out) s = .refused r := by
  rw [exec_b64Dec, execB64Dec_ready hready, if_neg (by omega), hscan]

theorem exec_b64Dec_of_fault {f : Fault}
    (hscan : decScan (len.toNat / 4 + 1) inp.toNat len.toNat out.toNat 0 s.mem = .fault f) :
    exec (.b64Dec inp len out) s = .fault f := by
  rw [exec_b64Dec, execB64Dec_ready hready, if_neg (by omega), hscan]

end

/-- Settles O33: the scan ends at the end of the text or at its terminator, with the bytes of the groups written. -/
theorem decReadsUpToTheTerminator : Obligations.DecReadsUpToTheTerminator := by
  intro s inp len out n g hi ho hov heven hn hc hg hend
  have hready := decReady_iff.mpr ⟨hi, ho, hov⟩
  have hc' : decMax n < decCountLimit := Nat.lt_succ_of_le hc
  have hscan : decScan (len.toNat / 4 + 1) inp.toNat len.toNat out.toNat 0 s.mem =
      .done (decMax n) (s.mem.writeBytes out.toNat (groupBytes g (decMax n))) := by
    obtain rfl | ⟨hlt, hpos, hpad⟩ | ⟨hlt, hpos, hpad, hpartner⟩ := hend
    · exact decScan_end (decReady_sep hready) heven hc' hg
    · refine decScan_stop (decReady_sep hready) heven hlt hc' hg hpad (fun h => by omega) ?_
      rw [← PAD, classify_pad, stopEnd, if_neg (by omega)]
    · refine decScan_stop (decReady_sep hready) heven hlt hc' hg hpad (fun _ => hpartner) ?_
      rw [← PAD, classify_pad, stopEnd, if_neg (by omega)]
  refine ⟨_, exec_b64Dec_of_done hready heven hscan, fun j hj => ?_, ?_⟩
  · rw [Memory.holds_writeBytes _ _ _ j (by rwa [length_groupBytes])]
    simp [groupBytes, hj]
  · have hsame := Memory.sameOutside_writeBytes s.mem out.toNat (groupBytes g (decMax n))
    rwa [length_groupBytes] at hsame

/-- Settles O34: `=` at position 1 or 2 ends the scan with the refusal. -/
theorem decRefusesAMisplacedPad : Obligations.DecRefusesAMisplacedPad := by
  intro s inp len out n g hi ho hov heven hn hc hg hpad hpos
  have hready := decReady_iff.mpr ⟨hi, ho, hov⟩
  refine exec_b64Dec_of_refuse hready heven
    (decScan_stop (decReady_sep hready) heven hn (Nat.lt_succ_of_le hc) hg hpad (fun h => ?_) ?_)
  · obtain hodd | ⟨-, hpartner⟩ := hpos
    · omega
    · exact hpartner
  · rw [← PAD, classify_pad, stopEnd, if_pos (by omega)]

/-- Settles O35: a foreign character ends the scan with the failure. -/
theorem decFailsOnAForeignCharacter : Obligations.DecFailsOnAForeignCharacter := by
  intro s inp len out n g ch hi ho hov heven hn hc hg hch hpad hforeign hpartner
  have hready := decReady_iff.mpr ⟨hi, ho, hov⟩
  have hscan := decScan_stop (decReady_sep hready) heven hn (Nat.lt_succ_of_le hc) hg hch hpartner
    (by rw [classify_eq_foreign.mpr ⟨hpad, hforeign⟩]; rfl)
  have hfail := exec_b64Dec_of_fail hready heven hscan
  rw [State.decodeFailed_eq] at hfail
  exact ⟨_, _, hfail, Memory.sameOutside_writeFree _ _ _ _⟩

/-- Settles O36: 65535 bytes take 87380 characters. -/
theorem decRefusesTheCountLimit : Obligations.DecRefusesTheCountLimit := by
  intro s inp len out n g hi ho hov heven hn hc hg
  have hready := decReady_iff.mpr ⟨hi, ho, hov⟩
  have hmany : 87380 ≤ n := by
    rw [decMax] at hc
    split_ifs at hc <;> omega
  exact exec_b64Dec_of_refuse hready heven
    (decScan_count (decReady_sep hready) heven (by omega) (fun k hk => hg k (by omega)))

/-- Settles O59: the pair that holds the character cannot be read. -/
theorem unwrittenCharacterFaults : Obligations.UnwrittenCharacterFaults := by
  intro s inp len out n g hi ho hov heven hn hc hg
  have hready := decReady_iff.mpr ⟨hi, ho, hov⟩
  have hfault := fun f hp => exec_b64Dec_of_fault hready heven
    (decScan_fault (f := f) (decReady_sep hready) heven hn (Nat.lt_succ_of_le hc) hg hp)
  refine ⟨fun hnone => hfault _ (readPair_eq_error.mpr ?_), fun h2 hsome hnone => hfault _ (readPair_eq_error.mpr ?_)⟩
  · obtain h2 | h2 := Nat.mod_two_eq_zero_or_one n
    · rw [show 2 * (n / 2) = n by omega]
      exact .inl ⟨hnone, rfl⟩
    · rw [show inp.toNat + 2 * (n / 2) + 1 = inp.toNat + n by omega]
      exact .inr ⟨by rw [hg _ (by omega)]; rfl, hnone, rfl⟩
  · rw [show 2 * (n / 2) = n by omega]
    exact .inr ⟨hsome, hnone, rfl⟩

end Sys2Proof.Machine
end
